-- ==== Sys2Proof/Word.lean ====
section
/-! DEFINITION. The word types of the block: a byte, a 64-bit operand or register, a 32-bit command word (R7, R9, R80). -/

namespace Sys2Proof

/-- A byte, R9. -/
abbrev Byte := BitVec 8

/-- An address, a size, a register or a payload field: 64 bits, unsigned (R7). -/
abbrev Word64 := BitVec 64

/-- A command word (R81). -/
abbrev CmdWord := BitVec 32

/-- A SIMD register: a flat 64-byte buffer (R26). -/
abbrev SimdReg := Vector Byte 64

/-- The index of a general or SIMD register: the 4-bit fields `R` and `V` reach exactly the 16 that exist (R83, R84, R213). -/
abbrev RegIndex := Fin 16

end Sys2Proof
end

