-- ==== Sys2Proof/Config.lean ====
section
/-! DEFINITION. The construction values and policy parameters of the block (R5, R6, R8, R30) and the one free value of the model. -/

namespace Sys2Proof

/-- `GPR_WRITE_POLICY` (R8, R140). -/
inductive GprWritePolicy where
  /-- Every narrow write zero-fills the register: the default. -/
  | zeroExtend
  /-- A narrow write keeps the bits it does not name. -/
  | merge
  /-- 32-bit writes zero the upper half, 8- and 16-bit writes keep the upper bits. -/
  | x86
deriving DecidableEq, Repr

/-- `REG_RESET` (R8, R34). -/
inductive RegReset where
  /-- Registers are zero at reset; there are no validity bits. -/
  | zero
  /-- Register bytes are unwritten at reset, and a read of one answers `UNWRITTEN`. -/
  | poison
deriving DecidableEq, Repr

/-- What a block is built with: the construction parameters of R6 and the policies of R8. It never changes between two
resets (R30); the model keeps it beside the state so that every statement holds for every construction (log entry 1). -/
structure Config where
  /-- `BASE`, the DRAM base address. -/
  base : Word64
  /-- `REQ_SIZE`, the requested DRAM size. -/
  reqSize : Word64
  /-- `ALIGN`, any positive integer. -/
  align : Nat
  /-- `GPR_WRITE_POLICY`. -/
  gprWritePolicy : GprWritePolicy
  /-- `REG_RESET`. -/
  regReset : RegReset
  /-- `BACKWARD_MERGE_ADJACENT`. -/
  backwardMergeAdjacent : Bool
  /-- `BACKING_LIMIT`: none, or a byte count. -/
  backingLimit : Option Nat
  /-- `DEVICE_NAME`, a byte string. -/
  deviceName : List Byte
deriving DecidableEq, Repr

/-- The configuration `State.reset` is built with: the defaults of R8 and, where R6 and R8 give none, the values
95_test_vectors.md uses (`BASE = 0`, `REQ_SIZE = 4 MiB`, the name "dram"). DESIGN CHOICE, unsafe for a claim that rests on
those three: log entry 1. -/
def Config.conventional : Config where
  base := 0
  reqSize := 0x400000
  align := 1
  gprWritePolicy := .zeroExtend
  regReset := .zero
  backwardMergeAdjacent := false
  backingLimit := none
  deviceName := [0x64, 0x72, 0x61, 0x6d]

/-- FREE VALUE (log entry 7): what `P1` of `OUT_OF_BOUNDS` holds when a size does not fit its 64 bits, which only a `WRBS`
with `2^64` or more bytes of `D` can bring about (R51, R88). It is applied to the number of responses given before. -/
opaque Config.oversizePayload : Nat → Word64

end Sys2Proof
end

