-- ==== Sys2Proof/Syntax.lean ====
section
/-! DEFINITION. The commands of the block, one constructor per row of the opcode table, and the request record they come in
(R80, R86). -/

namespace Sys2Proof

/-- The three views of a SIMD register (R26, R171). -/
inductive View where
  /-- Bytes 0 to 15. -/
  | xmm
  /-- Bytes 0 to 31. -/
  | ymm
  /-- Bytes 0 to 63. -/
  | zmm
deriving DecidableEq, Repr

/-- The ten SIMD element types (R14). -/
inductive ElemType where
  | i8 | u8 | i16 | u16 | i32 | u32 | i64 | u64 | f32 | f64
deriving DecidableEq, Repr

/-- A request (R80): the command word and the four operands. An element of `E` is an integer: a value of an integer type, or the
bit pattern of a float (R14); log entry 8. -/
structure Request where
  /-- `CMD`, the command word. -/
  cmd : CmdWord
  /-- `A`, a 64-bit operand. -/
  a : Word64
  /-- `B`, a 64-bit operand. -/
  b : Word64
  /-- `D`, a byte sequence of any length. -/
  d : List Byte
  /-- `E`, a sequence of elements. -/
  e : List Int
deriving DecidableEq, Repr

/-- One command (R86): the register field of its word and the operands it reads, each whole. -/
inductive Instr where
  /-- `ALLOC`, R111: `A` is the address hint, `B` the size hint. -/
  | alloc (hint size : Word64)
  /-- `RDB`, R113: `A` is the address. -/
  | rdb (addr : Word64)
  /-- `RDBS`, R114: `A` is the address, `B` the size. -/
  | rdbs (addr size : Word64)
  /-- `WRB`, R115: `A` is the address, `B[7:0]` the byte. -/
  | wrb (addr value : Word64)
  /-- `WRBS`, R116: `A` is the address, `D` the bytes. -/
  | wrbs (addr : Word64) (data : List Byte)
  /-- `DNAME`, R117. -/
  | dname
  /-- `DSTART`, R118. -/
  | dstart
  /-- `DEND`, R119. -/
  | dend
  /-- `GRD8`, R141: `R` is the register. -/
  | grd8 (r : RegIndex)
  /-- `GRD16`, R142: `R` is the register. -/
  | grd16 (r : RegIndex)
  /-- `GRD32`, R143: `R` is the register. -/
  | grd32 (r : RegIndex)
  /-- `GRD64`, R144: `R` is the register. -/
  | grd64 (r : RegIndex)
  /-- `GWR8`, R145: `R` is the register, `A` the value. -/
  | gwr8 (r : RegIndex) (value : Word64)
  /-- `GWR16`, R146: `R` is the register, `A` the value. -/
  | gwr16 (r : RegIndex) (value : Word64)
  /-- `GWR32`, R147: `R` is the register, `A` the value. -/
  | gwr32 (r : RegIndex) (value : Word64)
  /-- `GWR64`, R148: `R` is the register, `A` the value. -/
  | gwr64 (r : RegIndex) (value : Word64)
  /-- `RIPRD`, R149. -/
  | riprd
  /-- `RIPWR`, R150: `A` is the value. -/
  | ripwr (value : Word64)
  /-- `FLRD`, R151. -/
  | flrd
  /-- `FLWR`, R152: `A` is the value. -/
  | flwr (value : Word64)
  /-- `FLSET`, R153: `A` is the mask. -/
  | flset (mask : Word64)
  /-- `FLCLR`, R154: `A` is the mask. -/
  | flclr (mask : Word64)
  /-- `FLTST`, R155: `A` is the mask. -/
  | fltst (mask : Word64)
  -- `VRD` of `i8`, R174
  | vrdXmmI8x16 (v : RegIndex)
  | vrdYmmI8x32 (v : RegIndex)
  | vrdZmmI8x64 (v : RegIndex)
  -- `VRD` of `u8`, R175
  | vrdXmmU8x16 (v : RegIndex)
  | vrdYmmU8x32 (v : RegIndex)
  | vrdZmmU8x64 (v : RegIndex)
  -- `VRD` of `i16`, R176
  | vrdXmmI16x8 (v : RegIndex)
  | vrdYmmI16x16 (v : RegIndex)
  | vrdZmmI16x32 (v : RegIndex)
  -- `VRD` of `u16`, R177
  | vrdXmmU16x8 (v : RegIndex)
  | vrdYmmU16x16 (v : RegIndex)
  | vrdZmmU16x32 (v : RegIndex)
  -- `VRD` of `i32`, R178
  | vrdXmmI32x4 (v : RegIndex)
  | vrdYmmI32x8 (v : RegIndex)
  | vrdZmmI32x16 (v : RegIndex)
  -- `VRD` of `u32`, R179
  | vrdXmmU32x4 (v : RegIndex)
  | vrdYmmU32x8 (v : RegIndex)
  | vrdZmmU32x16 (v : RegIndex)
  -- `VRD` of `i64`, R180
  | vrdXmmI64x2 (v : RegIndex)
  | vrdYmmI64x4 (v : RegIndex)
  | vrdZmmI64x8 (v : RegIndex)
  -- `VRD` of `u64`, R181
  | vrdXmmU64x2 (v : RegIndex)
  | vrdYmmU64x4 (v : RegIndex)
  | vrdZmmU64x8 (v : RegIndex)
  -- `VRD` of `f32`, R182
  | vrdXmmF32x4 (v : RegIndex)
  | vrdYmmF32x8 (v : RegIndex)
  | vrdZmmF32x16 (v : RegIndex)
  -- `VRD` of `f64`, R183
  | vrdXmmF64x2 (v : RegIndex)
  | vrdYmmF64x4 (v : RegIndex)
  | vrdZmmF64x8 (v : RegIndex)
  -- `VWR` of `i8`, R184: `E` is the elements
  | vwrXmmI8x16 (v : RegIndex) (elems : List Int)
  | vwrYmmI8x32 (v : RegIndex) (elems : List Int)
  | vwrZmmI8x64 (v : RegIndex) (elems : List Int)
  -- `VWR` of `u8`, R185: `E` is the elements
  | vwrXmmU8x16 (v : RegIndex) (elems : List Int)
  | vwrYmmU8x32 (v : RegIndex) (elems : List Int)
  | vwrZmmU8x64 (v : RegIndex) (elems : List Int)
  -- `VWR` of `i16`, R186: `E` is the elements
  | vwrXmmI16x8 (v : RegIndex) (elems : List Int)
  | vwrYmmI16x16 (v : RegIndex) (elems : List Int)
  | vwrZmmI16x32 (v : RegIndex) (elems : List Int)
  -- `VWR` of `u16`, R187: `E` is the elements
  | vwrXmmU16x8 (v : RegIndex) (elems : List Int)
  | vwrYmmU16x16 (v : RegIndex) (elems : List Int)
  | vwrZmmU16x32 (v : RegIndex) (elems : List Int)
  -- `VWR` of `i32`, R188: `E` is the elements
  | vwrXmmI32x4 (v : RegIndex) (elems : List Int)
  | vwrYmmI32x8 (v : RegIndex) (elems : List Int)
  | vwrZmmI32x16 (v : RegIndex) (elems : List Int)
  -- `VWR` of `u32`, R189: `E` is the elements
  | vwrXmmU32x4 (v : RegIndex) (elems : List Int)
  | vwrYmmU32x8 (v : RegIndex) (elems : List Int)
  | vwrZmmU32x16 (v : RegIndex) (elems : List Int)
  -- `VWR` of `i64`, R190: `E` is the elements
  | vwrXmmI64x2 (v : RegIndex) (elems : List Int)
  | vwrYmmI64x4 (v : RegIndex) (elems : List Int)
  | vwrZmmI64x8 (v : RegIndex) (elems : List Int)
  -- `VWR` of `u64`, R191: `E` is the elements
  | vwrXmmU64x2 (v : RegIndex) (elems : List Int)
  | vwrYmmU64x4 (v : RegIndex) (elems : List Int)
  | vwrZmmU64x8 (v : RegIndex) (elems : List Int)
  -- `VWR` of `f32`, R192: `E` is the elements
  | vwrXmmF32x4 (v : RegIndex) (elems : List Int)
  | vwrYmmF32x8 (v : RegIndex) (elems : List Int)
  | vwrZmmF32x16 (v : RegIndex) (elems : List Int)
  -- `VWR` of `f64`, R193: `E` is the elements
  | vwrXmmF64x2 (v : RegIndex) (elems : List Int)
  | vwrYmmF64x4 (v : RegIndex) (elems : List Int)
  | vwrZmmF64x8 (v : RegIndex) (elems : List Int)
deriving DecidableEq, Repr

end Sys2Proof
end

