-- ==== Sys2Proof/Machine/State.lean ====
section
/-! DEFINITION. The state of the block as plain data (R20 to R37), the records it answers with (R88), and the state after reset. -/

namespace Sys2Proof.Machine

/-! ### DRAM (R27) -/

/-- A segment of the DRAM (R27). Its `data` is held by its length and by its bytes that are not zero, each with its absolute address:
`ALLOC` fills with zeros (R111), so a byte not listed reads 0. The canonical form is `Segment.wf`; `Segment.data` is the byte
sequence of R27. Log entry 6. -/
structure Segment where
  /-- The first address. -/
  start : Nat
  /-- `len(data)`. -/
  len : Nat
  /-- The bytes that are not zero, by strictly rising address. -/
  cells : List Host.Cell
deriving DecidableEq, Repr

/-- `SEGS`, the segment table in ascending order of `start` (R27). -/
abbrev Memory := List Segment

/-! ### The fatal state (R33) -/

/-- The sub-codes of a fatal defect. -/
inductive FatalSub where
  /-- 1: the containment assertion failed (R58; unreachable). -/
  | containment
  /-- 2: an access ran past the end of its segment (R56). -/
  | span
  /-- 3: an allocation does not fit in 64 bits (R111). -/
  | overflow
  /-- 4: an allocation would pass `BACKING_LIMIT` (R110). -/
  | capacity
deriving DecidableEq, Repr

/-- `FATAL`: clear, or set with the sub-code of the first fatal defect. -/
inductive FatalState where
  | clear
  | set (sub : FatalSub)
deriving DecidableEq, Repr

/-! ### Responses (R88) -/

/-- The status codes 0 to 7. Codes 8 to 255 are never returned. -/
inductive Status where
  | ok
  | outOfBounds
  | unaligned
  | addressNotMapped
  | addressAlreadyMapped
  | illegalCommand
  | unwritten
  | fatal
deriving DecidableEq, Repr

/-- `RES`, the result of a response. -/
inductive Result where
  /-- `NONE`. -/
  | none
  /-- `WORD(v, k)`: a `k`-bit value. -/
  | word (k : Nat) (v : BitVec k)
  /-- `BYTES(bs)`. -/
  | bytes (bs : List Byte)
  /-- `ELEMS(T, es)`. -/
  | elems (t : ElemType) (es : List Int)
deriving DecidableEq, Repr

/-- A response record: `ST`, `P0`, `P1` and `RES`. -/
structure Response where
  st : Status
  p0 : Word64
  p1 : Word64
  res : Result
deriving DecidableEq, Repr

/-! ### What the requester does (R246) -/

/-- One act of the requester: a reset with a configuration, or a request. -/
inductive Input where
  /-- Construct the block anew (R240). -/
  | reset (cfg : Config)
  /-- Issue a request (R80). -/
  | command (q : Request)
deriving DecidableEq, Repr

/-! ### The state -/

/-- The block (R20), its construction values (R30), and the two ends of its interface. -/
structure State where
  /-- `x[0]` to `x[15]` (R21). -/
  gpr : Vector Word64 16
  /-- `RIP` (R24). -/
  rip : Word64
  /-- `RFLAGS` (R25). -/
  rflags : Word64
  /-- `V[0]` to `V[15]` (R26). -/
  simd : Vector SimdReg 16
  /-- `SEGS` (R27). -/
  segs : Memory
  /-- `FATAL` (R33). -/
  fatal : FatalState
  /-- The validity bits of `x[i]`, bit `k` for byte `k` (R34); read and written only under `POISON`. -/
  gprValid : Vector (BitVec 8) 16
  /-- The validity bits of `RIP` (R34). -/
  ripValid : BitVec 8
  /-- The validity bits of `RFLAGS` (R34). -/
  rflagsValid : BitVec 8
  /-- The validity bits of `V[i]` (R34). -/
  simdValid : Vector (BitVec 64) 16
  /-- What the block was built with (R30); no command changes it. Log entry 1. -/
  cfg : Config
  /-- What the requester does next, first act first; each is taken after the response to the one before (R66, R245). Log
  entry 2. -/
  inputs : List Input
  /-- The responses given so far, in request order (R88, R247). Log entry 2. -/
  responses : List Response
deriving DecidableEq, Repr

/-- Why the block stops with a fault: never. Every failure is a response and the block goes on (R210, R219); after a fatal defect it
answers every request with `FATAL` (R216). Log entry 12. -/
inductive Fault where
deriving DecidableEq, Repr

/-- Why a step has no meaning. -/
inductive Refusal where
  /-- An instruction the model gives no meaning; no arm of `exec` uses it. Safe: nothing is said about such a step. -/
  | notModelled (mnemonic : String)
  /-- The requester has nothing more to issue, so the run has ended (R247). Raised by `step`. Safe: the model says nothing of what the
  block does between requests (log entry 3). -/
  | noRequest
  /-- A reset with an illegal configuration: there is no such block (R6, U13). Raised by a reset input. Safe. -/
  | illegalConfiguration
deriving DecidableEq, Repr

/-- Reset is construction (R240): the state of R37, for any configuration and under either `REG_RESET`. The stored value of a
register that `POISON` leaves unwritten is 0 (log entry 5). -/
def State.construct (cfg : Config) : State where
  gpr := Vector.replicate 16 0
  rip := 0
  rflags := 0
  simd := Vector.replicate 16 (Vector.replicate 64 0)
  segs := []
  fatal := .clear
  gprValid := Vector.replicate 16 0
  ripValid := 0
  rflagsValid := 0
  simdValid := Vector.replicate 16 0
  cfg := cfg
  inputs := []
  responses := []

/-- The block right after reset with the configuration of log entry 1. -/
def State.reset : State := State.construct Config.conventional

end Sys2Proof.Machine
end

