-- ==== Sys2Proof/Machine/Flags.lean ====
section
/-! DEFINITION. `RFLAGS`: the named constants of R25 and the set, clear and test computations of R153 to R155. No command writes
`RFLAGS` as a side effect, and no flag has a behaviour (R25). -/

namespace Sys2Proof.Machine

/-- The flag constants of R25, by their source names. -/
inductive Flag where
  | carry | parity | adjust | zero | sign | trap | interruptEnable | direction | overflow | ioPrivilegeLevel | nestedTask | resume
  | virtual8086 | alignmentCheck | virtualInterrupt | virtualInterruptPending | cpuidPresent | aesNi | alternateInstructionSet
deriving DecidableEq, Repr

/-- The mask of a flag (R25). The positions are the x86 layout, which the spec gives as general knowledge: log entry 11. -/
def Flag.mask : Flag → Word64
  | .carry => 0x1
  | .parity => 0x4
  | .adjust => 0x10
  | .zero => 0x40
  | .sign => 0x80
  | .trap => 0x100
  | .interruptEnable => 0x200
  | .direction => 0x400
  | .overflow => 0x800
  | .ioPrivilegeLevel => 0x3000
  | .nestedTask => 0x4000
  | .resume => 0x10000
  | .virtual8086 => 0x20000
  | .alignmentCheck => 0x40000
  | .virtualInterrupt => 0x80000
  | .virtualInterruptPending => 0x100000
  | .cpuidPresent => 0x200000
  | .aesNi => 0x40000000
  | .alternateInstructionSet => 0x80000000

/-- R153: the bits of the mask become 1. -/
def flagsSet (flags mask : Word64) : Word64 := flags ||| mask

/-- R154: `RFLAGS AND (2^64 - 1 - A)`. -/
def flagsClear (flags mask : Word64) : Word64 := flags &&& ~~~mask

/-- R155: 1 when every bit of the mask is set, 0 otherwise. -/
def flagsTest (flags mask : Word64) : BitVec 1 := if flags &&& mask = mask then 1 else 0

end Sys2Proof.Machine
end

