-- ==== Sys2Proof/Machine/Elements.lean ====
section
/-! DEFINITION. SIMD views and element types: sizes, codes, domains, and the element codec (R10, R11, R14, R84, R85, R90, R170). -/

namespace Sys2Proof

/-! ### Views and element types -/

/-- `VB`, the size of a view in bytes (R5, R171). -/
def View.bytes : View → Nat
  | .xmm => 16
  | .ymm => 32
  | .zmm => 64

/-- The view code `VW` (R84). -/
def View.code : View → Nat
  | .xmm => 0
  | .ymm => 1
  | .zmm => 2

/-- `w(T)`, the width of an element in bytes (R14). -/
def ElemType.width : ElemType → Nat
  | .i8 => 1
  | .u8 => 1
  | .i16 => 2
  | .u16 => 2
  | .i32 => 4
  | .u32 => 4
  | .i64 => 8
  | .u64 => 8
  | .f32 => 4
  | .f64 => 8

/-- The element type code `ET` (R14, R84). -/
def ElemType.code : ElemType → Nat
  | .i8 => 0
  | .u8 => 1
  | .i16 => 2
  | .u16 => 3
  | .i32 => 4
  | .u32 => 5
  | .i64 => 6
  | .u64 => 7
  | .f32 => 8
  | .f64 => 9

/-- Whether the type is one of the signed integer types (R14). -/
def ElemType.signed : ElemType → Bool
  | .i8 => true
  | .u8 => false
  | .i16 => true
  | .u16 => false
  | .i32 => true
  | .u32 => false
  | .i64 => true
  | .u64 => false
  | .f32 => false
  | .f64 => false

/-- `n = VB / w(T)`, the element count of a view and a type (R85, R195). -/
def elemCount (vw : View) (t : ElemType) : Nat := vw.bytes / t.width

/-- The value domain of a type (R14). A float's element is its bit pattern. -/
def ElemType.inDomain (t : ElemType) (e : Int) : Bool :=
  if t.signed then
    decide (-(2 ^ (8 * t.width - 1)) ≤ e) && decide (e < 2 ^ (8 * t.width - 1))
  else
    decide (0 ≤ e) && decide (e < 2 ^ (8 * t.width))

/-- R90: `E` holds exactly `n` elements, each in the domain of the type. -/
def elementsFit (vw : View) (t : ElemType) (es : List Int) : Bool :=
  es.length == elemCount vw t && es.all t.inDomain

/-! ### Little-endian bytes (R11) -/

/-- `le_decode(bs)`: the sum of `bs[j] * 2^(8j)`. -/
def leDecode : List Byte → Nat
  | [] => 0
  | b :: bs => b.toNat + 256 * leDecode bs

/-- `le_encode_k(v)`: the `k` bytes `(v div 2^(8j)) mod 256`. -/
def leEncode : Nat → Nat → List Byte
  | 0, _ => []
  | k + 1, v => BitVec.ofNat 8 (v % 256) :: leEncode k (v / 256)

/-- `signed_M(v)`: the two's-complement value of an `M`-bit pattern (R10). -/
def signedOf (m raw : Nat) : Int :=
  if raw < 2 ^ (m - 1) then raw else (raw : Int) - 2 ^ m

/-! ### The element codec (R170, R172) -/

/-- `elem_decode(T, bs)`: two's complement for a signed type, the number itself for an unsigned type, and the bit pattern for a
float. -/
def elemDecode (t : ElemType) (bs : List Byte) : Int :=
  if t.signed then signedOf (8 * t.width) (leDecode bs) else leDecode bs

/-- The raw bits of an element: `e mod 2^(8w)` for a signed type, the value itself otherwise. -/
def elemBits (t : ElemType) (e : Int) : Nat :=
  if t.signed then (e % 2 ^ (8 * t.width)).toNat else e.toNat

/-- `elem_encode(T, e)`, little-endian over all `w` bytes. -/
def elemEncode (t : ElemType) (e : Int) : List Byte := leEncode t.width (elemBits t e)

/-- The byte image of a sequence of elements (R90): element 0 is at the lowest bytes (R170). -/
def elemsImage (t : ElemType) (es : List Int) : List Byte := es.flatMap (elemEncode t)

/-- The `n` elements of a byte sequence: element `k` from bytes `k*w` to `k*w + w - 1` (R170). -/
def elemsOfImage (t : ElemType) (n : Nat) (bs : List Byte) : List Int :=
  (List.range n).map fun k => elemDecode t ((bs.drop (k * t.width)).take t.width)

end Sys2Proof
end

