-- ==== Sys2Proof/WellFormed.lean ====
section
/-! DEFINITION. Well-formed commands: the operand of a `VWR` holds exactly `n` elements, each in its type's domain (R90). Every
other command is well formed whatever its operands (R89). -/

namespace Sys2Proof

/-- R90: an instruction whose operands the block accepts. -/
def Instr.wf : Instr → Bool
  | .alloc _ _ => true
  | .rdb _ => true
  | .rdbs _ _ => true
  | .wrb _ _ => true
  | .wrbs _ _ => true
  | .dname => true
  | .dstart => true
  | .dend => true
  | .grd8 _ => true
  | .grd16 _ => true
  | .grd32 _ => true
  | .grd64 _ => true
  | .gwr8 _ _ => true
  | .gwr16 _ _ => true
  | .gwr32 _ _ => true
  | .gwr64 _ _ => true
  | .riprd => true
  | .ripwr _ => true
  | .flrd => true
  | .flwr _ => true
  | .flset _ => true
  | .flclr _ => true
  | .fltst _ => true
  | .vrdXmmI8x16 _ => true
  | .vrdYmmI8x32 _ => true
  | .vrdZmmI8x64 _ => true
  | .vrdXmmU8x16 _ => true
  | .vrdYmmU8x32 _ => true
  | .vrdZmmU8x64 _ => true
  | .vrdXmmI16x8 _ => true
  | .vrdYmmI16x16 _ => true
  | .vrdZmmI16x32 _ => true
  | .vrdXmmU16x8 _ => true
  | .vrdYmmU16x16 _ => true
  | .vrdZmmU16x32 _ => true
  | .vrdXmmI32x4 _ => true
  | .vrdYmmI32x8 _ => true
  | .vrdZmmI32x16 _ => true
  | .vrdXmmU32x4 _ => true
  | .vrdYmmU32x8 _ => true
  | .vrdZmmU32x16 _ => true
  | .vrdXmmI64x2 _ => true
  | .vrdYmmI64x4 _ => true
  | .vrdZmmI64x8 _ => true
  | .vrdXmmU64x2 _ => true
  | .vrdYmmU64x4 _ => true
  | .vrdZmmU64x8 _ => true
  | .vrdXmmF32x4 _ => true
  | .vrdYmmF32x8 _ => true
  | .vrdZmmF32x16 _ => true
  | .vrdXmmF64x2 _ => true
  | .vrdYmmF64x4 _ => true
  | .vrdZmmF64x8 _ => true
  | .vwrXmmI8x16 _ es => elementsFit .xmm .i8 es
  | .vwrYmmI8x32 _ es => elementsFit .ymm .i8 es
  | .vwrZmmI8x64 _ es => elementsFit .zmm .i8 es
  | .vwrXmmU8x16 _ es => elementsFit .xmm .u8 es
  | .vwrYmmU8x32 _ es => elementsFit .ymm .u8 es
  | .vwrZmmU8x64 _ es => elementsFit .zmm .u8 es
  | .vwrXmmI16x8 _ es => elementsFit .xmm .i16 es
  | .vwrYmmI16x16 _ es => elementsFit .ymm .i16 es
  | .vwrZmmI16x32 _ es => elementsFit .zmm .i16 es
  | .vwrXmmU16x8 _ es => elementsFit .xmm .u16 es
  | .vwrYmmU16x16 _ es => elementsFit .ymm .u16 es
  | .vwrZmmU16x32 _ es => elementsFit .zmm .u16 es
  | .vwrXmmI32x4 _ es => elementsFit .xmm .i32 es
  | .vwrYmmI32x8 _ es => elementsFit .ymm .i32 es
  | .vwrZmmI32x16 _ es => elementsFit .zmm .i32 es
  | .vwrXmmU32x4 _ es => elementsFit .xmm .u32 es
  | .vwrYmmU32x8 _ es => elementsFit .ymm .u32 es
  | .vwrZmmU32x16 _ es => elementsFit .zmm .u32 es
  | .vwrXmmI64x2 _ es => elementsFit .xmm .i64 es
  | .vwrYmmI64x4 _ es => elementsFit .ymm .i64 es
  | .vwrZmmI64x8 _ es => elementsFit .zmm .i64 es
  | .vwrXmmU64x2 _ es => elementsFit .xmm .u64 es
  | .vwrYmmU64x4 _ es => elementsFit .ymm .u64 es
  | .vwrZmmU64x8 _ es => elementsFit .zmm .u64 es
  | .vwrXmmF32x4 _ es => elementsFit .xmm .f32 es
  | .vwrYmmF32x8 _ es => elementsFit .ymm .f32 es
  | .vwrZmmF32x16 _ es => elementsFit .zmm .f32 es
  | .vwrXmmF64x2 _ es => elementsFit .xmm .f64 es
  | .vwrYmmF64x4 _ es => elementsFit .ymm .f64 es
  | .vwrZmmF64x8 _ es => elementsFit .zmm .f64 es

end Sys2Proof
end

