-- ==== Sys2Proof/Decode.lean ====
section
/-! DEFINITION. Decoding a request into a command and encoding a command as a request (R81 to R91). Decoding is total: a word that
is no command is rejected by the name of the clause of R87 it breaks. -/

namespace Sys2Proof

/-- Why a command word is illegal: the clauses of R87. Each is answered with `ILLEGAL_COMMAND`. -/
inductive DecodeError where
  /-- R87 (a): `OPC` is not in the map of R86. -/
  | reservedOpcode
  /-- R87 (b): a reserved bit of the format is 1. -/
  | reservedBit
  /-- R87 (c): format V with `VW = 3`. -/
  | reservedView
  /-- R87 (d): format V with `ET >= 10`. -/
  | reservedElemType
deriving DecidableEq, Repr

/-! ### Fields of a command word (R81 to R84) -/

/-- `OPC = CMD[31:24]`. -/
def opcField (w : CmdWord) : Nat := w.toNat / 2 ^ 24

/-- `CMD[23:0]`, reserved in format N. -/
def lowField (w : CmdWord) : Nat := w.toNat % 2 ^ 24

/-- `CMD[3:0]`, the register index of formats G and V. -/
def regField (w : CmdWord) : RegIndex := ⟨w.toNat % 16, Nat.mod_lt _ (by decide)⟩

/-- `CMD[23:4]`, reserved in format G. -/
def reservedG (w : CmdWord) : Nat := lowField w / 2 ^ 4

/-- `CMD[5:4]`, the view code of format V. -/
def viewField (w : CmdWord) : Nat := lowField w / 2 ^ 4 % 2 ^ 2

/-- `CMD[9:6]`, the element type code of format V. -/
def elemTypeField (w : CmdWord) : Nat := lowField w / 2 ^ 6 % 2 ^ 4

/-- `CMD[23:10]`, reserved in format V. -/
def reservedV (w : CmdWord) : Nat := lowField w / 2 ^ 10

/-- A view code (R84); 3 is reserved. -/
def viewOfCode : Nat → Option View
  | 0 => some .xmm
  | 1 => some .ymm
  | 2 => some .zmm
  | _ => none

/-- An element type code (R14, R84); 10 to 15 are reserved. -/
def elemTypeOfCode : Nat → Option ElemType
  | 0 => some .i8
  | 1 => some .u8
  | 2 => some .i16
  | 3 => some .u16
  | 4 => some .i32
  | 5 => some .u32
  | 6 => some .i64
  | 7 => some .u64
  | 8 => some .f32
  | 9 => some .f64
  | _ => none

/-! ### The three formats -/

/-- Format N (R82): bits 23 to 0 are 0. -/
def decodeN (w : CmdWord) (i : Instr) : Except DecodeError Instr :=
  if lowField w = 0 then .ok i else .error .reservedBit

/-- Format G (R83): bits 23 to 4 are 0. -/
def decodeG (w : CmdWord) (f : RegIndex → Instr) : Except DecodeError Instr :=
  if reservedG w = 0 then .ok (f (regField w)) else .error .reservedBit

/-- Format V (R84): bits 23 to 10 are 0, and the view and type codes are not reserved. -/
def decodeV (w : CmdWord) (f : View → ElemType → RegIndex → Instr) : Except DecodeError Instr :=
  if reservedV w = 0 then
    match viewOfCode (viewField w) with
    | none => .error .reservedView
    | some vw =>
      match elemTypeOfCode (elemTypeField w) with
      | none => .error .reservedElemType
      | some t => .ok (f vw t (regField w))
  else .error .reservedBit

/-- The `VRD` row of a view and an element type (R86). -/
def vrdInstr (v : RegIndex) : View → ElemType → Instr
  | .xmm, .i8 => .vrdXmmI8x16 v
  | .ymm, .i8 => .vrdYmmI8x32 v
  | .zmm, .i8 => .vrdZmmI8x64 v
  | .xmm, .u8 => .vrdXmmU8x16 v
  | .ymm, .u8 => .vrdYmmU8x32 v
  | .zmm, .u8 => .vrdZmmU8x64 v
  | .xmm, .i16 => .vrdXmmI16x8 v
  | .ymm, .i16 => .vrdYmmI16x16 v
  | .zmm, .i16 => .vrdZmmI16x32 v
  | .xmm, .u16 => .vrdXmmU16x8 v
  | .ymm, .u16 => .vrdYmmU16x16 v
  | .zmm, .u16 => .vrdZmmU16x32 v
  | .xmm, .i32 => .vrdXmmI32x4 v
  | .ymm, .i32 => .vrdYmmI32x8 v
  | .zmm, .i32 => .vrdZmmI32x16 v
  | .xmm, .u32 => .vrdXmmU32x4 v
  | .ymm, .u32 => .vrdYmmU32x8 v
  | .zmm, .u32 => .vrdZmmU32x16 v
  | .xmm, .i64 => .vrdXmmI64x2 v
  | .ymm, .i64 => .vrdYmmI64x4 v
  | .zmm, .i64 => .vrdZmmI64x8 v
  | .xmm, .u64 => .vrdXmmU64x2 v
  | .ymm, .u64 => .vrdYmmU64x4 v
  | .zmm, .u64 => .vrdZmmU64x8 v
  | .xmm, .f32 => .vrdXmmF32x4 v
  | .ymm, .f32 => .vrdYmmF32x8 v
  | .zmm, .f32 => .vrdZmmF32x16 v
  | .xmm, .f64 => .vrdXmmF64x2 v
  | .ymm, .f64 => .vrdYmmF64x4 v
  | .zmm, .f64 => .vrdZmmF64x8 v

/-- The `VWR` row of a view and an element type (R86). -/
def vwrInstr (v : RegIndex) (es : List Int) : View → ElemType → Instr
  | .xmm, .i8 => .vwrXmmI8x16 v es
  | .ymm, .i8 => .vwrYmmI8x32 v es
  | .zmm, .i8 => .vwrZmmI8x64 v es
  | .xmm, .u8 => .vwrXmmU8x16 v es
  | .ymm, .u8 => .vwrYmmU8x32 v es
  | .zmm, .u8 => .vwrZmmU8x64 v es
  | .xmm, .i16 => .vwrXmmI16x8 v es
  | .ymm, .i16 => .vwrYmmI16x16 v es
  | .zmm, .i16 => .vwrZmmI16x32 v es
  | .xmm, .u16 => .vwrXmmU16x8 v es
  | .ymm, .u16 => .vwrYmmU16x16 v es
  | .zmm, .u16 => .vwrZmmU16x32 v es
  | .xmm, .i32 => .vwrXmmI32x4 v es
  | .ymm, .i32 => .vwrYmmI32x8 v es
  | .zmm, .i32 => .vwrZmmI32x16 v es
  | .xmm, .u32 => .vwrXmmU32x4 v es
  | .ymm, .u32 => .vwrYmmU32x8 v es
  | .zmm, .u32 => .vwrZmmU32x16 v es
  | .xmm, .i64 => .vwrXmmI64x2 v es
  | .ymm, .i64 => .vwrYmmI64x4 v es
  | .zmm, .i64 => .vwrZmmI64x8 v es
  | .xmm, .u64 => .vwrXmmU64x2 v es
  | .ymm, .u64 => .vwrYmmU64x4 v es
  | .zmm, .u64 => .vwrZmmU64x8 v es
  | .xmm, .f32 => .vwrXmmF32x4 v es
  | .ymm, .f32 => .vwrYmmF32x8 v es
  | .zmm, .f32 => .vwrZmmF32x16 v es
  | .xmm, .f64 => .vwrXmmF64x2 v es
  | .ymm, .f64 => .vwrYmmF64x4 v es
  | .zmm, .f64 => .vwrZmmF64x8 v es

/-- The opcode map (R86) and the illegal-word rule (R87): the command a request asks for, with the operands that command reads
(R89). The operands a command does not read are ignored. -/
def decode (q : Request) : Except DecodeError Instr :=
  match opcField q.cmd with
  | 0x01 => decodeN q.cmd (.alloc q.a q.b)
  | 0x02 => decodeN q.cmd (.rdb q.a)
  | 0x03 => decodeN q.cmd (.rdbs q.a q.b)
  | 0x04 => decodeN q.cmd (.wrb q.a q.b)
  | 0x05 => decodeN q.cmd (.wrbs q.a q.d)
  | 0x06 => decodeN q.cmd .dname
  | 0x07 => decodeN q.cmd .dstart
  | 0x08 => decodeN q.cmd .dend
  | 0x10 => decodeG q.cmd fun r => .grd8 r
  | 0x11 => decodeG q.cmd fun r => .grd16 r
  | 0x12 => decodeG q.cmd fun r => .grd32 r
  | 0x13 => decodeG q.cmd fun r => .grd64 r
  | 0x14 => decodeG q.cmd fun r => .gwr8 r q.a
  | 0x15 => decodeG q.cmd fun r => .gwr16 r q.a
  | 0x16 => decodeG q.cmd fun r => .gwr32 r q.a
  | 0x17 => decodeG q.cmd fun r => .gwr64 r q.a
  | 0x18 => decodeN q.cmd .riprd
  | 0x19 => decodeN q.cmd (.ripwr q.a)
  | 0x1A => decodeN q.cmd .flrd
  | 0x1B => decodeN q.cmd (.flwr q.a)
  | 0x1C => decodeN q.cmd (.flset q.a)
  | 0x1D => decodeN q.cmd (.flclr q.a)
  | 0x1E => decodeN q.cmd (.fltst q.a)
  | 0x20 => decodeV q.cmd fun vw t v => vrdInstr v vw t
  | 0x21 => decodeV q.cmd fun vw t v => vwrInstr v q.e vw t
  | _ => .error .reservedOpcode

/-! ### Encoding (R82 to R84, R93) -/

/-- A format N word: `OPC` and zeros. -/
def wordN (opc : Nat) : CmdWord := BitVec.ofNat 32 (opc * 2 ^ 24)

/-- A format G word: `OPC` and the register index. -/
def wordG (opc : Nat) (r : RegIndex) : CmdWord := BitVec.ofNat 32 (opc * 2 ^ 24 + r.val)

/-- A format V word: `OPC * 2^24 + ET * 64 + VW * 16 + V` (R93). -/
def wordV (opc : Nat) (t : ElemType) (vw : View) (v : RegIndex) : CmdWord :=
  BitVec.ofNat 32 (opc * 2 ^ 24 + t.code * 64 + vw.code * 16 + v.val)

/-- A request with a word and its 64-bit operands; `D` and `E` are empty. -/
def plainRequest (w : CmdWord) (a b : Word64) : Request := { cmd := w, a := a, b := b, d := [], e := [] }

/-- A `VWR` request. -/
def vwrRequest (t : ElemType) (vw : View) (v : RegIndex) (es : List Int) : Request :=
  { cmd := wordV 0x21 t vw v, a := 0, b := 0, d := [], e := es }

/-- The request that asks for a command (R86, R93); an operand the command does not read is 0 or empty. -/
def encode : Instr → Request
  | .alloc hint size => plainRequest (wordN 0x01) hint size
  | .rdb addr => plainRequest (wordN 0x02) addr 0
  | .rdbs addr size => plainRequest (wordN 0x03) addr size
  | .wrb addr value => plainRequest (wordN 0x04) addr value
  | .wrbs addr data => { cmd := wordN 0x05, a := addr, b := 0, d := data, e := [] }
  | .dname => plainRequest (wordN 0x06) 0 0
  | .dstart => plainRequest (wordN 0x07) 0 0
  | .dend => plainRequest (wordN 0x08) 0 0
  | .grd8 r => plainRequest (wordG 0x10 r) 0 0
  | .grd16 r => plainRequest (wordG 0x11 r) 0 0
  | .grd32 r => plainRequest (wordG 0x12 r) 0 0
  | .grd64 r => plainRequest (wordG 0x13 r) 0 0
  | .gwr8 r value => plainRequest (wordG 0x14 r) value 0
  | .gwr16 r value => plainRequest (wordG 0x15 r) value 0
  | .gwr32 r value => plainRequest (wordG 0x16 r) value 0
  | .gwr64 r value => plainRequest (wordG 0x17 r) value 0
  | .riprd => plainRequest (wordN 0x18) 0 0
  | .ripwr value => plainRequest (wordN 0x19) value 0
  | .flrd => plainRequest (wordN 0x1A) 0 0
  | .flwr value => plainRequest (wordN 0x1B) value 0
  | .flset mask => plainRequest (wordN 0x1C) mask 0
  | .flclr mask => plainRequest (wordN 0x1D) mask 0
  | .fltst mask => plainRequest (wordN 0x1E) mask 0
  | .vrdXmmI8x16 v => plainRequest (wordV 0x20 .i8 .xmm v) 0 0
  | .vrdYmmI8x32 v => plainRequest (wordV 0x20 .i8 .ymm v) 0 0
  | .vrdZmmI8x64 v => plainRequest (wordV 0x20 .i8 .zmm v) 0 0
  | .vrdXmmU8x16 v => plainRequest (wordV 0x20 .u8 .xmm v) 0 0
  | .vrdYmmU8x32 v => plainRequest (wordV 0x20 .u8 .ymm v) 0 0
  | .vrdZmmU8x64 v => plainRequest (wordV 0x20 .u8 .zmm v) 0 0
  | .vrdXmmI16x8 v => plainRequest (wordV 0x20 .i16 .xmm v) 0 0
  | .vrdYmmI16x16 v => plainRequest (wordV 0x20 .i16 .ymm v) 0 0
  | .vrdZmmI16x32 v => plainRequest (wordV 0x20 .i16 .zmm v) 0 0
  | .vrdXmmU16x8 v => plainRequest (wordV 0x20 .u16 .xmm v) 0 0
  | .vrdYmmU16x16 v => plainRequest (wordV 0x20 .u16 .ymm v) 0 0
  | .vrdZmmU16x32 v => plainRequest (wordV 0x20 .u16 .zmm v) 0 0
  | .vrdXmmI32x4 v => plainRequest (wordV 0x20 .i32 .xmm v) 0 0
  | .vrdYmmI32x8 v => plainRequest (wordV 0x20 .i32 .ymm v) 0 0
  | .vrdZmmI32x16 v => plainRequest (wordV 0x20 .i32 .zmm v) 0 0
  | .vrdXmmU32x4 v => plainRequest (wordV 0x20 .u32 .xmm v) 0 0
  | .vrdYmmU32x8 v => plainRequest (wordV 0x20 .u32 .ymm v) 0 0
  | .vrdZmmU32x16 v => plainRequest (wordV 0x20 .u32 .zmm v) 0 0
  | .vrdXmmI64x2 v => plainRequest (wordV 0x20 .i64 .xmm v) 0 0
  | .vrdYmmI64x4 v => plainRequest (wordV 0x20 .i64 .ymm v) 0 0
  | .vrdZmmI64x8 v => plainRequest (wordV 0x20 .i64 .zmm v) 0 0
  | .vrdXmmU64x2 v => plainRequest (wordV 0x20 .u64 .xmm v) 0 0
  | .vrdYmmU64x4 v => plainRequest (wordV 0x20 .u64 .ymm v) 0 0
  | .vrdZmmU64x8 v => plainRequest (wordV 0x20 .u64 .zmm v) 0 0
  | .vrdXmmF32x4 v => plainRequest (wordV 0x20 .f32 .xmm v) 0 0
  | .vrdYmmF32x8 v => plainRequest (wordV 0x20 .f32 .ymm v) 0 0
  | .vrdZmmF32x16 v => plainRequest (wordV 0x20 .f32 .zmm v) 0 0
  | .vrdXmmF64x2 v => plainRequest (wordV 0x20 .f64 .xmm v) 0 0
  | .vrdYmmF64x4 v => plainRequest (wordV 0x20 .f64 .ymm v) 0 0
  | .vrdZmmF64x8 v => plainRequest (wordV 0x20 .f64 .zmm v) 0 0
  | .vwrXmmI8x16 v es => vwrRequest .i8 .xmm v es
  | .vwrYmmI8x32 v es => vwrRequest .i8 .ymm v es
  | .vwrZmmI8x64 v es => vwrRequest .i8 .zmm v es
  | .vwrXmmU8x16 v es => vwrRequest .u8 .xmm v es
  | .vwrYmmU8x32 v es => vwrRequest .u8 .ymm v es
  | .vwrZmmU8x64 v es => vwrRequest .u8 .zmm v es
  | .vwrXmmI16x8 v es => vwrRequest .i16 .xmm v es
  | .vwrYmmI16x16 v es => vwrRequest .i16 .ymm v es
  | .vwrZmmI16x32 v es => vwrRequest .i16 .zmm v es
  | .vwrXmmU16x8 v es => vwrRequest .u16 .xmm v es
  | .vwrYmmU16x16 v es => vwrRequest .u16 .ymm v es
  | .vwrZmmU16x32 v es => vwrRequest .u16 .zmm v es
  | .vwrXmmI32x4 v es => vwrRequest .i32 .xmm v es
  | .vwrYmmI32x8 v es => vwrRequest .i32 .ymm v es
  | .vwrZmmI32x16 v es => vwrRequest .i32 .zmm v es
  | .vwrXmmU32x4 v es => vwrRequest .u32 .xmm v es
  | .vwrYmmU32x8 v es => vwrRequest .u32 .ymm v es
  | .vwrZmmU32x16 v es => vwrRequest .u32 .zmm v es
  | .vwrXmmI64x2 v es => vwrRequest .i64 .xmm v es
  | .vwrYmmI64x4 v es => vwrRequest .i64 .ymm v es
  | .vwrZmmI64x8 v es => vwrRequest .i64 .zmm v es
  | .vwrXmmU64x2 v es => vwrRequest .u64 .xmm v es
  | .vwrYmmU64x4 v es => vwrRequest .u64 .ymm v es
  | .vwrZmmU64x8 v es => vwrRequest .u64 .zmm v es
  | .vwrXmmF32x4 v es => vwrRequest .f32 .xmm v es
  | .vwrYmmF32x8 v es => vwrRequest .f32 .ymm v es
  | .vwrZmmF32x16 v es => vwrRequest .f32 .zmm v es
  | .vwrXmmF64x2 v es => vwrRequest .f64 .xmm v es
  | .vwrYmmF64x4 v es => vwrRequest .f64 .ymm v es
  | .vwrZmmF64x8 v es => vwrRequest .f64 .zmm v es

/-- `zext_64(CMD)` of a command: the payload of `ILLEGAL_COMMAND` and `UNWRITTEN` (R88). -/
def cmdPayload (w : CmdWord) : Word64 := w.setWidth 64

/-! ### A bare word with operands of zeros -/

/-- The number of elements a `VWR` word asks for (R85), 0 for any other word. -/
def operandCount (w : CmdWord) : Nat :=
  if opcField w = 0x21 then
    match viewOfCode (viewField w), elemTypeOfCode (elemTypeField w) with
    | some vw, some t => elemCount vw t
    | _, _ => 0
  else 0

/-- The request with a command word and every operand bit 0: `A = B = 0`, `D` empty, and for a `VWR` the byte image of `E` all zeros,
which is `n` elements of value 0 (R90); log entry 8. -/
def requestOfWord (w : CmdWord) : Request :=
  { cmd := w, a := 0, b := 0, d := [], e := List.replicate (operandCount w) 0 }

/-- The command the decoder reads from the table's bits of a row, every operand bit 0; none where it refuses the word. -/
def decodeTableWord (nbits w : Nat) : Option Instr :=
  if nbits ≤ 32 ∧ w < 2 ^ nbits then (decode (requestOfWord (BitVec.ofNat 32 w))).toOption else none

end Sys2Proof
end

