-- ==== Sys2Proof/Machine/Ops.lean ====
section
/-! DEFINITION. The shared operations: the integer primitives and the construction values they give (R6, R10), responding and raising
(R13, R211, R216, R217), the segments and the access path of the DRAM (R50 to R60), and the allocator (R110, R111). -/

namespace Sys2Proof

/-! ### Integer primitives (R10) -/

/-- `pow2ceil(x)`: the least power of two not below `x`, with `pow2ceil(0) = 1`. -/
def pow2ceil (x : Nat) : Nat := if x ≤ 1 then 1 else 2 ^ (Nat.log2 (x - 1) + 1)

/-- `rounddown(a, m) = a - (a mod m)`. -/
def rounddown (a m : Nat) : Nat := a - a % m

/-- `BLOCK`, the allocation granularity (R5). -/
def blockSize : Nat := 4096

/-- `DRAM_SIZE = pow2ceil(REQ_SIZE)` (R6, R30). -/
def Config.dramSize (c : Config) : Nat := pow2ceil c.reqSize.toNat

/-- `BASE + DRAM_SIZE`, the exclusive end of the window (R31, R50). -/
def Config.windowEnd (c : Config) : Nat := c.base.toNat + c.dramSize

/-- A legal configuration (R6). -/
def Config.legal (c : Config) : Bool := decide (1 ≤ c.align) && decide (c.windowEnd < 2 ^ 64)

/-- `a` is in the DRAM window (R50). -/
def Config.inWindow (c : Config) (a : Nat) : Bool := decide (c.base.toNat ≤ a) && decide (a < c.windowEnd)

namespace Machine

/-- What a step answers. -/
abbrev Out := Host.Outcome State Fault Refusal

/-! ### Responding and raising (R13, R88) -/

/-- The code of a status (R88). -/
def Status.code : Status → BitVec 8
  | .ok => 0
  | .outOfBounds => 1
  | .unaligned => 2
  | .addressNotMapped => 3
  | .addressAlreadyMapped => 4
  | .illegalCommand => 5
  | .unwritten => 6
  | .fatal => 7

/-- The sub-code of a fatal defect (R33, R88). -/
def FatalSub.code : FatalSub → Word64
  | .containment => 1
  | .span => 2
  | .overflow => 3
  | .capacity => 4

/-- `OK` with a result: `P0 = P1 = 0` (R88). -/
def Response.okWith (res : Result) : Response := { st := .ok, p0 := 0, p1 := 0, res := res }

/-- A failure: `RES` is `NONE`, and a payload field the status does not name is 0 (R88). -/
def Response.failure (st : Status) (p0 p1 : Word64) : Response := { st := st, p0 := p0, p1 := p1, res := .none }

/-- `ST = FATAL` with its sub-code in `P0` (R88, R216). -/
def Response.fatal (sub : FatalSub) : Response := Response.failure .fatal sub.code 0

/-- Give one response (R88). -/
def State.respond (s : State) (r : Response) : State := { s with responses := s.responses ++ [r] }

/-- Why a command fails: a recoverable status with its payloads, or a fatal defect (R212). -/
inductive Failure where
  | status (st : Status) (p0 p1 : Word64)
  | fatal (sub : FatalSub)
deriving DecidableEq, Repr

/-- `respond OK(result)` (R13): the command succeeded, and `s` holds its writes. -/
def State.succeed (s : State) (res : Result) : Out := .next (s.respond (Response.okWith res))

/-- `raise <Status>(payload)` and `raise FATAL(sub)` (R13): nothing changes but the response, and for a fatal defect the sticky state
(R216). The block does not trap, saves nothing and jumps nowhere (R210, R219). -/
def State.fail (s : State) : Failure → Out
  | .status st p0 p1 => .next (s.respond (Response.failure st p0 p1))
  | .fatal sub => .next ({ s with fatal := .set sub }.respond (Response.fatal sub))

/-- The first step of the prologue (R211): while `FATAL` is set, the command answers `FATAL` with the stored sub-code and changes
nothing (R216). Every meaning starts with it, and so does the answer to an illegal word; log entry 9. -/
def State.prologue (s : State) (run : Out) : Out :=
  match s.fatal with
  | .clear => run
  | .set sub => .next (s.respond (Response.fatal sub))

/-- `raise ILLEGAL_COMMAND(CMD)` (R87, R90, R211). -/
def illegalCommand (w : CmdWord) (s : State) : Out :=
  s.prologue (s.fail (.status .illegalCommand (cmdPayload w) 0))

/-! ### The bytes of a segment -/

/-- The byte listed at an address, or 0. -/
def readCell : List Host.Cell → Nat → Byte
  | [], _ => 0
  | c :: cs, a => if c.1 = a then c.2 else readCell cs a

/-- Put a byte at an address, keeping the canonical form: addresses rise, and a zero byte is not listed. -/
def writeCell : List Host.Cell → Nat → Byte → List Host.Cell
  | [], a, b => if b = 0 then [] else [(a, b)]
  | c :: cs, a, b =>
    if c.1 < a then c :: writeCell cs a b
    else if c.1 = a then (if b = 0 then cs else (a, b) :: cs)
    else if b = 0 then c :: cs else (a, b) :: c :: cs

/-- Put a byte sequence at consecutive addresses, first byte lowest (R60). -/
def writeCells : List Host.Cell → Nat → List Byte → List Host.Cell
  | cells, _, [] => cells
  | cells, a, b :: bs => writeCells (writeCell cells a b) (a + 1) bs

/-- `S.end = S.start + len(S.data)` (R27). -/
def Segment.stop (S : Segment) : Nat := S.start + S.len

/-- `S.start <= a < S.end` (R27). -/
def Segment.contains (S : Segment) (a : Nat) : Bool := decide (S.start ≤ a) && decide (a < S.stop)

/-- `S.data[a - S.start]`: the byte of a segment at an address it contains. -/
def Segment.byte (S : Segment) (a : Nat) : Byte := readCell S.cells a

/-- `n` bytes from an address on: `S.data[a - S.start .. a - S.start + n)` (R56). -/
def Segment.slice (S : Segment) (a n : Nat) : List Byte := (List.range n).map fun k => S.byte (a + k)

/-- `S.data`, the byte sequence of R27. -/
def Segment.data (S : Segment) : List Byte := S.slice S.start S.len

/-- Overwrite bytes in place; the start and the length stay (R57). -/
def Segment.write (S : Segment) (a : Nat) (bs : List Byte) : Segment := { S with cells := writeCells S.cells a bs }

/-- `(start, zeros(len))` (R111). -/
def Segment.zeros (start len : Nat) : Segment := { start := start, len := len, cells := [] }

/-- `S.data <- S.data ++ zeros(g)` (R111, extend). -/
def Segment.extend (S : Segment) (g : Nat) : Segment := { S with len := S.len + g }

/-- The segment `(addr, buf)` of a backward grow (R111): `len` bytes from `addr`, with every old byte at its old address. -/
def Segment.growBackward (S : Segment) (addr len : Nat) : Segment := { S with start := addr, len := len }

/-- The cells are in canonical form: addresses strictly rising, inside the segment, no byte zero. -/
def Segment.cellsWf (S : Segment) : Bool :=
  decide (S.cells.Pairwise fun c d => c.1 < d.1) && S.cells.all fun c => S.contains c.1 && c.2 != 0

/-- A segment as R28 says every segment is, with its bytes in canonical form. -/
def Segment.wf (S : Segment) : Bool :=
  decide (S.start % blockSize = 0) && decide (S.len % blockSize = 0) && decide (blockSize ≤ S.len) &&
    decide (S.stop ≤ 2 ^ 64) && S.cellsWf

/-- The canonical form of the DRAM: starts strictly ascending, and every segment well formed (R28). -/
def Memory.wf (m : Memory) : Bool := decide (m.Pairwise fun S T => S.start < T.start) && m.all Segment.wf

/-! ### The access path (R50 to R60) -/

/-- Ordered lookup (R55): the first segment, in ascending order, that contains the address. -/
def lookup (m : Memory) (a : Nat) : Option Segment := m.find? fun S => S.contains a

/-- The byte an address maps to, none where no segment contains it. -/
def Memory.byteAt (m : Memory) (a : Nat) : Option Byte := (lookup m a).map fun S => S.byte a

/-- A size as the payload `P1` of `OUT_OF_BOUNDS`; one that does not fit its 64 bits leaves a free value there (log entry 7). -/
def sizePayload (s : State) (n : Nat) : Word64 :=
  if n < 2 ^ 64 then BitVec.ofNat 64 n else Config.oversizePayload s.responses.length

/-- The checks of an access to `n` bytes at an address, in the order of R51; it gives the segment the access uses. The containment
check never fails (R58). -/
def accessSegment (s : State) (addr : Word64) (n : Nat) : Except Failure Segment :=
  if addr.toNat % s.cfg.align ≠ 0 then .error (.status .unaligned addr 0)
  else if !s.cfg.inWindow addr.toNat then .error (.status .outOfBounds addr (sizePayload s n))
  else
    match lookup s.segs addr.toNat with
    | none => .error (.status .addressNotMapped 0 0)
    | some S =>
      if !S.contains addr.toNat then .error (.fatal .containment)
      else if S.stop < addr.toNat + n then .error (.fatal .span)
      else .ok S

/-- `MemRead(addr, n)` (R56). -/
def memRead (s : State) (addr : Word64) (n : Nat) : Except Failure (List Byte) :=
  match accessSegment s addr n with
  | .error f => .error f
  | .ok S => .ok (S.slice addr.toNat n)

/-- Overwrite bytes of the segment the lookup gives, leaving every other segment as it is. -/
def writeSegments (addr : Nat) (bs : List Byte) : Memory → Memory
  | [] => []
  | S :: m => if S.contains addr then S.write addr bs :: m else S :: writeSegments addr bs m

/-- `MemWrite(addr, len(bs), bs)` (R57): no byte is written unless every check passes. -/
def memWrite (s : State) (addr : Word64) (bs : List Byte) : Except Failure State :=
  match accessSegment s addr bs.length with
  | .error f => .error f
  | .ok _ => .ok { s with segs := writeSegments addr.toNat bs s.segs }

/-! ### The allocator (R110, R111) -/

/-- `BACKED`: the total backing size (R32). -/
def backed (m : Memory) : Nat := (m.map Segment.len).sum

/-- `capcheck(g)` fails: `BACKING_LIMIT` is given and `BACKED + g` passes it (R110). -/
def overCapacity (s : State) (g : Nat) : Bool :=
  match s.cfg.backingLimit with
  | none => false
  | some limit => decide (limit < backed s.segs + g)

/-- Insert a segment at the position its start gives in ascending order (R110). -/
def insertSegment (T : Segment) : Memory → Memory
  | [] => [T]
  | S :: m => if T.start < S.start then T :: S :: m else S :: insertSegment T m

/-- Step 3 of `ALLOC` (R111): the size in whole blocks, as a power of two. -/
def allocLength (s : Nat) : Nat := if s < blockSize then blockSize else pow2ceil s

/-- What the scan of step 5 finds (R111); `pre` and `post` are the segments before and after the one that matches. -/
inductive AllocCase where
  /-- The segment contains the address. -/
  | mapped (S : Segment)
  /-- The segment ends at the address. -/
  | extend (pre : Memory) (S : Segment) (post : Memory)
  /-- The address precedes the segment, and the new range reaches into it. -/
  | backward (pre : Memory) (S : Segment) (post : Memory)
  /-- No segment matches. -/
  | fresh
deriving DecidableEq, Repr

/-- The new range `[addr, addr + s)` reaches into `S` from below: case 3 of step 5, with adjacency counting only under
`BACKWARD_MERGE_ADJACENT` (R111). -/
def reachesInto (adjacent : Bool) (addr s : Nat) (S : Segment) : Bool :=
  decide (addr < S.start) && (decide (S.start < addr + s) || (adjacent && decide (addr + s = S.start)))

/-- The scan of step 5 (R111): on each segment in ascending order the three cases in their order; the first that matches decides.
`pre` is what the scan has passed. -/
def allocScan (adjacent : Bool) (addr s : Nat) (pre : Memory) : Memory → AllocCase
  | [] => .fresh
  | S :: post =>
    if S.contains addr then .mapped S
    else if S.stop = addr then .extend pre S post
    else if reachesInto adjacent addr s S then .backward pre S post
    else allocScan adjacent addr s (pre ++ [S]) post

/-- The end of an allocation that backs `g` more bytes (R110, R111): `capcheck(g)`, then the new table and the address. -/
def commitAlloc (s : State) (g : Nat) (segs : Memory) (address : Nat) : Out :=
  if overCapacity s g then s.fail (.fatal .capacity)
  else { s with segs := segs }.succeed (.word 64 (BitVec.ofNat 64 address))

/-- `ALLOC` after the prologue (R111). Step 4, the empty table, is the scan that finds nothing. -/
def allocate (hint sizeHint : Word64) (s : State) : Out :=
  let off := hint.toNat % blockSize
  let addr := hint.toNat - off
  let len := allocLength (sizeHint.toNat + off)
  if s.cfg.dramSize < sizeHint.toNat then s.fail (.status .outOfBounds hint sizeHint)
  else if 2 ^ 64 ≤ len ∨ 2 ^ 64 < addr + len then s.fail (.fatal .overflow)
  else
    match allocScan s.cfg.backwardMergeAdjacent addr len [] s.segs with
    | .mapped S => s.fail (.status .addressAlreadyMapped (BitVec.ofNat 64 S.start) 0)
    | .extend pre S post => commitAlloc s len (pre ++ S.extend len :: post) S.start
    | .backward pre S post =>
      let newLen := max len (S.stop - addr)
      commitAlloc s (newLen - S.len) (insertSegment (S.growBackward addr newLen) (pre ++ post)) addr
    | .fresh => commitAlloc s len (insertSegment (Segment.zeros addr len) s.segs) addr

end Machine

end Sys2Proof
end

