-- ==== Sys2Proof/Machine/Operands.lean ====
section
/-! DEFINITION. The register operands: the general register views (R22, R140), `RIP`, `RFLAGS`, and the SIMD views with their typed
elements (R26, R171, R173), each with its validity bits (R34, R215). -/

namespace Sys2Proof.Machine

/-! ### Validity bits (R34) -/

/-- The mask of the validity bits of bytes `0 .. n - 1`. -/
def validMask (w n : Nat) : BitVec w := BitVec.ofNat w (2 ^ n - 1)

/-- Bytes `0 .. n - 1` are all valid. -/
def allValid {w : Nat} (bits : BitVec w) (n : Nat) : Bool := bits &&& validMask w n == validMask w n

/-- Mark bytes `0 .. n - 1` valid. -/
def markValid {w : Nat} (bits : BitVec w) (n : Nat) : BitVec w := bits ||| validMask w n

/-- `REG_RESET = POISON` (R8). -/
def State.poison (s : State) : Bool := s.cfg.regReset == .poison

/-- `raise UNWRITTEN(CMD)` if `REG_RESET = POISON` and a byte that is read is not valid (R215); otherwise the read goes on. -/
def State.readChecked (s : State) (w : CmdWord) (valid : Bool) (run : Out) : Out :=
  if s.poison && !valid then s.fail (.status .unwritten (cmdPayload w) 0) else run

/-! ### General registers (R21, R22, R140) -/

/-- `x[i]`. -/
def State.readGpr (s : State) (i : RegIndex) : Word64 := s.gpr[i.val]

/-- `x[i][63:w] ++ v`: the bits a narrow write does not name are kept. -/
def insertLow {w : Nat} (old : Word64) (v : BitVec w) : Word64 := (old >>> w <<< w) ||| v.setWidth 64

/-- Whether a `w`-bit write sets the register whole (R140). -/
def wholeWrite (p : GprWritePolicy) (w : Nat) : Bool :=
  match p with
  | .zeroExtend => true
  | .merge => w == 64
  | .x86 => w == 64 || w == 32

/-- The value a `w`-bit write leaves in a register that held `old` (R140). -/
def gprWritten {w : Nat} (p : GprWritePolicy) (old : Word64) (v : BitVec w) : Word64 :=
  if wholeWrite p w then v.setWidth 64 else insertLow old v

/-- The validity bits a `w`-bit write leaves (R140): all eight of a register set whole, those of the low bytes otherwise. -/
def gprMarked (p : GprWritePolicy) (old : BitVec 8) (w : Nat) : BitVec 8 :=
  markValid old (if wholeWrite p w then 8 else w / 8)

/-- `gpr_write(i, w, v)` (R140). -/
def State.writeGpr {w : Nat} (s : State) (i : RegIndex) (v : BitVec w) : State :=
  { s with
    gpr := s.gpr.set i.val (gprWritten s.cfg.gprWritePolicy (s.readGpr i) v)
    gprValid :=
      if s.poison then s.gprValid.set i.val (gprMarked s.cfg.gprWritePolicy s.gprValid[i.val] w) else s.gprValid }

/-- `GRDw` after the word is decoded (R141 to R144): the low `w` bits of `x[i]`. -/
def gprRead (w : Nat) (cmd : CmdWord) (i : RegIndex) (s : State) : Out :=
  s.prologue (s.readChecked cmd (allValid s.gprValid[i.val] (w / 8)) (s.succeed (.word w ((s.readGpr i).setWidth w))))

/-- `GWRw` (R145 to R148): `A[w-1:0]`, the rest of `A` ignored (R89). -/
def gprWrite (w : Nat) (i : RegIndex) (a : Word64) (s : State) : Out :=
  s.prologue ((s.writeGpr i (a.setWidth w)).succeed .none)

/-! ### `RIP` and `RFLAGS` (R24, R25) -/

/-- A command that reads `RIP` (R149, R215). -/
def ripChecked (cmd : CmdWord) (s : State) (run : Out) : Out :=
  s.prologue (s.readChecked cmd (allValid s.ripValid 8) run)

/-- `RIP <- A` (R150). -/
def State.writeRip (s : State) (v : Word64) : State :=
  { s with rip := v, ripValid := if s.poison then markValid s.ripValid 8 else s.ripValid }

/-- A command that reads `RFLAGS` (R151, R153 to R155, R215). -/
def rflagsChecked (cmd : CmdWord) (s : State) (run : Out) : Out :=
  s.prologue (s.readChecked cmd (allValid s.rflagsValid 8) run)

/-- `RFLAGS <- A`, all 64 bits (R152). -/
def State.writeRflags (s : State) (v : Word64) : State :=
  { s with rflags := v, rflagsValid := if s.poison then markValid s.rflagsValid 8 else s.rflagsValid }

/-! ### SIMD registers (R26, R170, R171, R173) -/

/-- `V[i]`. -/
def State.readSimd (s : State) (i : RegIndex) : SimdReg := s.simd[i.val]

/-- Overwrite the bytes of a register from byte `k` on. -/
def putBytes (v : SimdReg) (k : Nat) : List Byte → SimdReg
  | [] => v
  | b :: bs => putBytes (v.setIfInBounds k b) (k + 1) bs

/-- `V[i][0 .. VB)`: the leading bytes a view names (R171). -/
def viewBytes (v : SimdReg) (vw : View) : List Byte := v.toList.take vw.bytes

/-- The elements of a view (R170, R173). -/
def viewElems (v : SimdReg) (vw : View) (t : ElemType) : List Int := elemsOfImage t (elemCount vw t) (viewBytes v vw)

/-- Write elements to a view (R173): their byte image goes to the leading bytes, and the bytes past it stay. -/
def State.writeSimd (s : State) (i : RegIndex) (vw : View) (t : ElemType) (es : List Int) : State :=
  { s with
    simd := s.simd.set i.val (putBytes (s.readSimd i) 0 (elemsImage t es))
    simdValid := if s.poison then s.simdValid.set i.val (markValid s.simdValid[i.val] vw.bytes) else s.simdValid }

/-- `vread(T)` through a view (R173). -/
def vread (vw : View) (t : ElemType) (cmd : CmdWord) (i : RegIndex) (s : State) : Out :=
  s.prologue (s.readChecked cmd (allValid s.simdValid[i.val] vw.bytes) (s.succeed (.elems t (viewElems (s.readSimd i) vw t))))

/-- `vwrite(T)` through a view (R173), after the operand check of the prologue (R90, R211). -/
def vwrite (vw : View) (t : ElemType) (cmd : CmdWord) (i : RegIndex) (es : List Int) (s : State) : Out :=
  if elementsFit vw t es then s.prologue ((s.writeSimd i vw t es).succeed .none) else illegalCommand cmd s

end Sys2Proof.Machine
end

