-- ==== Sys2Proof/Machine/Dram.lean ====
section
/-! DEFINITION. The DRAM commands: allocation, byte access and device identity (R111 to R119). -/

namespace Sys2Proof.Machine

/-- `ALLOC` (R111): allocate backing storage, which may extend or merge a segment. -/
def execAlloc (hint size : Word64) (s : State) : Out := s.prologue (allocate hint size s)

/-- `RDB` (R113): one byte. -/
def execRdb (addr : Word64) (s : State) : Out :=
  s.prologue
    (match memRead s addr 1 with
    | .error f => s.fail f
    | .ok bs => s.succeed (.word 8 (bs.headD 0)))

/-- `RDBS` (R114): a byte range. -/
def execRdbs (addr size : Word64) (s : State) : Out :=
  s.prologue
    (match memRead s addr size.toNat with
    | .error f => s.fail f
    | .ok bs => s.succeed (.bytes bs))

/-- `WRB` (R115): the byte `B[7:0]`. -/
def execWrb (addr value : Word64) (s : State) : Out :=
  s.prologue
    (match memWrite s addr [value.setWidth 8] with
    | .error f => s.fail f
    | .ok t => t.succeed .none)

/-- `WRBS` (R116): a byte range. -/
def execWrbs (addr : Word64) (data : List Byte) (s : State) : Out :=
  s.prologue
    (match memWrite s addr data with
    | .error f => s.fail f
    | .ok t => t.succeed .none)

/-- `DNAME` (R117). -/
def execDname (s : State) : Out := s.prologue (s.succeed (.bytes s.cfg.deviceName))

/-- `DSTART` (R118). -/
def execDstart (s : State) : Out := s.prologue (s.succeed (.word 64 s.cfg.base))

/-- `DEND` (R119): the exclusive end of the window. -/
def execDend (s : State) : Out := s.prologue (s.succeed (.word 64 (BitVec.ofNat 64 s.cfg.windowEnd)))

end Sys2Proof.Machine
end

