-- ==== Sys2Proof/Machine/Gpr.lean ====
section
/-! DEFINITION. The general register commands (R141 to R148). -/

namespace Sys2Proof.Machine

/-- `GRD8` (R141). -/
def execGrd8 (r : RegIndex) (s : State) : Out := gprRead 8 (encode (.grd8 r)).cmd r s

/-- `GRD16` (R142). -/
def execGrd16 (r : RegIndex) (s : State) : Out := gprRead 16 (encode (.grd16 r)).cmd r s

/-- `GRD32` (R143). -/
def execGrd32 (r : RegIndex) (s : State) : Out := gprRead 32 (encode (.grd32 r)).cmd r s

/-- `GRD64` (R144). -/
def execGrd64 (r : RegIndex) (s : State) : Out := gprRead 64 (encode (.grd64 r)).cmd r s

/-- `GWR8` (R145). -/
def execGwr8 (r : RegIndex) (value : Word64) (s : State) : Out := gprWrite 8 r value s

/-- `GWR16` (R146). -/
def execGwr16 (r : RegIndex) (value : Word64) (s : State) : Out := gprWrite 16 r value s

/-- `GWR32` (R147). -/
def execGwr32 (r : RegIndex) (value : Word64) (s : State) : Out := gprWrite 32 r value s

/-- `GWR64` (R148). -/
def execGwr64 (r : RegIndex) (value : Word64) (s : State) : Out := gprWrite 64 r value s

end Sys2Proof.Machine
end

