-- ==== Sys2Proof/Machine/RipFlags.lean ====
section
/-! DEFINITION. The `rip` and `rflags` commands (R149 to R155). -/

namespace Sys2Proof.Machine

/-- `RIPRD` (R149). -/
def execRiprd (s : State) : Out := ripChecked (encode .riprd).cmd s (s.succeed (.word 64 s.rip))

/-- `RIPWR` (R150): any value is stored. -/
def execRipwr (value : Word64) (s : State) : Out := s.prologue ((s.writeRip value).succeed .none)

/-- `FLRD` (R151). -/
def execFlrd (s : State) : Out := rflagsChecked (encode .flrd).cmd s (s.succeed (.word 64 s.rflags))

/-- `FLWR` (R152): all 64 bits, no masking. -/
def execFlwr (value : Word64) (s : State) : Out := s.prologue ((s.writeRflags value).succeed .none)

/-- `FLSET` (R153). It reads `RFLAGS` first, so its validity bits are all set when it writes. -/
def execFlset (mask : Word64) (s : State) : Out :=
  rflagsChecked (encode (.flset mask)).cmd s ({ s with rflags := flagsSet s.rflags mask }.succeed .none)

/-- `FLCLR` (R154). It reads `RFLAGS` first, so its validity bits are all set when it writes. -/
def execFlclr (mask : Word64) (s : State) : Out :=
  rflagsChecked (encode (.flclr mask)).cmd s ({ s with rflags := flagsClear s.rflags mask }.succeed .none)

/-- `FLTST` (R155): a 1-bit result. -/
def execFltst (mask : Word64) (s : State) : Out :=
  rflagsChecked (encode (.fltst mask)).cmd s (s.succeed (.word 1 (flagsTest s.rflags mask)))

end Sys2Proof.Machine
end

