-- ==== Sys2Proof/Machine/SimdRead.lean ====
section
/-! DEFINITION. The typed element reads of the SIMD registers: one command per view and element type (R174 to R183). -/

namespace Sys2Proof.Machine

/-- `VRD.XMM.I8x16` (R174). -/
def execVrdXmmI8x16 (v : RegIndex) (s : State) : Out := vread .xmm .i8 (encode (.vrdXmmI8x16 v)).cmd v s

/-- `VRD.YMM.I8x32` (R174). -/
def execVrdYmmI8x32 (v : RegIndex) (s : State) : Out := vread .ymm .i8 (encode (.vrdYmmI8x32 v)).cmd v s

/-- `VRD.ZMM.I8x64` (R174). -/
def execVrdZmmI8x64 (v : RegIndex) (s : State) : Out := vread .zmm .i8 (encode (.vrdZmmI8x64 v)).cmd v s

/-- `VRD.XMM.U8x16` (R175). -/
def execVrdXmmU8x16 (v : RegIndex) (s : State) : Out := vread .xmm .u8 (encode (.vrdXmmU8x16 v)).cmd v s

/-- `VRD.YMM.U8x32` (R175). -/
def execVrdYmmU8x32 (v : RegIndex) (s : State) : Out := vread .ymm .u8 (encode (.vrdYmmU8x32 v)).cmd v s

/-- `VRD.ZMM.U8x64` (R175). -/
def execVrdZmmU8x64 (v : RegIndex) (s : State) : Out := vread .zmm .u8 (encode (.vrdZmmU8x64 v)).cmd v s

/-- `VRD.XMM.I16x8` (R176). -/
def execVrdXmmI16x8 (v : RegIndex) (s : State) : Out := vread .xmm .i16 (encode (.vrdXmmI16x8 v)).cmd v s

/-- `VRD.YMM.I16x16` (R176). -/
def execVrdYmmI16x16 (v : RegIndex) (s : State) : Out := vread .ymm .i16 (encode (.vrdYmmI16x16 v)).cmd v s

/-- `VRD.ZMM.I16x32` (R176). -/
def execVrdZmmI16x32 (v : RegIndex) (s : State) : Out := vread .zmm .i16 (encode (.vrdZmmI16x32 v)).cmd v s

/-- `VRD.XMM.U16x8` (R177). -/
def execVrdXmmU16x8 (v : RegIndex) (s : State) : Out := vread .xmm .u16 (encode (.vrdXmmU16x8 v)).cmd v s

/-- `VRD.YMM.U16x16` (R177). -/
def execVrdYmmU16x16 (v : RegIndex) (s : State) : Out := vread .ymm .u16 (encode (.vrdYmmU16x16 v)).cmd v s

/-- `VRD.ZMM.U16x32` (R177). -/
def execVrdZmmU16x32 (v : RegIndex) (s : State) : Out := vread .zmm .u16 (encode (.vrdZmmU16x32 v)).cmd v s

/-- `VRD.XMM.I32x4` (R178). -/
def execVrdXmmI32x4 (v : RegIndex) (s : State) : Out := vread .xmm .i32 (encode (.vrdXmmI32x4 v)).cmd v s

/-- `VRD.YMM.I32x8` (R178). -/
def execVrdYmmI32x8 (v : RegIndex) (s : State) : Out := vread .ymm .i32 (encode (.vrdYmmI32x8 v)).cmd v s

/-- `VRD.ZMM.I32x16` (R178). -/
def execVrdZmmI32x16 (v : RegIndex) (s : State) : Out := vread .zmm .i32 (encode (.vrdZmmI32x16 v)).cmd v s

/-- `VRD.XMM.U32x4` (R179). -/
def execVrdXmmU32x4 (v : RegIndex) (s : State) : Out := vread .xmm .u32 (encode (.vrdXmmU32x4 v)).cmd v s

/-- `VRD.YMM.U32x8` (R179). -/
def execVrdYmmU32x8 (v : RegIndex) (s : State) : Out := vread .ymm .u32 (encode (.vrdYmmU32x8 v)).cmd v s

/-- `VRD.ZMM.U32x16` (R179). -/
def execVrdZmmU32x16 (v : RegIndex) (s : State) : Out := vread .zmm .u32 (encode (.vrdZmmU32x16 v)).cmd v s

/-- `VRD.XMM.I64x2` (R180). -/
def execVrdXmmI64x2 (v : RegIndex) (s : State) : Out := vread .xmm .i64 (encode (.vrdXmmI64x2 v)).cmd v s

/-- `VRD.YMM.I64x4` (R180). -/
def execVrdYmmI64x4 (v : RegIndex) (s : State) : Out := vread .ymm .i64 (encode (.vrdYmmI64x4 v)).cmd v s

/-- `VRD.ZMM.I64x8` (R180). -/
def execVrdZmmI64x8 (v : RegIndex) (s : State) : Out := vread .zmm .i64 (encode (.vrdZmmI64x8 v)).cmd v s

/-- `VRD.XMM.U64x2` (R181). -/
def execVrdXmmU64x2 (v : RegIndex) (s : State) : Out := vread .xmm .u64 (encode (.vrdXmmU64x2 v)).cmd v s

/-- `VRD.YMM.U64x4` (R181). -/
def execVrdYmmU64x4 (v : RegIndex) (s : State) : Out := vread .ymm .u64 (encode (.vrdYmmU64x4 v)).cmd v s

/-- `VRD.ZMM.U64x8` (R181). -/
def execVrdZmmU64x8 (v : RegIndex) (s : State) : Out := vread .zmm .u64 (encode (.vrdZmmU64x8 v)).cmd v s

/-- `VRD.XMM.F32x4` (R182). -/
def execVrdXmmF32x4 (v : RegIndex) (s : State) : Out := vread .xmm .f32 (encode (.vrdXmmF32x4 v)).cmd v s

/-- `VRD.YMM.F32x8` (R182). -/
def execVrdYmmF32x8 (v : RegIndex) (s : State) : Out := vread .ymm .f32 (encode (.vrdYmmF32x8 v)).cmd v s

/-- `VRD.ZMM.F32x16` (R182). -/
def execVrdZmmF32x16 (v : RegIndex) (s : State) : Out := vread .zmm .f32 (encode (.vrdZmmF32x16 v)).cmd v s

/-- `VRD.XMM.F64x2` (R183). -/
def execVrdXmmF64x2 (v : RegIndex) (s : State) : Out := vread .xmm .f64 (encode (.vrdXmmF64x2 v)).cmd v s

/-- `VRD.YMM.F64x4` (R183). -/
def execVrdYmmF64x4 (v : RegIndex) (s : State) : Out := vread .ymm .f64 (encode (.vrdYmmF64x4 v)).cmd v s

/-- `VRD.ZMM.F64x8` (R183). -/
def execVrdZmmF64x8 (v : RegIndex) (s : State) : Out := vread .zmm .f64 (encode (.vrdZmmF64x8 v)).cmd v s

end Sys2Proof.Machine
end

