-- ==== Sys2Proof/Machine/SimdWrite.lean ====
section
/-! DEFINITION. The typed element writes of the SIMD registers: one command per view and element type (R184 to R193). -/

namespace Sys2Proof.Machine

/-- `VWR.XMM.I8x16` (R184). -/
def execVwrXmmI8x16 (v : RegIndex) (elems : List Int) (s : State) : Out :=
  vwrite .xmm .i8 (encode (.vwrXmmI8x16 v elems)).cmd v elems s

/-- `VWR.YMM.I8x32` (R184). -/
def execVwrYmmI8x32 (v : RegIndex) (elems : List Int) (s : State) : Out :=
  vwrite .ymm .i8 (encode (.vwrYmmI8x32 v elems)).cmd v elems s

/-- `VWR.ZMM.I8x64` (R184). -/
def execVwrZmmI8x64 (v : RegIndex) (elems : List Int) (s : State) : Out :=
  vwrite .zmm .i8 (encode (.vwrZmmI8x64 v elems)).cmd v elems s

/-- `VWR.XMM.U8x16` (R185). -/
def execVwrXmmU8x16 (v : RegIndex) (elems : List Int) (s : State) : Out :=
  vwrite .xmm .u8 (encode (.vwrXmmU8x16 v elems)).cmd v elems s

/-- `VWR.YMM.U8x32` (R185). -/
def execVwrYmmU8x32 (v : RegIndex) (elems : List Int) (s : State) : Out :=
  vwrite .ymm .u8 (encode (.vwrYmmU8x32 v elems)).cmd v elems s

/-- `VWR.ZMM.U8x64` (R185). -/
def execVwrZmmU8x64 (v : RegIndex) (elems : List Int) (s : State) : Out :=
  vwrite .zmm .u8 (encode (.vwrZmmU8x64 v elems)).cmd v elems s

/-- `VWR.XMM.I16x8` (R186). -/
def execVwrXmmI16x8 (v : RegIndex) (elems : List Int) (s : State) : Out :=
  vwrite .xmm .i16 (encode (.vwrXmmI16x8 v elems)).cmd v elems s

/-- `VWR.YMM.I16x16` (R186). -/
def execVwrYmmI16x16 (v : RegIndex) (elems : List Int) (s : State) : Out :=
  vwrite .ymm .i16 (encode (.vwrYmmI16x16 v elems)).cmd v elems s

/-- `VWR.ZMM.I16x32` (R186). -/
def execVwrZmmI16x32 (v : RegIndex) (elems : List Int) (s : State) : Out :=
  vwrite .zmm .i16 (encode (.vwrZmmI16x32 v elems)).cmd v elems s

/-- `VWR.XMM.U16x8` (R187). -/
def execVwrXmmU16x8 (v : RegIndex) (elems : List Int) (s : State) : Out :=
  vwrite .xmm .u16 (encode (.vwrXmmU16x8 v elems)).cmd v elems s

/-- `VWR.YMM.U16x16` (R187). -/
def execVwrYmmU16x16 (v : RegIndex) (elems : List Int) (s : State) : Out :=
  vwrite .ymm .u16 (encode (.vwrYmmU16x16 v elems)).cmd v elems s

/-- `VWR.ZMM.U16x32` (R187). -/
def execVwrZmmU16x32 (v : RegIndex) (elems : List Int) (s : State) : Out :=
  vwrite .zmm .u16 (encode (.vwrZmmU16x32 v elems)).cmd v elems s

/-- `VWR.XMM.I32x4` (R188). -/
def execVwrXmmI32x4 (v : RegIndex) (elems : List Int) (s : State) : Out :=
  vwrite .xmm .i32 (encode (.vwrXmmI32x4 v elems)).cmd v elems s

/-- `VWR.YMM.I32x8` (R188). -/
def execVwrYmmI32x8 (v : RegIndex) (elems : List Int) (s : State) : Out :=
  vwrite .ymm .i32 (encode (.vwrYmmI32x8 v elems)).cmd v elems s

/-- `VWR.ZMM.I32x16` (R188). -/
def execVwrZmmI32x16 (v : RegIndex) (elems : List Int) (s : State) : Out :=
  vwrite .zmm .i32 (encode (.vwrZmmI32x16 v elems)).cmd v elems s

/-- `VWR.XMM.U32x4` (R189). -/
def execVwrXmmU32x4 (v : RegIndex) (elems : List Int) (s : State) : Out :=
  vwrite .xmm .u32 (encode (.vwrXmmU32x4 v elems)).cmd v elems s

/-- `VWR.YMM.U32x8` (R189). -/
def execVwrYmmU32x8 (v : RegIndex) (elems : List Int) (s : State) : Out :=
  vwrite .ymm .u32 (encode (.vwrYmmU32x8 v elems)).cmd v elems s

/-- `VWR.ZMM.U32x16` (R189). -/
def execVwrZmmU32x16 (v : RegIndex) (elems : List Int) (s : State) : Out :=
  vwrite .zmm .u32 (encode (.vwrZmmU32x16 v elems)).cmd v elems s

/-- `VWR.XMM.I64x2` (R190). -/
def execVwrXmmI64x2 (v : RegIndex) (elems : List Int) (s : State) : Out :=
  vwrite .xmm .i64 (encode (.vwrXmmI64x2 v elems)).cmd v elems s

/-- `VWR.YMM.I64x4` (R190). -/
def execVwrYmmI64x4 (v : RegIndex) (elems : List Int) (s : State) : Out :=
  vwrite .ymm .i64 (encode (.vwrYmmI64x4 v elems)).cmd v elems s

/-- `VWR.ZMM.I64x8` (R190). -/
def execVwrZmmI64x8 (v : RegIndex) (elems : List Int) (s : State) : Out :=
  vwrite .zmm .i64 (encode (.vwrZmmI64x8 v elems)).cmd v elems s

/-- `VWR.XMM.U64x2` (R191). -/
def execVwrXmmU64x2 (v : RegIndex) (elems : List Int) (s : State) : Out :=
  vwrite .xmm .u64 (encode (.vwrXmmU64x2 v elems)).cmd v elems s

/-- `VWR.YMM.U64x4` (R191). -/
def execVwrYmmU64x4 (v : RegIndex) (elems : List Int) (s : State) : Out :=
  vwrite .ymm .u64 (encode (.vwrYmmU64x4 v elems)).cmd v elems s

/-- `VWR.ZMM.U64x8` (R191). -/
def execVwrZmmU64x8 (v : RegIndex) (elems : List Int) (s : State) : Out :=
  vwrite .zmm .u64 (encode (.vwrZmmU64x8 v elems)).cmd v elems s

/-- `VWR.XMM.F32x4` (R192). -/
def execVwrXmmF32x4 (v : RegIndex) (elems : List Int) (s : State) : Out :=
  vwrite .xmm .f32 (encode (.vwrXmmF32x4 v elems)).cmd v elems s

/-- `VWR.YMM.F32x8` (R192). -/
def execVwrYmmF32x8 (v : RegIndex) (elems : List Int) (s : State) : Out :=
  vwrite .ymm .f32 (encode (.vwrYmmF32x8 v elems)).cmd v elems s

/-- `VWR.ZMM.F32x16` (R192). -/
def execVwrZmmF32x16 (v : RegIndex) (elems : List Int) (s : State) : Out :=
  vwrite .zmm .f32 (encode (.vwrZmmF32x16 v elems)).cmd v elems s

/-- `VWR.XMM.F64x2` (R193). -/
def execVwrXmmF64x2 (v : RegIndex) (elems : List Int) (s : State) : Out :=
  vwrite .xmm .f64 (encode (.vwrXmmF64x2 v elems)).cmd v elems s

/-- `VWR.YMM.F64x4` (R193). -/
def execVwrYmmF64x4 (v : RegIndex) (elems : List Int) (s : State) : Out :=
  vwrite .ymm .f64 (encode (.vwrYmmF64x4 v elems)).cmd v elems s

/-- `VWR.ZMM.F64x8` (R193). -/
def execVwrZmmF64x8 (v : RegIndex) (elems : List Int) (s : State) : Out :=
  vwrite .zmm .f64 (encode (.vwrZmmF64x8 v elems)).cmd v elems s

end Sys2Proof.Machine
end

