-- ==== Sys2Proof/Machine/Dispatch.lean ====
section
/-! DEFINITION. One arm per command: each calls its own meaning. -/

namespace Sys2Proof.Machine

/-- What a command does (R86): the response it gives and the state it leaves. -/
def exec (i : Instr) (s : State) : Host.Outcome State Fault Refusal :=
  match i with
  | .alloc hint size => Sys2Proof.Machine.execAlloc hint size s
  | .rdb addr => Sys2Proof.Machine.execRdb addr s
  | .rdbs addr size => Sys2Proof.Machine.execRdbs addr size s
  | .wrb addr value => Sys2Proof.Machine.execWrb addr value s
  | .wrbs addr data => Sys2Proof.Machine.execWrbs addr data s
  | .dname => Sys2Proof.Machine.execDname s
  | .dstart => Sys2Proof.Machine.execDstart s
  | .dend => Sys2Proof.Machine.execDend s
  | .grd8 r => Sys2Proof.Machine.execGrd8 r s
  | .grd16 r => Sys2Proof.Machine.execGrd16 r s
  | .grd32 r => Sys2Proof.Machine.execGrd32 r s
  | .grd64 r => Sys2Proof.Machine.execGrd64 r s
  | .gwr8 r value => Sys2Proof.Machine.execGwr8 r value s
  | .gwr16 r value => Sys2Proof.Machine.execGwr16 r value s
  | .gwr32 r value => Sys2Proof.Machine.execGwr32 r value s
  | .gwr64 r value => Sys2Proof.Machine.execGwr64 r value s
  | .riprd => Sys2Proof.Machine.execRiprd s
  | .ripwr value => Sys2Proof.Machine.execRipwr value s
  | .flrd => Sys2Proof.Machine.execFlrd s
  | .flwr value => Sys2Proof.Machine.execFlwr value s
  | .flset mask => Sys2Proof.Machine.execFlset mask s
  | .flclr mask => Sys2Proof.Machine.execFlclr mask s
  | .fltst mask => Sys2Proof.Machine.execFltst mask s
  | .vrdXmmI8x16 v => Sys2Proof.Machine.execVrdXmmI8x16 v s
  | .vrdYmmI8x32 v => Sys2Proof.Machine.execVrdYmmI8x32 v s
  | .vrdZmmI8x64 v => Sys2Proof.Machine.execVrdZmmI8x64 v s
  | .vrdXmmU8x16 v => Sys2Proof.Machine.execVrdXmmU8x16 v s
  | .vrdYmmU8x32 v => Sys2Proof.Machine.execVrdYmmU8x32 v s
  | .vrdZmmU8x64 v => Sys2Proof.Machine.execVrdZmmU8x64 v s
  | .vrdXmmI16x8 v => Sys2Proof.Machine.execVrdXmmI16x8 v s
  | .vrdYmmI16x16 v => Sys2Proof.Machine.execVrdYmmI16x16 v s
  | .vrdZmmI16x32 v => Sys2Proof.Machine.execVrdZmmI16x32 v s
  | .vrdXmmU16x8 v => Sys2Proof.Machine.execVrdXmmU16x8 v s
  | .vrdYmmU16x16 v => Sys2Proof.Machine.execVrdYmmU16x16 v s
  | .vrdZmmU16x32 v => Sys2Proof.Machine.execVrdZmmU16x32 v s
  | .vrdXmmI32x4 v => Sys2Proof.Machine.execVrdXmmI32x4 v s
  | .vrdYmmI32x8 v => Sys2Proof.Machine.execVrdYmmI32x8 v s
  | .vrdZmmI32x16 v => Sys2Proof.Machine.execVrdZmmI32x16 v s
  | .vrdXmmU32x4 v => Sys2Proof.Machine.execVrdXmmU32x4 v s
  | .vrdYmmU32x8 v => Sys2Proof.Machine.execVrdYmmU32x8 v s
  | .vrdZmmU32x16 v => Sys2Proof.Machine.execVrdZmmU32x16 v s
  | .vrdXmmI64x2 v => Sys2Proof.Machine.execVrdXmmI64x2 v s
  | .vrdYmmI64x4 v => Sys2Proof.Machine.execVrdYmmI64x4 v s
  | .vrdZmmI64x8 v => Sys2Proof.Machine.execVrdZmmI64x8 v s
  | .vrdXmmU64x2 v => Sys2Proof.Machine.execVrdXmmU64x2 v s
  | .vrdYmmU64x4 v => Sys2Proof.Machine.execVrdYmmU64x4 v s
  | .vrdZmmU64x8 v => Sys2Proof.Machine.execVrdZmmU64x8 v s
  | .vrdXmmF32x4 v => Sys2Proof.Machine.execVrdXmmF32x4 v s
  | .vrdYmmF32x8 v => Sys2Proof.Machine.execVrdYmmF32x8 v s
  | .vrdZmmF32x16 v => Sys2Proof.Machine.execVrdZmmF32x16 v s
  | .vrdXmmF64x2 v => Sys2Proof.Machine.execVrdXmmF64x2 v s
  | .vrdYmmF64x4 v => Sys2Proof.Machine.execVrdYmmF64x4 v s
  | .vrdZmmF64x8 v => Sys2Proof.Machine.execVrdZmmF64x8 v s
  | .vwrXmmI8x16 v elems => Sys2Proof.Machine.execVwrXmmI8x16 v elems s
  | .vwrYmmI8x32 v elems => Sys2Proof.Machine.execVwrYmmI8x32 v elems s
  | .vwrZmmI8x64 v elems => Sys2Proof.Machine.execVwrZmmI8x64 v elems s
  | .vwrXmmU8x16 v elems => Sys2Proof.Machine.execVwrXmmU8x16 v elems s
  | .vwrYmmU8x32 v elems => Sys2Proof.Machine.execVwrYmmU8x32 v elems s
  | .vwrZmmU8x64 v elems => Sys2Proof.Machine.execVwrZmmU8x64 v elems s
  | .vwrXmmI16x8 v elems => Sys2Proof.Machine.execVwrXmmI16x8 v elems s
  | .vwrYmmI16x16 v elems => Sys2Proof.Machine.execVwrYmmI16x16 v elems s
  | .vwrZmmI16x32 v elems => Sys2Proof.Machine.execVwrZmmI16x32 v elems s
  | .vwrXmmU16x8 v elems => Sys2Proof.Machine.execVwrXmmU16x8 v elems s
  | .vwrYmmU16x16 v elems => Sys2Proof.Machine.execVwrYmmU16x16 v elems s
  | .vwrZmmU16x32 v elems => Sys2Proof.Machine.execVwrZmmU16x32 v elems s
  | .vwrXmmI32x4 v elems => Sys2Proof.Machine.execVwrXmmI32x4 v elems s
  | .vwrYmmI32x8 v elems => Sys2Proof.Machine.execVwrYmmI32x8 v elems s
  | .vwrZmmI32x16 v elems => Sys2Proof.Machine.execVwrZmmI32x16 v elems s
  | .vwrXmmU32x4 v elems => Sys2Proof.Machine.execVwrXmmU32x4 v elems s
  | .vwrYmmU32x8 v elems => Sys2Proof.Machine.execVwrYmmU32x8 v elems s
  | .vwrZmmU32x16 v elems => Sys2Proof.Machine.execVwrZmmU32x16 v elems s
  | .vwrXmmI64x2 v elems => Sys2Proof.Machine.execVwrXmmI64x2 v elems s
  | .vwrYmmI64x4 v elems => Sys2Proof.Machine.execVwrYmmI64x4 v elems s
  | .vwrZmmI64x8 v elems => Sys2Proof.Machine.execVwrZmmI64x8 v elems s
  | .vwrXmmU64x2 v elems => Sys2Proof.Machine.execVwrXmmU64x2 v elems s
  | .vwrYmmU64x4 v elems => Sys2Proof.Machine.execVwrYmmU64x4 v elems s
  | .vwrZmmU64x8 v elems => Sys2Proof.Machine.execVwrZmmU64x8 v elems s
  | .vwrXmmF32x4 v elems => Sys2Proof.Machine.execVwrXmmF32x4 v elems s
  | .vwrYmmF32x8 v elems => Sys2Proof.Machine.execVwrYmmF32x8 v elems s
  | .vwrZmmF32x16 v elems => Sys2Proof.Machine.execVwrZmmF32x16 v elems s
  | .vwrXmmF64x2 v elems => Sys2Proof.Machine.execVwrXmmF64x2 v elems s
  | .vwrYmmF64x4 v elems => Sys2Proof.Machine.execVwrYmmF64x4 v elems s
  | .vwrZmmF64x8 v elems => Sys2Proof.Machine.execVwrZmmF64x8 v elems s

end Sys2Proof.Machine
end

