-- ==== Sys2Proof/Machine/Requests.lean ====
section
/-! DEFINITION. What the block does with one act of the requester: a request (R211) or a reset (R240). -/

namespace Sys2Proof.Machine

/-- Perform a request (R211): an illegal word answers `ILLEGAL_COMMAND`; any other runs its command's rule. The sticky fatal state
comes first on both paths (`State.prologue`), and the operand check of `VWR` is in its meaning (`vwrite`); log entry 9. -/
def performRequest (q : Request) (s : State) : Out :=
  match decode q with
  | .error _ => illegalCommand q.cmd s
  | .ok i => exec i s

/-- Reset (R240, R246): with a legal configuration every piece of state goes to its value in R37; an illegal one is refused, for there
is no such block (R6). The rest of what the requester does, and the responses it has had, are the requester's and stay; log
entry 4. -/
def performReset (cfg : Config) (s : State) : Out :=
  if cfg.legal then .next { State.construct cfg with inputs := s.inputs, responses := s.responses }
  else .refused .illegalConfiguration

/-- One act of the requester. -/
def performInput (i : Input) (s : State) : Out :=
  match i with
  | .reset cfg => performReset cfg s
  | .command q => performRequest q s

/-- Take the requester's next act and perform it to its end (R66, R245). With nothing left to issue the run has ended (R247). -/
def serveNext (s : State) : Out :=
  match s.inputs with
  | [] => .refused .noRequest
  | i :: rest => performInput i { s with inputs := rest }

/-- The state in which the requester issues a bare command word next, every operand bit 0 (log entry 8). -/
def issueWord (s : State) (w : CmdWord) : State :=
  { s with inputs := .command (requestOfWord w) :: s.inputs }

end Sys2Proof.Machine
end

