-- ==== Sys2Proof/Machine/Step.lean ====
section
/-! DEFINITION. One step of the block: one act of the requester, performed to its end (R66). -/

namespace Sys2Proof.Machine

/-- Perform the requester's next act. -/
def step (s : State) : Host.Outcome State Fault Refusal := serveNext s

/-- The state in which the table's bits of a row are the next request's command word, every operand bit 0. -/
def State.withFetchWord (s : State) (_nbits w : Nat) : State := issueWord s (BitVec.ofNat 32 w)

end Sys2Proof.Machine
end

