-- ==== Sys2Proof/Machine/Assembler.lean ====
section
/-! DEFINITION. The assembly language of R92 to R94: one line of text to the request it encodes. The names of registers and flags are
labels only (R22, R25). A line that is no command of R93 or R94 is rejected. What R92 and R93 leave open is settled as log entry 13
says, and each definition that settles a point is marked. -/

namespace Sys2Proof.Machine.Asm

/-! ### Characters and tokens (R92) -/

/-- The tokens of a line. -/
inductive Token where
  /-- A mnemonic, a name or a number. -/
  | word (cs : List Char)
  | comma
  | openList
  | closeList
  | bar
  | minus
deriving DecidableEq, Repr

/-- The characters of a word: letters, digits, `.` and `_`. -/
def isWordChar (c : Char) : Bool := c.isAlphanum || c == '.' || c == '_'

/-- The token before the ones that follow: a word that is being read, if any. -/
def flush (cur : List Char) (rest : List Token) : List Token := if cur.isEmpty then rest else .word cur :: rest

/-- Split a line into tokens; text after `;` is a comment. `cur` is the word being read. Which characters separate tokens is a
DESIGN CHOICE, log entry 13. -/
def tokens (cur : List Char) : List Char → Option (List Token)
  | [] => some (flush cur [])
  | c :: cs =>
    if c == ';' then some (flush cur [])
    else if isWordChar c then tokens (cur ++ [c]) cs
    else if c == ' ' || c == '\t' then (tokens [] cs).map (flush cur)
    else if c == ',' then (tokens [] cs).map fun r => flush cur (.comma :: r)
    else if c == '[' then (tokens [] cs).map fun r => flush cur (.openList :: r)
    else if c == ']' then (tokens [] cs).map fun r => flush cur (.closeList :: r)
    else if c == '|' then (tokens [] cs).map fun r => flush cur (.bar :: r)
    else if c == '-' then (tokens [] cs).map fun r => flush cur (.minus :: r)
    else none

/-- Split a word at a character. -/
def splitAt (sep : Char) (cur : List Char) : List Char → List (List Char)
  | [] => [cur]
  | c :: cs => if c == sep then cur :: splitAt sep [] cs else splitAt sep (cur ++ [c]) cs

/-! ### Numbers (R92) -/

/-- A digit of a base up to 16; either case for `a` to `f` (DESIGN CHOICE, log entry 13). -/
def digit (base : Nat) (c : Char) : Option Nat :=
  let d :=
    if '0' ≤ c ∧ c ≤ '9' then some (c.toNat - 48)
    else if 'a' ≤ c ∧ c ≤ 'f' then some (c.toNat - 87)
    else if 'A' ≤ c ∧ c ≤ 'F' then some (c.toNat - 55)
    else none
  d.bind fun n => if n < base then some n else none

/-- The digits of a number, most significant first. -/
def digits (base acc : Nat) : List Char → Option Nat
  | [] => some acc
  | c :: cs => (digit base c).bind fun d => digits base (acc * base + d) cs

/-- A hexadecimal number `0x…`. -/
def hexNumber : List Char → Option Nat
  | '0' :: 'x' :: d :: ds => digits 16 0 (d :: ds)
  | _ => none

/-- A decimal number. It may have leading zeros (DESIGN CHOICE, log entry 13). -/
def decNumber : List Char → Option Nat
  | [] => none
  | d :: ds => digits 10 0 (d :: ds)

/-- The number in a name: a register index, a width suffix or an element count. R92 and R93 write each in decimal with no leading
zero, and no other spelling names it (DESIGN CHOICE, log entry 13). -/
def nameNumber : List Char → Option Nat
  | ['0'] => some 0
  | '0' :: _ => none
  | cs => decNumber cs

/-- A number, decimal or hexadecimal; `0x` starts a hexadecimal one. -/
def number (cs : List Char) : Option Nat := (hexNumber cs).orElse fun _ => decNumber cs

/-- A 64-bit operand. A number that does not fit is rejected (DESIGN CHOICE, log entry 13). -/
def word64 (cs : List Char) : Option Word64 :=
  (number cs).bind fun n => if n < 2 ^ 64 then some (BitVec.ofNat 64 n) else none

/-- A byte, 0 to 255. -/
def byteOf (cs : List Char) : Option Byte :=
  (number cs).bind fun n => if n < 256 then some (BitVec.ofNat 8 n) else none

/-! ### Names (R14, R22, R25, R92) -/

/-- Look a name up in a list. -/
def named {α : Type} (table : List (String × α)) (cs : List Char) : Option α :=
  match table with
  | [] => none
  | (n, a) :: rest => if n.toList = cs then some a else named rest cs

/-- A register number after its letter: `r0` to `r15`, `v0` to `v15` (R92). No other spelling, such as `r007`, names a register
(DESIGN CHOICE, log entry 13). -/
def regIndex (cs : List Char) : Option RegIndex :=
  (nameNumber cs).bind fun n => if h : n < 16 then some ⟨n, h⟩ else none

/-- `r0` to `r15`. -/
def gprName : List Char → Option RegIndex
  | 'r' :: ds => regIndex ds
  | _ => none

/-- `v0` to `v15`. -/
def simdName : List Char → Option RegIndex
  | 'v' :: ds => regIndex ds
  | _ => none

/-- The four names of each general register, by index: its 64-, 32-, 16- and 8-bit views (R22). -/
def viewNames : List (String × String × String × String) :=
  [("rax", "eax", "ax", "al"), ("rcx", "ecx", "cx", "cl"), ("rdx", "edx", "dx", "dl"), ("rbx", "ebx", "bx", "bl"),
   ("rsp", "esp", "sp", "spl"), ("rbp", "ebp", "bp", "bpl"), ("rsi", "esi", "si", "sil"), ("rdi", "edi", "di", "dil"),
   ("r8", "r8d", "r8w", "r8b"), ("r9", "r9d", "r9w", "r9b"), ("r10", "r10d", "r10w", "r10b"),
   ("r11", "r11d", "r11w", "r11b"), ("r12", "r12d", "r12w", "r12b"), ("r13", "r13d", "r13w", "r13b"),
   ("r14", "r14d", "r14w", "r14b"), ("r15", "r15d", "r15w", "r15b")]

/-- A named general register view: its width and its index, counted from `i`. -/
def viewName (i : Nat) (cs : List Char) : List (String × String × String × String) → Option (Nat × RegIndex)
  | [] => none
  | (q, d, w, b) :: rest =>
    if h : i < 16 then
      if q.toList = cs then some (64, ⟨i, h⟩)
      else if d.toList = cs then some (32, ⟨i, h⟩)
      else if w.toList = cs then some (16, ⟨i, h⟩)
      else if b.toList = cs then some (8, ⟨i, h⟩)
      else viewName (i + 1) cs rest
    else none

/-- The flag constants of R25. -/
def flagNames : List (String × Flag) :=
  [("CF", .carry), ("PF", .parity), ("AF", .adjust), ("ZF", .zero), ("SF", .sign), ("TF", .trap), ("IF", .interruptEnable),
   ("DF", .direction), ("OF", .overflow), ("IOPL", .ioPrivilegeLevel), ("NT", .nestedTask), ("RF", .resume),
   ("VM", .virtual8086), ("AC", .alignmentCheck), ("VIF", .virtualInterrupt), ("VIP", .virtualInterruptPending),
   ("ID", .cpuidPresent), ("AES", .aesNi), ("AI", .alternateInstructionSet)]

/-- The view names of R93. -/
def simdViews : List (String × View) := [("xmm", .xmm), ("ymm", .ymm), ("zmm", .zmm)]

/-- The type names of R14. -/
def typeNames : List (String × ElemType) :=
  [("i8", .i8), ("u8", .u8), ("i16", .i16), ("u16", .u16), ("i32", .i32), ("u32", .u32), ("i64", .i64), ("u64", .u64),
   ("f32", .f32), ("f64", .f64)]

/-- `<t>x<n>`: a type and a count, which must be the view's (R85, R93). The count has no leading zero (DESIGN CHOICE, log
entry 13). -/
def typeAndCount (vw : View) (cs : List Char) : Option ElemType :=
  match splitAt 'x' [] cs with
  | [t, n] => (named typeNames t).bind fun ty => if nameNumber n = some (elemCount vw ty) then some ty else none
  | _ => none

/-- A view and a type from `<view>` and `<t>x<n>`. -/
def viewAndType (vw tn : List Char) : Option (View × ElemType) :=
  (named simdViews vw).bind fun v => (typeAndCount v tn).map fun t => (v, t)

/-- `xmmN.<t>x<n>` and its like: a view, a type and a register (R94). -/
def simdViewName (cs : List Char) : Option (View × ElemType × RegIndex) :=
  match splitAt '.' [] cs with
  | [reg, tn] =>
    (viewAndType (reg.take 3) tn).bind fun p => (regIndex (reg.drop 3)).map fun i => (p.1, p.2, i)
  | _ => none

/-! ### Operands -/

/-- A flag constant, or constants joined by `|` (R25, R93). -/
def flagConstants : List Token → Option Word64
  | [.word cs] => (named flagNames cs).map Flag.mask
  | .word cs :: .bar :: rest => (named flagNames cs).bind fun f => (flagConstants rest).map fun m => f.mask ||| m
  | _ => none

/-- The mask of `flset`, `flclr` and `fltst` (R93): a number alone, a flag constant, or constants joined by `|`. -/
def flagMask : List Token → Option Word64
  | [.word cs] => (word64 cs).orElse fun _ => flagConstants [.word cs]
  | ts => flagConstants ts

/-- The elements after the first of a list, up to its `]`. `item` reads one element from the tokens before a comma. -/
def listTail {α : Type} (item : Bool → List Char → Option α) : List Token → Option (List α)
  | [.closeList] => some []
  | .comma :: .word cs :: rest => (item false cs).bind fun x => (listTail item rest).map (x :: ·)
  | .comma :: .minus :: .word cs :: rest => (item true cs).bind fun x => (listTail item rest).map (x :: ·)
  | _ => none

/-- A list `[x0, x1, ...]` or `[]`. -/
def listOf {α : Type} (item : Bool → List Char → Option α) : List Token → Option (List α)
  | [.openList, .closeList] => some []
  | .openList :: .word cs :: rest => (item false cs).bind fun x => (listTail item rest).map (x :: ·)
  | .openList :: .minus :: .word cs :: rest => (item true cs).bind fun x => (listTail item rest).map (x :: ·)
  | _ => none

/-- A byte of a list. -/
def byteItem (negative : Bool) (cs : List Char) : Option Byte := if negative then none else byteOf cs

/-- An element of a list (R92): a float is a hexadecimal bit pattern, and only a signed type has negative decimal numbers. An integer
written in hexadecimal stands for its value, and a pattern may leave out leading zeros (DESIGN CHOICE, log entry 13). -/
def elemItem (t : ElemType) (negative : Bool) (cs : List Char) : Option Int :=
  if t = .f32 ∨ t = .f64 then if negative then none else (hexNumber cs).map Int.ofNat
  else if negative then (if t.signed then (decNumber cs).map fun n => -(n : Int) else none)
  else (number cs).map Int.ofNat

/-! ### Commands (R93, R94) -/

/-- A read of a general register at a width. -/
def grdOf (w : Nat) (i : RegIndex) : Option Instr :=
  if w = 8 then some (.grd8 i)
  else if w = 16 then some (.grd16 i)
  else if w = 32 then some (.grd32 i)
  else if w = 64 then some (.grd64 i)
  else none

/-- A write of a general register at a width. -/
def gwrOf (w : Nat) (i : RegIndex) (a : Word64) : Option Instr :=
  if w = 8 then some (.gwr8 i a)
  else if w = 16 then some (.gwr16 i a)
  else if w = 32 then some (.gwr32 i a)
  else if w = 64 then some (.gwr64 i a)
  else none

/-- A mnemonic without suffix and its operands. -/
def plainCommand (m : List Char) (ops : List Token) : Option Instr :=
  if m = "alloc".toList then
    match ops with
    | [.word a, .comma, .word b] => (word64 a).bind fun x => (word64 b).map fun y => .alloc x y
    | _ => none
  else if m = "rdb".toList then
    match ops with
    | [.word a] => (word64 a).map .rdb
    | _ => none
  else if m = "rdbs".toList then
    match ops with
    | [.word a, .comma, .word b] => (word64 a).bind fun x => (word64 b).map fun y => .rdbs x y
    | _ => none
  else if m = "wrb".toList then
    match ops with
    | [.word a, .comma, .word b] => (word64 a).bind fun x => (byteOf b).map fun y => .wrb x (y.setWidth 64)
    | _ => none
  else if m = "wrbs".toList then
    match ops with
    | .word a :: .comma :: rest => (word64 a).bind fun x => (listOf byteItem rest).map fun bs => .wrbs x bs
    | _ => none
  else if m = "dname".toList then (if ops = [] then some .dname else none)
  else if m = "dstart".toList then (if ops = [] then some .dstart else none)
  else if m = "dend".toList then (if ops = [] then some .dend else none)
  else if m = "riprd".toList then (if ops = [] then some .riprd else none)
  else if m = "ripwr".toList then
    match ops with
    | [.word a] => (word64 a).map .ripwr
    | _ => none
  else if m = "flrd".toList then (if ops = [] then some .flrd else none)
  else if m = "flwr".toList then
    match ops with
    | [.word a] => (word64 a).map .flwr
    | _ => none
  else if m = "flset".toList then (flagMask ops).map .flset
  else if m = "flclr".toList then (flagMask ops).map .flclr
  else if m = "fltst".toList then (flagMask ops).map .fltst
  else if m = "rd".toList then
    match ops with
    | [.word r] =>
      if r = "rip".toList then some .riprd
      else if r = "rflags".toList then some .flrd
      else
        match viewName 0 r viewNames with
        | some (w, i) => grdOf w i
        | none => (simdViewName r).map fun p => vrdInstr p.2.2 p.1 p.2.1
    | _ => none
  else if m = "wr".toList then
    match ops with
    | .word r :: .comma :: rest =>
      match rest with
      | [.word a] =>
        if r = "rip".toList then (word64 a).map .ripwr
        else if r = "rflags".toList then (word64 a).map .flwr
        else (viewName 0 r viewNames).bind fun p => (word64 a).bind fun x => gwrOf p.1 p.2 x
      | _ => (simdViewName r).bind fun p => (listOf (elemItem p.2.1) rest).map fun es => vwrInstr p.2.2 es p.1 p.2.1
    | _ => none
  else none

/-- A mnemonic with suffixes and its operands. A width suffix is `8`, `16`, `32` or `64`, as R93 writes it, and no other spelling
(DESIGN CHOICE, log entry 13). -/
def suffixedCommand (m : List (List Char)) (ops : List Token) : Option Instr :=
  match m, ops with
  | [op, w], [.word r] =>
    if op = "grd".toList then (nameNumber w).bind fun n => (gprName r).bind fun i => grdOf n i else none
  | [op, w], [.word r, .comma, .word a] =>
    if op = "gwr".toList then
      (nameNumber w).bind fun n => (gprName r).bind fun i => (word64 a).bind fun x => gwrOf n i x
    else none
  | [op, vw, tn], [.word v] =>
    if op = "vrd".toList then (viewAndType vw tn).bind fun p => (simdName v).map fun i => vrdInstr i p.1 p.2 else none
  | [op, vw, tn], .word v :: .comma :: rest =>
    if op = "vwr".toList then
      (viewAndType vw tn).bind fun p =>
        (simdName v).bind fun i => (listOf (elemItem p.2) rest).map fun es => vwrInstr i es p.1 p.2
    else none
  | _, _ => none

/-- What a line of assembly gives. -/
inductive Line where
  /-- Nothing but space and a comment. -/
  | blank
  /-- One request. -/
  | request (q : Request)
  /-- The assembler rejects the line. -/
  | rejected
deriving DecidableEq, Repr

/-- The command of a line's tokens. -/
def command : List Token → Option Instr
  | .word m :: ops =>
    match splitAt '.' [] m with
    | [op] => plainCommand op ops
    | suffixed => suffixedCommand suffixed ops
  | _ => none

/-- Assemble one line (R92, R93). A line whose elements do not fit its type and view is rejected; one with no command on it is blank
(DESIGN CHOICE, log entry 13). -/
def assemble (line : String) : Line :=
  match tokens [] line.toList with
  | none => .rejected
  | some [] => .blank
  | some ts =>
    match command ts with
    | none => .rejected
    | some i => if i.wf then .request (encode i) else .rejected

end Sys2Proof.Machine.Asm
end

