-- ==== Sys2Proof/Safety.lean ====
section
/-! DEFINITION. What a sound state and a safe run are, and the terms the statements about the machine use. -/

namespace Sys2Proof

/-! ### What a command may write and read -/

/-- The general register a command writes (R21): only `GWRw` writes one. -/
def Instr.gprTarget : Instr → Option RegIndex
  | .gwr8 r _ => some r
  | .gwr16 r _ => some r
  | .gwr32 r _ => some r
  | .gwr64 r _ => some r
  | _ => none

/-- The commands that write `RIP` (R24). -/
def Instr.writesRip : Instr → Bool
  | .ripwr _ => true
  | _ => false

/-- The commands that write `RFLAGS` (R25). -/
def Instr.writesRflags : Instr → Bool
  | .flwr _ => true
  | .flset _ => true
  | .flclr _ => true
  | _ => false

/-- The commands that change `SEGS` (R27). -/
def Instr.writesMemory : Instr → Bool
  | .alloc _ _ => true
  | .wrb _ _ => true
  | .wrbs _ _ => true
  | _ => false

/-- The SIMD register a command writes (R197): only a `VWR` writes one. -/
def Instr.simdTarget : Instr → Option RegIndex
  | .vwrXmmI8x16 v _ => some v
  | .vwrYmmI8x32 v _ => some v
  | .vwrZmmI8x64 v _ => some v
  | .vwrXmmU8x16 v _ => some v
  | .vwrYmmU8x32 v _ => some v
  | .vwrZmmU8x64 v _ => some v
  | .vwrXmmI16x8 v _ => some v
  | .vwrYmmI16x16 v _ => some v
  | .vwrZmmI16x32 v _ => some v
  | .vwrXmmU16x8 v _ => some v
  | .vwrYmmU16x16 v _ => some v
  | .vwrZmmU16x32 v _ => some v
  | .vwrXmmI32x4 v _ => some v
  | .vwrYmmI32x8 v _ => some v
  | .vwrZmmI32x16 v _ => some v
  | .vwrXmmU32x4 v _ => some v
  | .vwrYmmU32x8 v _ => some v
  | .vwrZmmU32x16 v _ => some v
  | .vwrXmmI64x2 v _ => some v
  | .vwrYmmI64x4 v _ => some v
  | .vwrZmmI64x8 v _ => some v
  | .vwrXmmU64x2 v _ => some v
  | .vwrYmmU64x4 v _ => some v
  | .vwrZmmU64x8 v _ => some v
  | .vwrXmmF32x4 v _ => some v
  | .vwrYmmF32x8 v _ => some v
  | .vwrZmmF32x16 v _ => some v
  | .vwrXmmF64x2 v _ => some v
  | .vwrYmmF64x4 v _ => some v
  | .vwrZmmF64x8 v _ => some v
  | _ => none

/-- The commands that read a register (R215): all that can answer `UNWRITTEN`. -/
def Instr.readsRegister : Instr → Bool
  | .grd8 _ => true
  | .grd16 _ => true
  | .grd32 _ => true
  | .grd64 _ => true
  | .riprd => true
  | .flrd => true
  | .flset _ => true
  | .flclr _ => true
  | .fltst _ => true
  | .vrdXmmI8x16 _ => true
  | .vrdYmmI8x32 _ => true
  | .vrdZmmI8x64 _ => true
  | .vrdXmmU8x16 _ => true
  | .vrdYmmU8x32 _ => true
  | .vrdZmmU8x64 _ => true
  | .vrdXmmI16x8 _ => true
  | .vrdYmmI16x16 _ => true
  | .vrdZmmI16x32 _ => true
  | .vrdXmmU16x8 _ => true
  | .vrdYmmU16x16 _ => true
  | .vrdZmmU16x32 _ => true
  | .vrdXmmI32x4 _ => true
  | .vrdYmmI32x8 _ => true
  | .vrdZmmI32x16 _ => true
  | .vrdXmmU32x4 _ => true
  | .vrdYmmU32x8 _ => true
  | .vrdZmmU32x16 _ => true
  | .vrdXmmI64x2 _ => true
  | .vrdYmmI64x4 _ => true
  | .vrdZmmI64x8 _ => true
  | .vrdXmmU64x2 _ => true
  | .vrdYmmU64x4 _ => true
  | .vrdZmmU64x8 _ => true
  | .vrdXmmF32x4 _ => true
  | .vrdYmmF32x8 _ => true
  | .vrdZmmF32x16 _ => true
  | .vrdXmmF64x2 _ => true
  | .vrdYmmF64x4 _ => true
  | .vrdZmmF64x8 _ => true
  | _ => false

namespace Machine

/-! ### Sound states and safe runs -/

/-- `BACKED` does not pass `BACKING_LIMIT` (R110). -/
def State.withinLimit (s : State) : Bool := !overCapacity s 0

/-- The invariant of the block: a legal configuration (R6), the segment table as R28 says it always is, with its bytes in canonical
form, the backing limit kept (R110), and no containment failure (R58). -/
def State.sound (s : State) : Bool :=
  s.cfg.legal && Memory.wf s.segs && s.withinLimit && s.fatal != .set .containment

/-- A run is safe while `FATAL` stays `CLEAR`: the premise R216 gives a claim about a command sequence. -/
def State.safe (s : State) : Bool := s.fatal == .clear

/-! ### Addresses -/

/-- The segment contains the address (R27). -/
def Segment.covers (S : Segment) (a : Nat) : Prop := S.start ≤ a ∧ a < S.start + S.len

/-- The address is a multiple of `ALIGN` (R52). -/
def State.aligned (s : State) (a : Word64) : Prop := a.toNat % s.cfg.align = 0

/-- The address is in the window `[BASE, BASE + pow2ceil(REQ_SIZE))` (R6, R50). -/
def State.inside (s : State) (a : Word64) : Prop :=
  s.cfg.base.toNat ≤ a.toNat ∧ a.toNat < s.cfg.base.toNat + pow2ceil s.cfg.reqSize.toNat

/-- No segment contains the address (R54). -/
def State.unmapped (s : State) (a : Nat) : Prop := ∀ S ∈ s.segs, ¬ S.covers a

/-- `S`, between `pre` and `post` in the table, is the first segment that contains the address (R55). -/
def State.mapsAt (s : State) (pre : Memory) (S : Segment) (post : Memory) (a : Nat) : Prop :=
  s.segs = pre ++ S :: post ∧ (∀ T ∈ pre, ¬ T.covers a) ∧ S.covers a

/-- The table is in ascending order of `start` (R27). -/
def ascending (m : Memory) : Prop := m.Pairwise fun S T => S.start < T.start

/-- `zeros(n)` (R9). -/
def zeros (n : Nat) : List Byte := List.replicate n 0

/-! ### Responses -/

/-- The payload fields of a response to the command word `w`, as far as the word and the status decide them (R88): a field the status
does not name is 0, `P0` of `ILLEGAL_COMMAND` and `UNWRITTEN` is `zext_64(CMD)`, and `P0` of `FATAL` is a sub-code. The addresses and
the size that `OUT_OF_BOUNDS`, `UNALIGNED` and `ADDRESS_ALREADY_MAPPED` record are left open here. -/
def Status.payloadFits (w : CmdWord) (st : Status) (p0 p1 : Word64) : Prop :=
  match st with
  | .ok => p0 = 0 ∧ p1 = 0
  | .outOfBounds => True
  | .unaligned => p1 = 0
  | .addressNotMapped => p0 = 0 ∧ p1 = 0
  | .addressAlreadyMapped => p1 = 0
  | .illegalCommand => p0 = w.setWidth 64 ∧ p1 = 0
  | .unwritten => p0 = w.setWidth 64 ∧ p1 = 0
  | .fatal => (∃ sub : FatalSub, p0 = sub.code) ∧ p1 = 0

/-! ### Unwritten bytes (R34) -/

/-- Two states that differ at most in the values of register bytes no write has set (R34). -/
def State.sameWritten (s t : State) : Prop :=
  s.segs = t.segs ∧ s.fatal = t.fatal ∧ s.cfg = t.cfg ∧ s.inputs = t.inputs ∧ s.responses = t.responses ∧
  s.gprValid = t.gprValid ∧ s.ripValid = t.ripValid ∧ s.rflagsValid = t.rflagsValid ∧ s.simdValid = t.simdValid ∧
  (∀ (i : RegIndex) (k : Nat), s.gprValid[i.val].getLsbD (k / 8) = true →
    s.gpr[i.val].getLsbD k = t.gpr[i.val].getLsbD k) ∧
  (∀ k : Nat, s.ripValid.getLsbD (k / 8) = true → s.rip.getLsbD k = t.rip.getLsbD k) ∧
  (∀ k : Nat, s.rflagsValid.getLsbD (k / 8) = true → s.rflags.getLsbD k = t.rflags.getLsbD k) ∧
  (∀ (i : RegIndex) (k : Nat), s.simdValid[i.val].getLsbD k = true → s.simd[i.val][k]! = t.simd[i.val][k]!)

end Machine

end Sys2Proof
end

