-- ==== Sys2Proof/Certificates/Slice0/Obligations.lean ====
section
/-! DEFINITION. The statements for the provers. -/

open Sys2Proof Sys2Proof.Machine

/-- Decoding the encoding of any command gives the command back. It rests on 30_encoding.md section 2 (opcode map),
30_encoding.md section 3 (decode). -/
def Obligations.DecodeEncodeRoundTrip : Prop :=
  ∀ i : Instr, decode (encode i) = .ok i

/-- A request that decodes to a command carries exactly that command's word. It rests on 30_encoding.md section 2 (opcode map),
30_encoding.md section 3 (decode). -/
def Obligations.DecodedCommandKeepsItsWord : Prop :=
  ∀ (q : Request) (i : Instr), decode q = .ok i → (encode i).cmd = q.cmd

/-- A word is illegal exactly when R87 (a) to (d) say so, and then only ILLEGAL_COMMAND is answered. It formalises R87. -/
def Obligations.IllegalWordsExactly : Prop :=
  ∀ (s : State) (q : Request) (rest : List Input), s.inputs = .command q :: rest → s.fatal = .clear →
    let opc := (q.cmd.extractLsb' 24 8).toNat
    let formatN := [0x01, 0x02, 0x03, 0x04, 0x05, 0x06, 0x07, 0x08, 0x18, 0x19, 0x1A, 0x1B, 0x1C, 0x1D, 0x1E]
    let formatG := [0x10, 0x11, 0x12, 0x13, 0x14, 0x15, 0x16, 0x17]
    let formatV := [0x20, 0x21]
    let illegal :=
      (opc ∉ formatN ∧ opc ∉ formatG ∧ opc ∉ formatV) ∨
      (opc ∈ formatN ∧ q.cmd.extractLsb' 0 24 ≠ 0) ∨
      (opc ∈ formatG ∧ q.cmd.extractLsb' 4 20 ≠ 0) ∨
      (opc ∈ formatV ∧ q.cmd.extractLsb' 10 14 ≠ 0) ∨
      (opc ∈ formatV ∧ (q.cmd.extractLsb' 4 2).toNat = 3) ∨
      (opc ∈ formatV ∧ 10 ≤ (q.cmd.extractLsb' 6 4).toNat)
    (illegal → step s = .next ({ s with inputs := rest }.respond ⟨.illegalCommand, q.cmd.setWidth 64, 0, .none⟩)) ∧
    (¬ illegal → ∃ i, decode q = .ok i)

/-- The encoding examples of R95 assemble and decode as R95 lists them. It formalises R95. -/
def Obligations.EncodingExamplesDecode : Prop :=
  Asm.assemble "alloc 0, 1024" = .request ⟨0x01000000, 0, 1024, [], []⟩ ∧
  Asm.assemble "grd.32 r0" = .request ⟨0x12000000, 0, 0, [], []⟩ ∧
  Asm.assemble "rd eax" = .request ⟨0x12000000, 0, 0, [], []⟩ ∧
  Asm.assemble "gwr.64 r0, 0x1234567890abcdef" = .request ⟨0x17000000, 0x1234567890abcdef, 0, [], []⟩ ∧
  Asm.assemble "wr rax, 0x1234567890abcdef" = .request ⟨0x17000000, 0x1234567890abcdef, 0, [], []⟩ ∧
  Asm.assemble "gwr.8 r15, 7" = .request ⟨0x1400000F, 7, 0, [], []⟩ ∧
  Asm.assemble "wr r15b, 7" = .request ⟨0x1400000F, 7, 0, [], []⟩ ∧
  Asm.assemble "vrd.xmm.i8x16 v0" = .request ⟨0x20000000, 0, 0, [], []⟩ ∧
  Asm.assemble "vrd.ymm.u16x16 v5" = .request ⟨0x200000D5, 0, 0, [], []⟩ ∧
  Asm.assemble "vwr.zmm.f64x8 v3, [0x1, 0x2, 0x3, 0x4, 0x5, 0x6, 0x7, 0x8]" =
    .request ⟨0x21000263, 0, 0, [], [1, 2, 3, 4, 5, 6, 7, 8]⟩ ∧
  decode ⟨0x01000000, 0, 1024, [], []⟩ = .ok (.alloc 0 1024) ∧
  decode ⟨0x12000000, 0, 0, [], []⟩ = .ok (.grd32 0) ∧
  decode ⟨0x17000000, 0x1234567890abcdef, 0, [], []⟩ = .ok (.gwr64 0 0x1234567890abcdef) ∧
  decode ⟨0x1400000F, 7, 0, [], []⟩ = .ok (.gwr8 15 7) ∧
  decode ⟨0x20000000, 0, 0, [], []⟩ = .ok (.vrdXmmI8x16 0) ∧
  decode ⟨0x200000D5, 0, 0, [], []⟩ = .ok (.vrdYmmU16x16 5) ∧
  (∀ es, decode ⟨0x21000263, 0, 0, [], es⟩ = .ok (.vwrZmmF64x8 3 es)) ∧
  decode ⟨0x00000000, 0, 0, [], []⟩ = .error .reservedOpcode ∧
  decode ⟨0x12000010, 0, 0, [], []⟩ = .error .reservedBit ∧
  decode ⟨0x20000030, 0, 0, [], []⟩ = .error .reservedView ∧
  decode ⟨0x20000280, 0, 0, [], []⟩ = .error .reservedElemType

/-- Every request the assembler gives decodes to a well-formed command. It rests on 30_encoding.md section 5 (assembler syntax).
-/
def Obligations.AssembledLinesDecodeWellFormed : Prop :=
  ∀ (line : String) (q : Request), Asm.assemble line = .request q → ∃ i, decode q = .ok i ∧ i.wf = true

/-- A step performs the command the next request decodes to. It rests on 60_exceptions.md section 1 (R211). -/
def Obligations.StepRunsTheDecodedCommand : Prop :=
  ∀ (s : State) (q : Request) (rest : List Input) (i : Instr), s.inputs = .command q :: rest → decode q = .ok i →
    step s = exec i { s with inputs := rest }

/-- FATAL is sticky, and raising it changes nothing else. It formalises R216. -/
def Obligations.FatalIsStickyAndPrecise : Prop :=
  (∀ (s : State) (q : Request) (rest : List Input) (sub : FatalSub), s.inputs = .command q :: rest → s.fatal = .set sub →
    step s = .next ({ s with inputs := rest }.respond ⟨.fatal, sub.code, 0, .none⟩)) ∧
  (∀ (i : Instr) (s t : State) (sub : FatalSub), s.fatal = .clear → exec i s = .next t → t.fatal = .set sub →
    t = { s with fatal := .set sub }.respond ⟨.fatal, sub.code, 0, .none⟩) ∧
  (∀ (s : State) (cfg : Config) (rest : List Input), s.inputs = .reset cfg :: rest → cfg.legal = true →
    ∃ t, step s = .next t ∧ t.fatal = .clear) ∧
  Status.fatal.code = 7

/-- Every request is answered, with exactly one response, whose unused fields are 0 and NONE. The command word and the sub-code in
`P0` are said too (`Status.payloadFits`); the addresses and sizes in `P0` and `P1` are not: the statements about each command say
them. It rests on 30_encoding.md section 3 (the response record of R88) and 00_scope.md section 4 (R13). -/
def Obligations.EveryRequestGetsOneResponse : Prop :=
  ∀ (s : State) (q : Request) (rest : List Input), s.inputs = .command q :: rest →
    ∃ t r, step s = .next t ∧ t.inputs = rest ∧ t.responses = s.responses ++ [r] ∧
      (r.st ≠ .ok → r.res = .none) ∧ r.st.payloadFits q.cmd r.p0 r.p1

/-- A recoverable status leaves all state unchanged. It formalises R217. -/
def Obligations.RecoverableStatusesChangeNothing : Prop :=
  ∀ (s t : State) (q : Request) (rest : List Input) (r : Response), s.inputs = .command q :: rest → step s = .next t →
    t.responses = s.responses ++ [r] → r.st ≠ .ok → r.st ≠ .fatal → t = { s with inputs := rest }.respond r

/-- Each failure status is raised only by the commands R212 lists for it. It rests on R212. -/
def Obligations.StatusesComeOnlyFromTheirCommands : Prop :=
  ∀ (i : Instr) (s t : State) (r : Response), s.fatal = .clear → exec i s = .next t → t.responses = s.responses ++ [r] →
    (r.st = .outOfBounds → (∃ a b, i = .alloc a b) ∨ (∃ a, i = .rdb a) ∨ (∃ a b, i = .rdbs a b) ∨ (∃ a b, i = .wrb a b) ∨
      ∃ a d, i = .wrbs a d) ∧
    ((r.st = .unaligned ∨ r.st = .addressNotMapped) →
      (∃ a, i = .rdb a) ∨ (∃ a b, i = .rdbs a b) ∨ (∃ a b, i = .wrb a b) ∨ ∃ a d, i = .wrbs a d) ∧
    (r.st = .addressAlreadyMapped → ∃ a b, i = .alloc a b) ∧
    (r.st = .illegalCommand → i.simdTarget ≠ none ∧ i.wf = false) ∧
    (r.st = .unwritten → s.cfg.regReset = RegReset.poison ∧ i.readsRegister = true) ∧
    (r.st = .fatal → (r.p0 = 2 ∧ ((∃ a b, i = .rdbs a b) ∨ ∃ a d, i = .wrbs a d)) ∨
      ((r.p0 = 3 ∨ r.p0 = 4) ∧ ∃ a b, i = .alloc a b))

/-- Nothing but reset clears FATAL. It rests on R33. -/
def Obligations.OnlyResetClearsFatal : Prop :=
  ∀ (s t : State) (sub : FatalSub), s.fatal = .set sub → step s = .next t →
    t.fatal = .set sub ∨ ∃ cfg rest, s.inputs = .reset cfg :: rest

/-- A reset with a legal configuration gives the state of R37; an illegal one is refused. It rests on R37, R240, R6. -/
def Obligations.ResetConstructsTheBlock : Prop :=
  ∀ (s : State) (cfg : Config) (rest : List Input), s.inputs = .reset cfg :: rest →
    ((1 ≤ cfg.align ∧ cfg.base.toNat + pow2ceil cfg.reqSize.toNat < 2 ^ 64) →
      ∃ t, step s = .next t ∧ t.segs = [] ∧ t.fatal = .clear ∧ t.cfg = cfg ∧ t.inputs = rest ∧ t.responses = s.responses ∧
        (∀ i : RegIndex, t.gprValid[i.val] = 0 ∧ t.simdValid[i.val] = 0) ∧ t.ripValid = 0 ∧ t.rflagsValid = 0 ∧
        (cfg.regReset = .zero →
          (∀ i : RegIndex, t.gpr[i.val] = 0) ∧ t.rip = 0 ∧ t.rflags = 0 ∧
          (∀ (i : RegIndex) (k : Nat), k < 64 → t.simd[i.val][k]! = 0))) ∧
    (¬ (1 ≤ cfg.align ∧ cfg.base.toNat + pow2ceil cfg.reqSize.toNat < 2 ^ 64) → step s = .refused .illegalConfiguration)

/-- The state after reset is sound, for every legal configuration. It rests on R28, R37, R110. -/
def Obligations.ResetIsSound : Prop :=
  (∀ cfg : Config, cfg.legal = true → (State.construct cfg).sound = true) ∧ State.reset.sound = true

/-- Every step keeps the invariant of the block. It rests on R28, R110, R58, R6. -/
def Obligations.StepKeepsSound : Prop :=
  ∀ s t : State, s.sound = true → step s = .next t → t.sound = true

/-- No segment is removed, and none shrinks. It rests on R28. -/
def Obligations.SegmentsOnlyGrow : Prop :=
  ∀ (i : Instr) (s t : State), Memory.wf s.segs = true → exec i s = .next t →
    s.segs.length ≤ t.segs.length ∧
    ∀ S ∈ s.segs, ∃ T ∈ t.segs, T.start ≤ S.start ∧ S.start + S.len ≤ T.start + T.len

/-- ALLOC never changes a byte stored in a segment. It rests on R124. -/
def Obligations.AllocKeepsStoredBytes : Prop :=
  ∀ (hint size : Word64) (s t : State), Memory.wf s.segs = true → exec (.alloc hint size) s = .next t →
    ∀ S ∈ s.segs, ∃ T ∈ t.segs, ∀ a, S.covers a →
      T.covers a ∧ T.data.getD (a - T.start) 0 = S.data.getD (a - S.start) 0

/-- RDB: the checks in their order, then the byte of the first segment that contains the address. It formalises R113. -/
def Obligations.ReadByteOutcome : Prop :=
  ∀ (s : State) (a : Word64), s.fatal = .clear →
    (∀ b d e, decode ⟨0x02000000, a, b, d, e⟩ = .ok (.rdb a)) ∧
    (¬ s.aligned a → exec (.rdb a) s = .next (s.respond ⟨.unaligned, a, 0, .none⟩)) ∧
    (s.aligned a → ¬ s.inside a → exec (.rdb a) s = .next (s.respond ⟨.outOfBounds, a, 1, .none⟩)) ∧
    (s.aligned a → s.inside a → s.unmapped a.toNat →
      exec (.rdb a) s = .next (s.respond ⟨.addressNotMapped, 0, 0, .none⟩)) ∧
    (s.aligned a → s.inside a → ∀ pre S post, s.mapsAt pre S post a.toNat →
      exec (.rdb a) s = .next (s.respond ⟨.ok, 0, 0, .word 8 (S.data.getD (a.toNat - S.start) 0)⟩))

/-- RDBS: the checks in their order, then the bytes of the range, or FATAL(SPAN) past the segment's end. It formalises R114. -/
def Obligations.ReadRangeOutcome : Prop :=
  ∀ (s : State) (a n : Word64), s.fatal = .clear →
    (∀ d e, decode ⟨0x03000000, a, n, d, e⟩ = .ok (.rdbs a n)) ∧
    (¬ s.aligned a → exec (.rdbs a n) s = .next (s.respond ⟨.unaligned, a, 0, .none⟩)) ∧
    (s.aligned a → ¬ s.inside a → exec (.rdbs a n) s = .next (s.respond ⟨.outOfBounds, a, n, .none⟩)) ∧
    (s.aligned a → s.inside a → s.unmapped a.toNat →
      exec (.rdbs a n) s = .next (s.respond ⟨.addressNotMapped, 0, 0, .none⟩)) ∧
    (s.aligned a → s.inside a → ∀ pre S post, s.mapsAt pre S post a.toNat →
      (S.start + S.len < a.toNat + n.toNat →
        exec (.rdbs a n) s = .next ({ s with fatal := .set .span }.respond ⟨.fatal, 2, 0, .none⟩)) ∧
      (a.toNat + n.toNat ≤ S.start + S.len →
        exec (.rdbs a n) s = .next (s.respond ⟨.ok, 0, 0, .bytes ((S.data.drop (a.toNat - S.start)).take n.toNat)⟩)))

/-- WRB: the checks in their order, then one byte of the first containing segment. It formalises R115. -/
def Obligations.WriteByteOutcome : Prop :=
  ∀ (s : State) (a v : Word64), s.fatal = .clear → Memory.wf s.segs = true →
    (∀ d e, decode ⟨0x04000000, a, v, d, e⟩ = .ok (.wrb a v)) ∧
    (¬ s.aligned a → exec (.wrb a v) s = .next (s.respond ⟨.unaligned, a, 0, .none⟩)) ∧
    (s.aligned a → ¬ s.inside a → exec (.wrb a v) s = .next (s.respond ⟨.outOfBounds, a, 1, .none⟩)) ∧
    (s.aligned a → s.inside a → s.unmapped a.toNat →
      exec (.wrb a v) s = .next (s.respond ⟨.addressNotMapped, 0, 0, .none⟩)) ∧
    (s.aligned a → s.inside a → ∀ pre S post, s.mapsAt pre S post a.toNat →
      ∃ T : Segment, T.wf = true ∧ T.start = S.start ∧ T.len = S.len ∧
        T.data = S.data.set (a.toNat - S.start) (v.extractLsb' 0 8) ∧
        exec (.wrb a v) s = .next ({ s with segs := pre ++ T :: post }.respond ⟨.ok, 0, 0, .none⟩))

/-- WRBS: the checks in their order, then the bytes of the range in the first containing segment. It rests on R116, R57. -/
def Obligations.WriteRangeOutcome : Prop :=
  ∀ (s : State) (a : Word64) (d : List Byte), s.fatal = .clear → Memory.wf s.segs = true →
    (∀ b e, decode ⟨0x05000000, a, b, d, e⟩ = .ok (.wrbs a d)) ∧
    (¬ s.aligned a → exec (.wrbs a d) s = .next (s.respond ⟨.unaligned, a, 0, .none⟩)) ∧
    (s.aligned a → ¬ s.inside a →
      ∃ p1 : Word64, (d.length < 2 ^ 64 → p1.toNat = d.length) ∧
        exec (.wrbs a d) s = .next (s.respond ⟨.outOfBounds, a, p1, .none⟩)) ∧
    (s.aligned a → s.inside a → s.unmapped a.toNat →
      exec (.wrbs a d) s = .next (s.respond ⟨.addressNotMapped, 0, 0, .none⟩)) ∧
    (s.aligned a → s.inside a → ∀ pre S post, s.mapsAt pre S post a.toNat →
      (S.start + S.len < a.toNat + d.length →
        exec (.wrbs a d) s = .next ({ s with fatal := .set .span }.respond ⟨.fatal, 2, 0, .none⟩)) ∧
      (a.toNat + d.length ≤ S.start + S.len →
        ∃ T : Segment, T.wf = true ∧ T.start = S.start ∧ T.len = S.len ∧
          T.data = S.data.take (a.toNat - S.start) ++ d ++ S.data.drop (a.toNat - S.start + d.length) ∧
          exec (.wrbs a d) s = .next ({ s with segs := pre ++ T :: post }.respond ⟨.ok, 0, 0, .none⟩)))

/-- WRB and WRBS leave every byte of memory outside their range as it was. It rests on R57, R115, R116. -/
def Obligations.StoresTouchOnlyTheirBytes : Prop :=
  ∀ (s t : State) (a v : Word64) (d : List Byte), Memory.wf s.segs = true →
    (exec (.wrb a v) s = .next t → ∀ k, k ≠ a.toNat → Memory.byteAt t.segs k = Memory.byteAt s.segs k) ∧
    (exec (.wrbs a d) s = .next t → ∀ k, ¬ (a.toNat ≤ k ∧ k < a.toNat + d.length) →
      Memory.byteAt t.segs k = Memory.byteAt s.segs k)

/-- After WRBS, RDBS over any part of the range returns the matching slice, and RDB its byte. It rests on R60, R66. -/
def Obligations.ReadAfterWriteReturnsTheSlice : Prop :=
  ∀ (s t : State) (a b n : Word64) (d : List Byte) (k : Nat), Memory.wf s.segs = true →
    exec (.wrbs a d) s = .next t → t.responses = s.responses ++ [⟨.ok, 0, 0, .none⟩] →
    b.toNat = a.toNat + k → s.aligned b → s.inside b →
    (0 < n.toNat → k + n.toNat ≤ d.length →
      exec (.rdbs b n) t = .next (t.respond ⟨.ok, 0, 0, .bytes ((d.drop k).take n.toNat)⟩)) ∧
    (k < d.length → exec (.rdb b) t = .next (t.respond ⟨.ok, 0, 0, .word 8 (d.getD k 0)⟩))

/-- FATAL(CONTAINMENT) is unreachable. It rests on R58. -/
def Obligations.ContainmentIsNeverRaised : Prop :=
  ∀ (i : Instr) (s t : State), s.fatal = .clear → exec i s = .next t → t.fatal ≠ .set .containment

/-- Before any ALLOC every DRAM access fails, by the check order, and the device identity works. It formalises R241. -/
def Obligations.EmptyTableAccessesFail : Prop :=
  (∀ cfg : Config, (State.construct cfg).fatal = .clear ∧ (State.construct cfg).segs = []) ∧
  ∀ (s : State) (i : Instr) (a : Word64), s.fatal = .clear → s.segs = [] →
    ((i = .rdb a ∨ (∃ n, i = .rdbs a n) ∨ (∃ v, i = .wrb a v) ∨ ∃ d, i = .wrbs a d) →
      ∃ r, exec i s = .next (s.respond r) ∧ r.res = .none ∧
        (¬ s.aligned a → r.st = .unaligned) ∧
        (s.aligned a → ¬ s.inside a → r.st = .outOfBounds) ∧
        (s.aligned a → s.inside a → r.st = .addressNotMapped)) ∧
    ((i = .dname ∨ i = .dstart ∨ i = .dend) → ∃ r, exec i s = .next (s.respond r) ∧ r.st = .ok)

/-- DNAME, DSTART and DEND answer the name, BASE and BASE + DRAM_SIZE. It formalises R117, R118, R119. -/
def Obligations.DeviceIdentityIsTheConfiguration : Prop :=
  ∀ s : State, s.fatal = .clear →
    (∀ a b d e, decode ⟨0x06000000, a, b, d, e⟩ = .ok .dname ∧ decode ⟨0x07000000, a, b, d, e⟩ = .ok .dstart ∧
      decode ⟨0x08000000, a, b, d, e⟩ = .ok .dend) ∧
    exec .dname s = .next (s.respond ⟨.ok, 0, 0, .bytes s.cfg.deviceName⟩) ∧
    exec .dstart s = .next (s.respond ⟨.ok, 0, 0, .word 64 s.cfg.base⟩) ∧
    (s.cfg.legal = true → ∃ e : Word64, e.toNat = s.cfg.base.toNat + pow2ceil s.cfg.reqSize.toNat ∧
      exec .dend s = .next (s.respond ⟨.ok, 0, 0, .word 64 e⟩)) ∧
    ∃ e : Word64, exec .dend s = .next (s.respond ⟨.ok, 0, 0, .word 64 e⟩)

/-- ALLOC: OUT_OF_BOUNDS, then FATAL(OVERFLOW), then ADDRESS_ALREADY_MAPPED with the containing segment's start. It rests on
R111, R121, R214. -/
def Obligations.AllocRejections : Prop :=
  ∀ (s : State) (hint size : Word64), s.fatal = .clear →
    let addr := hint.toNat - hint.toNat % 4096
    let raw := size.toNat + hint.toNat % 4096
    let len := if raw < 4096 then 4096 else pow2ceil raw
    (pow2ceil s.cfg.reqSize.toNat < size.toNat →
      exec (.alloc hint size) s = .next (s.respond ⟨.outOfBounds, hint, size, .none⟩)) ∧
    (size.toNat ≤ pow2ceil s.cfg.reqSize.toNat → (2 ^ 64 ≤ len ∨ 2 ^ 64 < addr + len) →
      exec (.alloc hint size) s = .next ({ s with fatal := .set .overflow }.respond ⟨.fatal, 3, 0, .none⟩)) ∧
    (size.toNat ≤ pow2ceil s.cfg.reqSize.toNat → len < 2 ^ 64 → addr + len ≤ 2 ^ 64 → ∀ pre S post, s.mapsAt pre S post addr →
      ascending s.segs → (∀ T ∈ pre, T.start + T.len ≠ addr) →
      exec (.alloc hint size) s = .next (s.respond ⟨.addressAlreadyMapped, BitVec.ofNat 64 S.start, 0, .none⟩))

/-- ALLOC with no segment in reach inserts one zero-filled segment, disjoint from every other. It rests on R111, R112, R120. -/
def Obligations.AllocFreshSegment : Prop :=
  ∀ (s : State) (hint size : Word64), s.fatal = .clear →
    let addr := hint.toNat - hint.toNat % 4096
    let raw := size.toNat + hint.toNat % 4096
    let len := if raw < 4096 then 4096 else pow2ceil raw
    let noCase := fun S : Segment => ¬ S.covers addr ∧ S.start + S.len ≠ addr ∧
      ¬ (addr < S.start ∧ (S.start < addr + len ∨ (s.cfg.backwardMergeAdjacent = true ∧ addr + len = S.start)))
    size.toNat ≤ pow2ceil s.cfg.reqSize.toNat → len < 2 ^ 64 → addr + len ≤ 2 ^ 64 →
    Memory.wf s.segs = true → (∀ S ∈ s.segs, noCase S) →
    ((∃ limit, s.cfg.backingLimit = some limit ∧ limit < (s.segs.map Segment.len).sum + len) →
      exec (.alloc hint size) s = .next ({ s with fatal := .set .capacity }.respond ⟨.fatal, 4, 0, .none⟩)) ∧
    (¬ (∃ limit, s.cfg.backingLimit = some limit ∧ limit < (s.segs.map Segment.len).sum + len) →
      ∃ (T : Segment) (m : Memory), T.start = addr ∧ T.len = len ∧ T.data = zeros len ∧ T.wf = true ∧
        m.Perm (T :: s.segs) ∧ ascending m ∧ (∀ S ∈ s.segs, ∀ a, ¬ (S.covers a ∧ T.covers a)) ∧
        exec (.alloc hint size) s = .next ({ s with segs := m }.respond ⟨.ok, 0, 0, .word 64 (BitVec.ofNat 64 addr)⟩))

/-- ALLOC at a segment's exact end appends zeros to it and answers its unchanged start. It formalises R122. -/
def Obligations.AllocExtendsAtTheEnd : Prop :=
  ∀ (s : State) (hint size : Word64), s.fatal = .clear →
    let addr := hint.toNat - hint.toNat % 4096
    let raw := size.toNat + hint.toNat % 4096
    let len := if raw < 4096 then 4096 else pow2ceil raw
    let noCase := fun S : Segment => ¬ S.covers addr ∧ S.start + S.len ≠ addr ∧
      ¬ (addr < S.start ∧ (S.start < addr + len ∨ (s.cfg.backwardMergeAdjacent = true ∧ addr + len = S.start)))
    size.toNat ≤ pow2ceil s.cfg.reqSize.toNat → len < 2 ^ 64 → addr + len ≤ 2 ^ 64 →
    Memory.wf s.segs = true → ∀ pre S post, s.segs = pre ++ S :: post → (∀ T ∈ pre, noCase T) → S.start + S.len = addr →
    ((∃ limit, s.cfg.backingLimit = some limit ∧ limit < (s.segs.map Segment.len).sum + len) →
      exec (.alloc hint size) s = .next ({ s with fatal := .set .capacity }.respond ⟨.fatal, 4, 0, .none⟩)) ∧
    (¬ (∃ limit, s.cfg.backingLimit = some limit ∧ limit < (s.segs.map Segment.len).sum + len) →
      ∃ T : Segment, T.start = S.start ∧ T.data = S.data ++ zeros len ∧ T.wf = true ∧
        exec (.alloc hint size) s =
          .next ({ s with segs := pre ++ T :: post }.respond ⟨.ok, 0, 0, .word 64 (BitVec.ofNat 64 S.start)⟩))

/-- ALLOC that reaches into a later segment moves that segment's start down and keeps its bytes at their addresses. It rests on
R111, R120, R124. -/
def Obligations.AllocGrowsBackward : Prop :=
  ∀ (s : State) (hint size : Word64), s.fatal = .clear →
    let addr := hint.toNat - hint.toNat % 4096
    let raw := size.toNat + hint.toNat % 4096
    let len := if raw < 4096 then 4096 else pow2ceil raw
    let noCase := fun S : Segment => ¬ S.covers addr ∧ S.start + S.len ≠ addr ∧
      ¬ (addr < S.start ∧ (S.start < addr + len ∨ (s.cfg.backwardMergeAdjacent = true ∧ addr + len = S.start)))
    size.toNat ≤ pow2ceil s.cfg.reqSize.toNat → len < 2 ^ 64 → addr + len ≤ 2 ^ 64 →
    Memory.wf s.segs = true → ∀ pre S post, s.segs = pre ++ S :: post → (∀ T ∈ pre, noCase T) → addr < S.start →
    (S.start < addr + len ∨ (s.cfg.backwardMergeAdjacent = true ∧ addr + len = S.start)) →
    let newLen := max len (S.start + S.len - addr)
    ((∃ limit, s.cfg.backingLimit = some limit ∧ limit < (s.segs.map Segment.len).sum + (newLen - S.len)) →
      exec (.alloc hint size) s = .next ({ s with fatal := .set .capacity }.respond ⟨.fatal, 4, 0, .none⟩)) ∧
    (¬ (∃ limit, s.cfg.backingLimit = some limit ∧ limit < (s.segs.map Segment.len).sum + (newLen - S.len)) →
      ∃ (T : Segment) (m : Memory), T.start = addr ∧ T.wf = true ∧
        T.data = zeros (S.start - addr) ++ S.data ++ zeros (newLen - (S.start - addr) - S.len) ∧
        m.Perm (T :: (pre ++ post)) ∧ ascending m ∧
        exec (.alloc hint size) s = .next ({ s with segs := m }.respond ⟨.ok, 0, 0, .word 64 (BitVec.ofNat 64 addr)⟩))

/-- A successful ALLOC answers a multiple of 4096 not above the hint, and the rounded hint is then mapped. It rests on R120,
R121. -/
def Obligations.AllocReturnsAMappedBlock : Prop :=
  ∀ (s t : State) (hint size : Word64) (res : Result), Memory.wf s.segs = true → exec (.alloc hint size) s = .next t →
    t.responses = s.responses ++ [⟨.ok, 0, 0, res⟩] →
    (∃ v : Word64, res = .word 64 v ∧ v.toNat % 4096 = 0 ∧ v.toNat ≤ hint.toNat) ∧
    ∃ T ∈ t.segs, T.covers (hint.toNat - hint.toNat % 4096)

/-- pow2ceil(x) is the least power of two not below x. It rests on R10, R6. -/
def Obligations.PowTwoCeilIsLeast : Prop :=
  ∀ x : Nat, (∃ k, pow2ceil x = 2 ^ k) ∧ x ≤ pow2ceil x ∧ ∀ k, x ≤ 2 ^ k → pow2ceil x ≤ 2 ^ k

/-- A command changes no register but the one its rule names. It rests on R21, R24, R25, R156, R197. -/
def Obligations.RegistersChangeOnlyByTheirCommands : Prop :=
  ∀ (i : Instr) (s t : State), exec i s = .next t →
    (∀ j : RegIndex, i.gprTarget ≠ some j → t.gpr[j.val] = s.gpr[j.val] ∧ t.gprValid[j.val] = s.gprValid[j.val]) ∧
    (i.writesRip = false → t.rip = s.rip ∧ t.ripValid = s.ripValid) ∧
    (i.writesRflags = false → t.rflags = s.rflags ∧ t.rflagsValid = s.rflagsValid) ∧
    (∀ j : RegIndex, i.simdTarget ≠ some j → t.simd[j.val] = s.simd[j.val] ∧ t.simdValid[j.val] = s.simdValid[j.val])

/-- Only ALLOC, WRB and WRBS change SEGS, and no command changes the configuration. It rests on R27, R30, R156, R197. -/
def Obligations.MemoryChangesOnlyByStoresAndAlloc : Prop :=
  ∀ (i : Instr) (s t : State), exec i s = .next t →
    (i.writesMemory = false → t.segs = s.segs) ∧ t.cfg = s.cfg ∧ t.inputs = s.inputs

/-- GRD8, GRD16, GRD32 and GRD64 answer the low bits of x[i], or UNWRITTEN under POISON. It formalises R141, R142, R143, R144.
-/
def Obligations.GeneralRegisterReads : Prop :=
  ∀ row ∈ [(Instr.grd8, 8, 0x10000000), (Instr.grd16, 16, 0x11000000), (Instr.grd32, 32, 0x12000000),
      (Instr.grd64, 64, 0x13000000)],
    ∀ (s : State) (i : RegIndex), s.fatal = .clear →
      (∀ a b d e, decode ⟨BitVec.ofNat 32 (row.2.2 + i.val), a, b, d, e⟩ = .ok (row.1 i)) ∧
      ((s.cfg.regReset = RegReset.zero ∨ ∀ k, k < row.2.1 / 8 → s.gprValid[i.val].getLsbD k = true) →
        exec (row.1 i) s = .next (s.respond ⟨.ok, 0, 0, .word row.2.1 (s.gpr[i.val].extractLsb' 0 row.2.1)⟩)) ∧
      (s.cfg.regReset = RegReset.poison → (∃ k, k < row.2.1 / 8 ∧ s.gprValid[i.val].getLsbD k = false) →
        exec (row.1 i) s = .next (s.respond ⟨.unwritten, BitVec.ofNat 64 (row.2.2 + i.val), 0, .none⟩))

/-- GWR8, GWR16, GWR32 and GWR64 under each write policy. It formalises R140, R145, R146, R147, R148. -/
def Obligations.GeneralRegisterWrites : Prop :=
  ∀ (s : State) (i : RegIndex) (a : Word64), s.fatal = .clear →
    let x : Word64 := s.gpr[i.val]
    let stored := fun (v : Word64) (valid : BitVec 8) => Host.Outcome.next (φ := Fault) (ρ := Refusal)
      ({ s with
          gpr := s.gpr.set i.val v
          gprValid := if s.cfg.regReset = RegReset.poison then s.gprValid.set i.val (s.gprValid[i.val] ||| valid) else s.gprValid
        }.respond ⟨.ok, 0, 0, .none⟩)
    (∀ b d e,
      decode ⟨BitVec.ofNat 32 (0x14000000 + i.val), a, b, d, e⟩ = .ok (.gwr8 i a) ∧
      decode ⟨BitVec.ofNat 32 (0x15000000 + i.val), a, b, d, e⟩ = .ok (.gwr16 i a) ∧
      decode ⟨BitVec.ofNat 32 (0x16000000 + i.val), a, b, d, e⟩ = .ok (.gwr32 i a) ∧
      decode ⟨BitVec.ofNat 32 (0x17000000 + i.val), a, b, d, e⟩ = .ok (.gwr64 i a)) ∧
    (s.cfg.gprWritePolicy = .zeroExtend →
      exec (.gwr8 i a) s = stored (0#56 ++ a.extractLsb' 0 8) 0xFF ∧
      exec (.gwr16 i a) s = stored (0#48 ++ a.extractLsb' 0 16) 0xFF ∧
      exec (.gwr32 i a) s = stored (0#32 ++ a.extractLsb' 0 32) 0xFF) ∧
    (s.cfg.gprWritePolicy = .merge →
      exec (.gwr8 i a) s = stored (x.extractLsb' 8 56 ++ a.extractLsb' 0 8) 0x01 ∧
      exec (.gwr16 i a) s = stored (x.extractLsb' 16 48 ++ a.extractLsb' 0 16) 0x03 ∧
      exec (.gwr32 i a) s = stored (x.extractLsb' 32 32 ++ a.extractLsb' 0 32) 0x0F) ∧
    (s.cfg.gprWritePolicy = .x86 →
      exec (.gwr8 i a) s = stored (x.extractLsb' 8 56 ++ a.extractLsb' 0 8) 0x01 ∧
      exec (.gwr16 i a) s = stored (x.extractLsb' 16 48 ++ a.extractLsb' 0 16) 0x03 ∧
      exec (.gwr32 i a) s = stored (0#32 ++ a.extractLsb' 0 32) 0xFF) ∧
    exec (.gwr64 i a) s = stored a 0xFF

/-- A general register read at the width just written answers the value written, truncated, under every policy. It rests on
R156. -/
def Obligations.GeneralRegisterRoundTrip : Prop :=
  ∀ (s t : State) (i : RegIndex) (v : Word64), s.fatal = .clear →
    let answers := fun (g : RegIndex → Instr) (w : Nat) =>
      exec (g i) t = .next (t.respond ⟨.ok, 0, 0, .word w (v.extractLsb' 0 w)⟩)
    (exec (.gwr8 i v) s = .next t → answers .grd8 8) ∧
    (exec (.gwr16 i v) s = .next t → answers .grd16 16) ∧
    (exec (.gwr32 i v) s = .next t → answers .grd32 32) ∧
    (exec (.gwr64 i v) s = .next t →
      answers .grd8 8 ∧ answers .grd16 16 ∧ answers .grd32 32 ∧ answers .grd64 64)

/-- RIPRD answers RIP, RIPWR stores any value. It formalises R149, R150. -/
def Obligations.RipCommands : Prop :=
  ∀ (s : State) (a : Word64), s.fatal = .clear →
    (∀ b d e, decode ⟨0x18000000, a, b, d, e⟩ = .ok .riprd ∧ decode ⟨0x19000000, a, b, d, e⟩ = .ok (.ripwr a)) ∧
    ((s.cfg.regReset = RegReset.zero ∨ s.ripValid = 0xFF) → exec .riprd s = .next (s.respond ⟨.ok, 0, 0, .word 64 s.rip⟩)) ∧
    (s.cfg.regReset = RegReset.poison → s.ripValid ≠ 0xFF →
      exec .riprd s = .next (s.respond ⟨.unwritten, 0x18000000, 0, .none⟩)) ∧
    exec (.ripwr a) s =
      .next ({ s with rip := a, ripValid := if s.cfg.regReset = RegReset.poison then 0xFF else s.ripValid }.respond ⟨.ok, 0, 0, .none⟩)

/-- FLRD answers RFLAGS, FLWR stores all 64 bits, FLTST answers 1 exactly when every mask bit is set. It formalises R151, R152,
R155. -/
def Obligations.RflagsReadWriteTest : Prop :=
  ∀ (s : State) (a : Word64), s.fatal = .clear →
    (∀ b d e, decode ⟨0x1A000000, a, b, d, e⟩ = .ok .flrd ∧ decode ⟨0x1B000000, a, b, d, e⟩ = .ok (.flwr a) ∧
      decode ⟨0x1E000000, a, b, d, e⟩ = .ok (.fltst a)) ∧
    ((s.cfg.regReset = RegReset.zero ∨ s.rflagsValid = 0xFF) →
      exec .flrd s = .next (s.respond ⟨.ok, 0, 0, .word 64 s.rflags⟩) ∧
      ((∀ k, a.getLsbD k = true → s.rflags.getLsbD k = true) →
        exec (.fltst a) s = .next (s.respond ⟨.ok, 0, 0, .word 1 1⟩)) ∧
      ((∃ k, a.getLsbD k = true ∧ s.rflags.getLsbD k = false) →
        exec (.fltst a) s = .next (s.respond ⟨.ok, 0, 0, .word 1 0⟩))) ∧
    (s.cfg.regReset = RegReset.poison → s.rflagsValid ≠ 0xFF →
      exec .flrd s = .next (s.respond ⟨.unwritten, 0x1A000000, 0, .none⟩) ∧
      exec (.fltst a) s = .next (s.respond ⟨.unwritten, 0x1E000000, 0, .none⟩)) ∧
    exec (.flwr a) s =
      .next ({ s with rflags := a, rflagsValid := if s.cfg.regReset = RegReset.poison then 0xFF else s.rflagsValid }.respond
        ⟨.ok, 0, 0, .none⟩)

/-- FLSET sets and FLCLR clears exactly the bits of the mask. It formalises R153, R154. -/
def Obligations.RflagsSetAndClear : Prop :=
  ∀ (s : State) (a : Word64), s.fatal = .clear →
    (∀ b d e, decode ⟨0x1C000000, a, b, d, e⟩ = .ok (.flset a) ∧ decode ⟨0x1D000000, a, b, d, e⟩ = .ok (.flclr a)) ∧
    ((s.cfg.regReset = RegReset.zero ∨ s.rflagsValid = 0xFF) →
      (∃ v : Word64, (∀ k, k < 64 → v.getLsbD k = (s.rflags.getLsbD k || a.getLsbD k)) ∧
        exec (.flset a) s = .next ({ s with rflags := v }.respond ⟨.ok, 0, 0, .none⟩)) ∧
      (∃ v : Word64, (∀ k, k < 64 → v.getLsbD k = (s.rflags.getLsbD k && !a.getLsbD k)) ∧
        exec (.flclr a) s = .next ({ s with rflags := v }.respond ⟨.ok, 0, 0, .none⟩))) ∧
    (s.cfg.regReset = RegReset.poison → s.rflagsValid ≠ 0xFF →
      exec (.flset a) s = .next (s.respond ⟨.unwritten, 0x1C000000, 0, .none⟩) ∧
      exec (.flclr a) s = .next (s.respond ⟨.unwritten, 0x1D000000, 0, .none⟩))

/-- VRD of i8 and u8: the little-endian elements of the view, or UNWRITTEN under POISON. It formalises R174, R175. -/
def Obligations.SimdByteReads : Prop :=
  ∀ (s : State) (v : RegIndex), s.fatal = .clear →
    let b := fun k : Nat => s.simd[v.val][k]!
    let reads := fun (row : (RegIndex → Instr) × Nat × Nat) (t : ElemType) (e : Nat → Int) =>
      (∀ a b d es, decode ⟨BitVec.ofNat 32 (row.2.2 + v.val), a, b, d, es⟩ = .ok (row.1 v)) ∧
      ((s.cfg.regReset = RegReset.zero ∨ ∀ k, k < row.2.1 → s.simdValid[v.val].getLsbD k = true) →
        exec (row.1 v) s = .next (s.respond ⟨.ok, 0, 0, .elems t ((List.range (row.2.1 / 1)).map e)⟩)) ∧
      (s.cfg.regReset = RegReset.poison → (∃ k, k < row.2.1 ∧ s.simdValid[v.val].getLsbD k = false) →
        exec (row.1 v) s = .next (s.respond ⟨.unwritten, BitVec.ofNat 64 (row.2.2 + v.val), 0, .none⟩))
    (∀ row ∈ [(Instr.vrdXmmI8x16, 16, 0x20000000),
        (Instr.vrdYmmI8x32, 32, 0x20000010),
        (Instr.vrdZmmI8x64, 64, 0x20000020)],
      reads row .i8 fun k => (b k : BitVec 8).toInt) ∧
    (∀ row ∈ [(Instr.vrdXmmU8x16, 16, 0x20000040),
        (Instr.vrdYmmU8x32, 32, 0x20000050),
        (Instr.vrdZmmU8x64, 64, 0x20000060)],
      reads row .u8 fun k => (b k : BitVec 8).toNat)

/-- VRD of i16 and u16: the little-endian elements of the view, or UNWRITTEN under POISON. It formalises R176, R177. -/
def Obligations.SimdHalfwordReads : Prop :=
  ∀ (s : State) (v : RegIndex), s.fatal = .clear →
    let b := fun k : Nat => s.simd[v.val][k]!
    let reads := fun (row : (RegIndex → Instr) × Nat × Nat) (t : ElemType) (e : Nat → Int) =>
      (∀ a b d es, decode ⟨BitVec.ofNat 32 (row.2.2 + v.val), a, b, d, es⟩ = .ok (row.1 v)) ∧
      ((s.cfg.regReset = RegReset.zero ∨ ∀ k, k < row.2.1 → s.simdValid[v.val].getLsbD k = true) →
        exec (row.1 v) s = .next (s.respond ⟨.ok, 0, 0, .elems t ((List.range (row.2.1 / 2)).map e)⟩)) ∧
      (s.cfg.regReset = RegReset.poison → (∃ k, k < row.2.1 ∧ s.simdValid[v.val].getLsbD k = false) →
        exec (row.1 v) s = .next (s.respond ⟨.unwritten, BitVec.ofNat 64 (row.2.2 + v.val), 0, .none⟩))
    (∀ row ∈ [(Instr.vrdXmmI16x8, 16, 0x20000080),
        (Instr.vrdYmmI16x16, 32, 0x20000090),
        (Instr.vrdZmmI16x32, 64, 0x200000A0)],
      reads row .i16 fun k => (b (k * 2 + 1) ++ b (k * 2) : BitVec 16).toInt) ∧
    (∀ row ∈ [(Instr.vrdXmmU16x8, 16, 0x200000C0),
        (Instr.vrdYmmU16x16, 32, 0x200000D0),
        (Instr.vrdZmmU16x32, 64, 0x200000E0)],
      reads row .u16 fun k => (b (k * 2 + 1) ++ b (k * 2) : BitVec 16).toNat)

/-- VRD of i32, u32 and f32: the little-endian elements of the view, or UNWRITTEN under POISON. It formalises R178, R179, R182.
-/
def Obligations.SimdWordReads : Prop :=
  ∀ (s : State) (v : RegIndex), s.fatal = .clear →
    let b := fun k : Nat => s.simd[v.val][k]!
    let reads := fun (row : (RegIndex → Instr) × Nat × Nat) (t : ElemType) (e : Nat → Int) =>
      (∀ a b d es, decode ⟨BitVec.ofNat 32 (row.2.2 + v.val), a, b, d, es⟩ = .ok (row.1 v)) ∧
      ((s.cfg.regReset = RegReset.zero ∨ ∀ k, k < row.2.1 → s.simdValid[v.val].getLsbD k = true) →
        exec (row.1 v) s = .next (s.respond ⟨.ok, 0, 0, .elems t ((List.range (row.2.1 / 4)).map e)⟩)) ∧
      (s.cfg.regReset = RegReset.poison → (∃ k, k < row.2.1 ∧ s.simdValid[v.val].getLsbD k = false) →
        exec (row.1 v) s = .next (s.respond ⟨.unwritten, BitVec.ofNat 64 (row.2.2 + v.val), 0, .none⟩))
    (∀ row ∈ [(Instr.vrdXmmI32x4, 16, 0x20000100),
        (Instr.vrdYmmI32x8, 32, 0x20000110),
        (Instr.vrdZmmI32x16, 64, 0x20000120)],
      reads row .i32 fun k => (b (k * 4 + 3) ++ b (k * 4 + 2) ++ b (k * 4 + 1) ++ b (k * 4) : BitVec 32).toInt) ∧
    (∀ row ∈ [(Instr.vrdXmmU32x4, 16, 0x20000140),
        (Instr.vrdYmmU32x8, 32, 0x20000150),
        (Instr.vrdZmmU32x16, 64, 0x20000160)],
      reads row .u32 fun k => (b (k * 4 + 3) ++ b (k * 4 + 2) ++ b (k * 4 + 1) ++ b (k * 4) : BitVec 32).toNat) ∧
    (∀ row ∈ [(Instr.vrdXmmF32x4, 16, 0x20000200),
        (Instr.vrdYmmF32x8, 32, 0x20000210),
        (Instr.vrdZmmF32x16, 64, 0x20000220)],
      reads row .f32 fun k => (b (k * 4 + 3) ++ b (k * 4 + 2) ++ b (k * 4 + 1) ++ b (k * 4) : BitVec 32).toNat)

/-- VRD of i64, u64 and f64: the little-endian elements of the view, or UNWRITTEN under POISON. It formalises R180, R181, R183.
-/
def Obligations.SimdDoublewordReads : Prop :=
  ∀ (s : State) (v : RegIndex), s.fatal = .clear →
    let b := fun k : Nat => s.simd[v.val][k]!
    let reads := fun (row : (RegIndex → Instr) × Nat × Nat) (t : ElemType) (e : Nat → Int) =>
      (∀ a b d es, decode ⟨BitVec.ofNat 32 (row.2.2 + v.val), a, b, d, es⟩ = .ok (row.1 v)) ∧
      ((s.cfg.regReset = RegReset.zero ∨ ∀ k, k < row.2.1 → s.simdValid[v.val].getLsbD k = true) →
        exec (row.1 v) s = .next (s.respond ⟨.ok, 0, 0, .elems t ((List.range (row.2.1 / 8)).map e)⟩)) ∧
      (s.cfg.regReset = RegReset.poison → (∃ k, k < row.2.1 ∧ s.simdValid[v.val].getLsbD k = false) →
        exec (row.1 v) s = .next (s.respond ⟨.unwritten, BitVec.ofNat 64 (row.2.2 + v.val), 0, .none⟩))
    (∀ row ∈ [(Instr.vrdXmmI64x2, 16, 0x20000180),
        (Instr.vrdYmmI64x4, 32, 0x20000190),
        (Instr.vrdZmmI64x8, 64, 0x200001A0)],
      reads row .i64 fun k => (b (k * 8 + 7) ++ b (k * 8 + 6) ++ b (k * 8 + 5) ++ b (k * 8 + 4) ++ b (k * 8 + 3) ++ b (k * 8 + 2) ++ b (k * 8 + 1) ++ b (k * 8) : BitVec 64).toInt) ∧
    (∀ row ∈ [(Instr.vrdXmmU64x2, 16, 0x200001C0),
        (Instr.vrdYmmU64x4, 32, 0x200001D0),
        (Instr.vrdZmmU64x8, 64, 0x200001E0)],
      reads row .u64 fun k => (b (k * 8 + 7) ++ b (k * 8 + 6) ++ b (k * 8 + 5) ++ b (k * 8 + 4) ++ b (k * 8 + 3) ++ b (k * 8 + 2) ++ b (k * 8 + 1) ++ b (k * 8) : BitVec 64).toNat) ∧
    (∀ row ∈ [(Instr.vrdXmmF64x2, 16, 0x20000240),
        (Instr.vrdYmmF64x4, 32, 0x20000250),
        (Instr.vrdZmmF64x8, 64, 0x20000260)],
      reads row .f64 fun k => (b (k * 8 + 7) ++ b (k * 8 + 6) ++ b (k * 8 + 5) ++ b (k * 8 + 4) ++ b (k * 8 + 3) ++ b (k * 8 + 2) ++ b (k * 8 + 1) ++ b (k * 8) : BitVec 64).toNat)

/-- VWR of i8 and u8: the view's bytes hold the elements, the bytes past the view stay. It formalises R184, R185. -/
def Obligations.SimdByteWrites : Prop :=
  ∀ (s : State) (v : RegIndex) (es : List Int), s.fatal = .clear →
    let writes := fun (row : (RegIndex → List Int → Instr) × Nat × Nat) (lo hi : Int) =>
      (∀ a b d, decode ⟨BitVec.ofNat 32 (row.2.2 + v.val), a, b, d, es⟩ = .ok (row.1 v es)) ∧
      ((es.length = row.2.1 / 1 ∧ ∀ e ∈ es, lo ≤ e ∧ e < hi) →
        ∃ R : SimdReg,
          (∀ k, k < row.2.1 → R[k]! = (BitVec.ofInt 8 (es[k / 1]!)).extractLsb' (8 * (k % 1)) 8) ∧
          (∀ k, row.2.1 ≤ k → k < 64 → R[k]! = s.simd[v.val][k]!) ∧
          exec (row.1 v es) s =
            .next ({ s with
                simd := s.simd.set v.val R
                simdValid :=
                  if s.cfg.regReset = RegReset.poison then
                    s.simdValid.set v.val (s.simdValid[v.val] ||| BitVec.ofNat 64 (2 ^ row.2.1 - 1))
                  else s.simdValid
              }.respond ⟨.ok, 0, 0, .none⟩)) ∧
      (¬ (es.length = row.2.1 / 1 ∧ ∀ e ∈ es, lo ≤ e ∧ e < hi) →
        exec (row.1 v es) s = .next (s.respond ⟨.illegalCommand, BitVec.ofNat 64 (row.2.2 + v.val), 0, .none⟩))
    (∀ row ∈ [(Instr.vwrXmmI8x16, 16, 0x21000000),
        (Instr.vwrYmmI8x32, 32, 0x21000010),
        (Instr.vwrZmmI8x64, 64, 0x21000020)],
      writes row (-2 ^ 7) (2 ^ 7)) ∧
    (∀ row ∈ [(Instr.vwrXmmU8x16, 16, 0x21000040),
        (Instr.vwrYmmU8x32, 32, 0x21000050),
        (Instr.vwrZmmU8x64, 64, 0x21000060)],
      writes row 0 (2 ^ 8))

/-- VWR of i16 and u16: the view's bytes hold the elements, the bytes past the view stay. It formalises R186, R187. -/
def Obligations.SimdHalfwordWrites : Prop :=
  ∀ (s : State) (v : RegIndex) (es : List Int), s.fatal = .clear →
    let writes := fun (row : (RegIndex → List Int → Instr) × Nat × Nat) (lo hi : Int) =>
      (∀ a b d, decode ⟨BitVec.ofNat 32 (row.2.2 + v.val), a, b, d, es⟩ = .ok (row.1 v es)) ∧
      ((es.length = row.2.1 / 2 ∧ ∀ e ∈ es, lo ≤ e ∧ e < hi) →
        ∃ R : SimdReg,
          (∀ k, k < row.2.1 → R[k]! = (BitVec.ofInt 16 (es[k / 2]!)).extractLsb' (8 * (k % 2)) 8) ∧
          (∀ k, row.2.1 ≤ k → k < 64 → R[k]! = s.simd[v.val][k]!) ∧
          exec (row.1 v es) s =
            .next ({ s with
                simd := s.simd.set v.val R
                simdValid :=
                  if s.cfg.regReset = RegReset.poison then
                    s.simdValid.set v.val (s.simdValid[v.val] ||| BitVec.ofNat 64 (2 ^ row.2.1 - 1))
                  else s.simdValid
              }.respond ⟨.ok, 0, 0, .none⟩)) ∧
      (¬ (es.length = row.2.1 / 2 ∧ ∀ e ∈ es, lo ≤ e ∧ e < hi) →
        exec (row.1 v es) s = .next (s.respond ⟨.illegalCommand, BitVec.ofNat 64 (row.2.2 + v.val), 0, .none⟩))
    (∀ row ∈ [(Instr.vwrXmmI16x8, 16, 0x21000080),
        (Instr.vwrYmmI16x16, 32, 0x21000090),
        (Instr.vwrZmmI16x32, 64, 0x210000A0)],
      writes row (-2 ^ 15) (2 ^ 15)) ∧
    (∀ row ∈ [(Instr.vwrXmmU16x8, 16, 0x210000C0),
        (Instr.vwrYmmU16x16, 32, 0x210000D0),
        (Instr.vwrZmmU16x32, 64, 0x210000E0)],
      writes row 0 (2 ^ 16))

/-- VWR of i32, u32 and f32: the view's bytes hold the elements, the bytes past the view stay. It formalises R188, R189, R192.
-/
def Obligations.SimdWordWrites : Prop :=
  ∀ (s : State) (v : RegIndex) (es : List Int), s.fatal = .clear →
    let writes := fun (row : (RegIndex → List Int → Instr) × Nat × Nat) (lo hi : Int) =>
      (∀ a b d, decode ⟨BitVec.ofNat 32 (row.2.2 + v.val), a, b, d, es⟩ = .ok (row.1 v es)) ∧
      ((es.length = row.2.1 / 4 ∧ ∀ e ∈ es, lo ≤ e ∧ e < hi) →
        ∃ R : SimdReg,
          (∀ k, k < row.2.1 → R[k]! = (BitVec.ofInt 32 (es[k / 4]!)).extractLsb' (8 * (k % 4)) 8) ∧
          (∀ k, row.2.1 ≤ k → k < 64 → R[k]! = s.simd[v.val][k]!) ∧
          exec (row.1 v es) s =
            .next ({ s with
                simd := s.simd.set v.val R
                simdValid :=
                  if s.cfg.regReset = RegReset.poison then
                    s.simdValid.set v.val (s.simdValid[v.val] ||| BitVec.ofNat 64 (2 ^ row.2.1 - 1))
                  else s.simdValid
              }.respond ⟨.ok, 0, 0, .none⟩)) ∧
      (¬ (es.length = row.2.1 / 4 ∧ ∀ e ∈ es, lo ≤ e ∧ e < hi) →
        exec (row.1 v es) s = .next (s.respond ⟨.illegalCommand, BitVec.ofNat 64 (row.2.2 + v.val), 0, .none⟩))
    (∀ row ∈ [(Instr.vwrXmmI32x4, 16, 0x21000100),
        (Instr.vwrYmmI32x8, 32, 0x21000110),
        (Instr.vwrZmmI32x16, 64, 0x21000120)],
      writes row (-2 ^ 31) (2 ^ 31)) ∧
    (∀ row ∈ [(Instr.vwrXmmU32x4, 16, 0x21000140),
        (Instr.vwrYmmU32x8, 32, 0x21000150),
        (Instr.vwrZmmU32x16, 64, 0x21000160)],
      writes row 0 (2 ^ 32)) ∧
    (∀ row ∈ [(Instr.vwrXmmF32x4, 16, 0x21000200),
        (Instr.vwrYmmF32x8, 32, 0x21000210),
        (Instr.vwrZmmF32x16, 64, 0x21000220)],
      writes row 0 (2 ^ 32))

/-- VWR of i64, u64 and f64: the view's bytes hold the elements, the bytes past the view stay. It formalises R190, R191, R193.
-/
def Obligations.SimdDoublewordWrites : Prop :=
  ∀ (s : State) (v : RegIndex) (es : List Int), s.fatal = .clear →
    let writes := fun (row : (RegIndex → List Int → Instr) × Nat × Nat) (lo hi : Int) =>
      (∀ a b d, decode ⟨BitVec.ofNat 32 (row.2.2 + v.val), a, b, d, es⟩ = .ok (row.1 v es)) ∧
      ((es.length = row.2.1 / 8 ∧ ∀ e ∈ es, lo ≤ e ∧ e < hi) →
        ∃ R : SimdReg,
          (∀ k, k < row.2.1 → R[k]! = (BitVec.ofInt 64 (es[k / 8]!)).extractLsb' (8 * (k % 8)) 8) ∧
          (∀ k, row.2.1 ≤ k → k < 64 → R[k]! = s.simd[v.val][k]!) ∧
          exec (row.1 v es) s =
            .next ({ s with
                simd := s.simd.set v.val R
                simdValid :=
                  if s.cfg.regReset = RegReset.poison then
                    s.simdValid.set v.val (s.simdValid[v.val] ||| BitVec.ofNat 64 (2 ^ row.2.1 - 1))
                  else s.simdValid
              }.respond ⟨.ok, 0, 0, .none⟩)) ∧
      (¬ (es.length = row.2.1 / 8 ∧ ∀ e ∈ es, lo ≤ e ∧ e < hi) →
        exec (row.1 v es) s = .next (s.respond ⟨.illegalCommand, BitVec.ofNat 64 (row.2.2 + v.val), 0, .none⟩))
    (∀ row ∈ [(Instr.vwrXmmI64x2, 16, 0x21000180),
        (Instr.vwrYmmI64x4, 32, 0x21000190),
        (Instr.vwrZmmI64x8, 64, 0x210001A0)],
      writes row (-2 ^ 63) (2 ^ 63)) ∧
    (∀ row ∈ [(Instr.vwrXmmU64x2, 16, 0x210001C0),
        (Instr.vwrYmmU64x4, 32, 0x210001D0),
        (Instr.vwrZmmU64x8, 64, 0x210001E0)],
      writes row 0 (2 ^ 64)) ∧
    (∀ row ∈ [(Instr.vwrXmmF64x2, 16, 0x21000240),
        (Instr.vwrYmmF64x4, 32, 0x21000250),
        (Instr.vwrZmmF64x8, 64, 0x21000260)],
      writes row 0 (2 ^ 64))

/-- Narrower views read the leading elements; a write reads back through its own and every narrower view. It formalises R194. -/
def Obligations.ViewsNestAndRoundTrip : Prop :=
  ∀ (s t : State) (v : RegIndex) (ty : ElemType) (narrow wide : View) (es : List Int), s.fatal = .clear →
    narrow.bytes ≤ wide.bytes →
    ((s.cfg.regReset = RegReset.zero ∨ ∀ k, k < wide.bytes → s.simdValid[v.val].getLsbD k = true) →
      ∃ xs, exec (vrdInstr v wide ty) s = .next (s.respond ⟨.ok, 0, 0, .elems ty xs⟩) ∧
        exec (vrdInstr v narrow ty) s = .next (s.respond ⟨.ok, 0, 0, .elems ty (xs.take (elemCount narrow ty))⟩)) ∧
    (exec (vwrInstr v es wide ty) s = .next t → ∀ k, wide.bytes ≤ k → k < 64 → t.simd[v.val][k]! = s.simd[v.val][k]!) ∧
    (elementsFit wide ty es = true → exec (vwrInstr v es wide ty) s = .next t →
      exec (vrdInstr v narrow ty) t = .next (t.respond ⟨.ok, 0, 0, .elems ty (es.take (elemCount narrow ty))⟩) ∧
      exec (vrdInstr v wide ty) t = .next (t.respond ⟨.ok, 0, 0, .elems ty es⟩))

/-- Reading a view with another type answers elements with the same byte image as those written. It rests on R198. -/
def Obligations.ReinterpretationKeepsTheBytes : Prop :=
  ∀ (s t : State) (v : RegIndex) (vw : View) (ty ty' : ElemType) (es : List Int), s.fatal = .clear →
    elementsFit vw ty es = true → exec (vwrInstr v es vw ty) s = .next t →
    ∃ xs, exec (vrdInstr v vw ty') t = .next (t.respond ⟨.ok, 0, 0, .elems ty' xs⟩) ∧ elemsImage ty' xs = elemsImage ty es

/-- Any byte image of a view's size is the image of elements that fit. It rests on R90. -/
def Obligations.ByteImagesAlwaysFit : Prop :=
  ∀ (vw : View) (ty : ElemType) (bs : List Byte), bs.length = vw.bytes →
    elementsFit vw ty (elemsOfImage ty (elemCount vw ty) bs) = true ∧ elemsImage ty (elemsOfImage ty (elemCount vw ty) bs) = bs

/-- Under POISON, the values of unwritten register bytes never show. It rests on R34, R215. -/
def Obligations.UnwrittenBytesNeverShow : Prop :=
  ∀ s t s' t' : State, s.cfg.regReset = RegReset.poison → s.sameWritten t → step s = .next s' → step t = .next t' → s'.sameWritten t'
end

