-- ==== Sys2Proof/Laws/Cells.lean ====
section
/-! SUPPORT. Reading and writing the bytes of a segment: read after write, and the canonical form of the cells. -/

namespace Sys2Proof.Machine

/-- The cells rise strictly and none is zero. -/
abbrev CellsSorted (cells : List Host.Cell) : Prop :=
  (cells.Pairwise fun c d => c.1 < d.1) ∧ ∀ c ∈ cells, c.2 ≠ 0

theorem readCell_of_lt {cells : List Host.Cell} {a : Nat} (h : ∀ c ∈ cells, a < c.1) : readCell cells a = 0 := by
  induction cells with
  | nil => rfl
  | cons c cs ih =>
    have hc := h c List.mem_cons_self
    have : c.1 ≠ a := by omega
    simp [readCell, this, ih fun d hd => h d (List.mem_cons_of_mem _ hd)]

/-- Every cell after a write was there before or is the byte written. -/
theorem mem_writeCell {cells : List Host.Cell} {a : Nat} {b : Byte} {c : Host.Cell} (h : c ∈ writeCell cells a b) :
    c ∈ cells ∨ (c = (a, b) ∧ b ≠ 0) := by
  induction cells with
  | nil => by_cases hb : b = 0 <;> simp_all [writeCell]
  | cons d cs ih =>
    rw [writeCell] at h
    split at h
    · rcases List.mem_cons.1 h with rfl | h
      · simp
      · rcases ih h with h | ⟨h, hb⟩
        · simp [h]
        · exact .inr ⟨h, hb⟩
    · split at h
      · split at h
        · simp [h]
        · rcases List.mem_cons.1 h with rfl | h <;> simp_all
      · split at h
        · exact .inl h
        · rcases List.mem_cons.1 h with rfl | h <;> simp_all

/-- A write keeps the canonical form. -/
theorem writeCell_sorted {cells : List Host.Cell} (h : CellsSorted cells) (a : Nat) (b : Byte) :
    CellsSorted (writeCell cells a b) := by
  refine ⟨?_, fun c hc => ?_⟩
  · induction cells with
    | nil => rw [writeCell]; split <;> simp
    | cons d cs ih =>
      obtain ⟨hd, hcs⟩ := List.pairwise_cons.1 h.1
      have hrec := ih ⟨hcs, fun c hc => h.2 c (List.mem_cons_of_mem _ hc)⟩
      rw [writeCell]
      split
      · refine List.pairwise_cons.2 ⟨fun c hc => ?_, hrec⟩
        rcases mem_writeCell hc with hc | ⟨rfl, _⟩
        · exact hd c hc
        · assumption
      · split
        · split
          · exact hcs
          · refine List.pairwise_cons.2 ⟨fun c hc => ?_, hcs⟩
            have := hd c hc
            simp_all
        · split
          · exact h.1
          · refine List.pairwise_cons.2 ⟨fun c hc => ?_, h.1⟩
            rcases List.mem_cons.1 hc with rfl | hc
            · show a < _; omega
            · have := hd c hc
              show a < _; omega
  · rcases mem_writeCell hc with hc | ⟨rfl, hb⟩
    · exact h.2 c hc
    · exact hb

/-- Read after write of one byte. -/
theorem readCell_writeCell {cells : List Host.Cell} (h : CellsSorted cells) (a : Nat) (b : Byte) (k : Nat) :
    readCell (writeCell cells a b) k = if k = a then b else readCell cells k := by
  induction cells with
  | nil =>
    rw [writeCell]
    by_cases hk : k = a
    · split <;> simp_all [readCell]
    · have h1 : ¬ a = k := fun e => hk e.symm
      split <;> simp [readCell, h1]
  | cons d cs ih =>
    obtain ⟨hd, hcs⟩ := List.pairwise_cons.1 h.1
    have hrec := ih ⟨hcs, fun c hc => h.2 c (List.mem_cons_of_mem _ hc)⟩
    rw [writeCell]
    split
    · rw [readCell, readCell, hrec]
      by_cases hk : d.1 = k
      · have : k ≠ a := by omega
        simp [hk, this]
      · simp [hk]
    · split
      · rename_i _ hda
        by_cases hk : k = a
        · subst hk
          split
          · rename_i hb
            rw [if_pos rfl, hb]
            exact readCell_of_lt fun c hc => hda ▸ hd c hc
          · simp [readCell]
        · have h1 : ¬ a = k := fun e => hk e.symm
          have h2 : ¬ d.1 = k := by omega
          rw [if_neg hk]
          split <;> simp [readCell, h1, h2]
      · have hlt : a < d.1 := by omega
        by_cases hk : k = a
        · subst hk
          split
          · rename_i hb
            rw [if_pos rfl, hb]
            refine readCell_of_lt fun c hc => ?_
            rcases List.mem_cons.1 hc with rfl | hc
            · exact hlt
            · have := hd c hc; omega
          · simp [readCell]
        · have h1 : ¬ a = k := fun e => hk e.symm
          rw [if_neg hk]
          split <;> simp [readCell, h1]

theorem writeCells_sorted {cells : List Host.Cell} (h : CellsSorted cells) (a : Nat) (bs : List Byte) :
    CellsSorted (writeCells cells a bs) := by
  induction bs generalizing cells a with
  | nil => exact h
  | cons b bs ih => exact ih (writeCell_sorted h a b) (a + 1)

/-- Every cell after a range write was there before or lies in the range and is not zero. -/
theorem mem_writeCells {cells : List Host.Cell} {a : Nat} {bs : List Byte} {c : Host.Cell} (h : c ∈ writeCells cells a bs) :
    c ∈ cells ∨ (a ≤ c.1 ∧ c.1 < a + bs.length ∧ c.2 ≠ 0) := by
  induction bs generalizing cells a with
  | nil => exact .inl h
  | cons b bs ih =>
    rcases ih h with h | ⟨h1, h2, h3⟩
    · rcases mem_writeCell h with h | ⟨rfl, hb⟩
      · exact .inl h
      · exact .inr ⟨Nat.le_refl _, by simp, hb⟩
    · exact .inr ⟨by omega, by simp; omega, h3⟩

/-- Read after write of a range: byte `k` of the sequence is at `a + k` (R57, R60), and every other byte is as before. -/
theorem readCell_writeCells {cells : List Host.Cell} (h : CellsSorted cells) (a : Nat) (bs : List Byte) (k : Nat) :
    readCell (writeCells cells a bs) k = if a ≤ k ∧ k < a + bs.length then bs[k - a]! else readCell cells k := by
  induction bs generalizing cells a with
  | nil => rw [if_neg (by simp)]; rfl
  | cons b bs ih =>
    rw [writeCells, ih (writeCell_sorted h a b), readCell_writeCell h]
    by_cases h1 : a + 1 ≤ k ∧ k < a + 1 + bs.length
    · rw [if_pos h1, if_pos (by simp; omega)]
      obtain ⟨j, rfl⟩ : ∃ j, k = a + 1 + j := ⟨k - (a + 1), by omega⟩
      have e1 : a + 1 + j - (a + 1) = j := by omega
      have e2 : a + 1 + j - a = j + 1 := by omega
      rw [e1, e2]; simp
    · rw [if_neg h1]
      by_cases h2 : k = a
      · subst h2
        rw [if_pos rfl, if_pos (by simp)]
        simp
      · rw [if_neg h2, if_neg (by simp; omega)]

end Sys2Proof.Machine
end

