-- ==== Sys2Proof/Laws/State.lean ====
section
/-! SUPPORT. One lemma per field per update of the state: what `respond` and the register writes leave in each field. -/

namespace Sys2Proof.Machine

/-! ### `respond` -/

@[simp] theorem State.respond_gpr (s : State) (r : Response) : (s.respond r).gpr = s.gpr := rfl
@[simp] theorem State.respond_rip (s : State) (r : Response) : (s.respond r).rip = s.rip := rfl
@[simp] theorem State.respond_rflags (s : State) (r : Response) : (s.respond r).rflags = s.rflags := rfl
@[simp] theorem State.respond_simd (s : State) (r : Response) : (s.respond r).simd = s.simd := rfl
@[simp] theorem State.respond_segs (s : State) (r : Response) : (s.respond r).segs = s.segs := rfl
@[simp] theorem State.respond_fatal (s : State) (r : Response) : (s.respond r).fatal = s.fatal := rfl
@[simp] theorem State.respond_gprValid (s : State) (r : Response) : (s.respond r).gprValid = s.gprValid := rfl
@[simp] theorem State.respond_ripValid (s : State) (r : Response) : (s.respond r).ripValid = s.ripValid := rfl
@[simp] theorem State.respond_rflagsValid (s : State) (r : Response) : (s.respond r).rflagsValid = s.rflagsValid := rfl
@[simp] theorem State.respond_simdValid (s : State) (r : Response) : (s.respond r).simdValid = s.simdValid := rfl
@[simp] theorem State.respond_cfg (s : State) (r : Response) : (s.respond r).cfg = s.cfg := rfl
@[simp] theorem State.respond_inputs (s : State) (r : Response) : (s.respond r).inputs = s.inputs := rfl
@[simp] theorem State.respond_responses (s : State) (r : Response) : (s.respond r).responses = s.responses ++ [r] := rfl

/-! ### `writeGpr` -/

@[simp] theorem State.writeGpr_gpr {w : Nat} (s : State) (i : RegIndex) (v : BitVec w) :
    (s.writeGpr i v).gpr =
      s.gpr.set i.val (gprWritten s.cfg.gprWritePolicy (s.readGpr i) v) := rfl
@[simp] theorem State.writeGpr_rip {w : Nat} (s : State) (i : RegIndex) (v : BitVec w) : (s.writeGpr i v).rip = s.rip := rfl
@[simp] theorem State.writeGpr_rflags {w : Nat} (s : State) (i : RegIndex) (v : BitVec w) :
    (s.writeGpr i v).rflags =
      s.rflags := rfl
@[simp] theorem State.writeGpr_simd {w : Nat} (s : State) (i : RegIndex) (v : BitVec w) : (s.writeGpr i v).simd = s.simd := rfl
@[simp] theorem State.writeGpr_segs {w : Nat} (s : State) (i : RegIndex) (v : BitVec w) : (s.writeGpr i v).segs = s.segs := rfl
@[simp] theorem State.writeGpr_fatal {w : Nat} (s : State) (i : RegIndex) (v : BitVec w) : (s.writeGpr i v).fatal = s.fatal := rfl
@[simp] theorem State.writeGpr_gprValid {w : Nat} (s : State) (i : RegIndex) (v : BitVec w) :
    (s.writeGpr i v).gprValid =
      if s.poison then s.gprValid.set i.val (gprMarked s.cfg.gprWritePolicy s.gprValid[i.val] w) else s.gprValid := rfl
@[simp] theorem State.writeGpr_ripValid {w : Nat} (s : State) (i : RegIndex) (v : BitVec w) :
    (s.writeGpr i v).ripValid =
      s.ripValid := rfl
@[simp] theorem State.writeGpr_rflagsValid {w : Nat} (s : State) (i : RegIndex) (v : BitVec w) :
    (s.writeGpr i v).rflagsValid =
      s.rflagsValid := rfl
@[simp] theorem State.writeGpr_simdValid {w : Nat} (s : State) (i : RegIndex) (v : BitVec w) :
    (s.writeGpr i v).simdValid =
      s.simdValid := rfl
@[simp] theorem State.writeGpr_cfg {w : Nat} (s : State) (i : RegIndex) (v : BitVec w) : (s.writeGpr i v).cfg = s.cfg := rfl
@[simp] theorem State.writeGpr_inputs {w : Nat} (s : State) (i : RegIndex) (v : BitVec w) :
    (s.writeGpr i v).inputs =
      s.inputs := rfl
@[simp] theorem State.writeGpr_responses {w : Nat} (s : State) (i : RegIndex) (v : BitVec w) :
    (s.writeGpr i v).responses =
      s.responses := rfl

/-! ### `writeRip` -/

@[simp] theorem State.writeRip_gpr (s : State) (v : Word64) : (s.writeRip v).gpr = s.gpr := rfl
@[simp] theorem State.writeRip_rip (s : State) (v : Word64) : (s.writeRip v).rip = v := rfl
@[simp] theorem State.writeRip_rflags (s : State) (v : Word64) : (s.writeRip v).rflags = s.rflags := rfl
@[simp] theorem State.writeRip_simd (s : State) (v : Word64) : (s.writeRip v).simd = s.simd := rfl
@[simp] theorem State.writeRip_segs (s : State) (v : Word64) : (s.writeRip v).segs = s.segs := rfl
@[simp] theorem State.writeRip_fatal (s : State) (v : Word64) : (s.writeRip v).fatal = s.fatal := rfl
@[simp] theorem State.writeRip_gprValid (s : State) (v : Word64) : (s.writeRip v).gprValid = s.gprValid := rfl
@[simp] theorem State.writeRip_ripValid (s : State) (v : Word64) :
    (s.writeRip v).ripValid =
      if s.poison then markValid s.ripValid 8 else s.ripValid := rfl
@[simp] theorem State.writeRip_rflagsValid (s : State) (v : Word64) : (s.writeRip v).rflagsValid = s.rflagsValid := rfl
@[simp] theorem State.writeRip_simdValid (s : State) (v : Word64) : (s.writeRip v).simdValid = s.simdValid := rfl
@[simp] theorem State.writeRip_cfg (s : State) (v : Word64) : (s.writeRip v).cfg = s.cfg := rfl
@[simp] theorem State.writeRip_inputs (s : State) (v : Word64) : (s.writeRip v).inputs = s.inputs := rfl
@[simp] theorem State.writeRip_responses (s : State) (v : Word64) : (s.writeRip v).responses = s.responses := rfl

/-! ### `writeRflags` -/

@[simp] theorem State.writeRflags_gpr (s : State) (v : Word64) : (s.writeRflags v).gpr = s.gpr := rfl
@[simp] theorem State.writeRflags_rip (s : State) (v : Word64) : (s.writeRflags v).rip = s.rip := rfl
@[simp] theorem State.writeRflags_rflags (s : State) (v : Word64) : (s.writeRflags v).rflags = v := rfl
@[simp] theorem State.writeRflags_simd (s : State) (v : Word64) : (s.writeRflags v).simd = s.simd := rfl
@[simp] theorem State.writeRflags_segs (s : State) (v : Word64) : (s.writeRflags v).segs = s.segs := rfl
@[simp] theorem State.writeRflags_fatal (s : State) (v : Word64) : (s.writeRflags v).fatal = s.fatal := rfl
@[simp] theorem State.writeRflags_gprValid (s : State) (v : Word64) : (s.writeRflags v).gprValid = s.gprValid := rfl
@[simp] theorem State.writeRflags_ripValid (s : State) (v : Word64) : (s.writeRflags v).ripValid = s.ripValid := rfl
@[simp] theorem State.writeRflags_rflagsValid (s : State) (v : Word64) :
    (s.writeRflags v).rflagsValid =
      if s.poison then markValid s.rflagsValid 8 else s.rflagsValid := rfl
@[simp] theorem State.writeRflags_simdValid (s : State) (v : Word64) : (s.writeRflags v).simdValid = s.simdValid := rfl
@[simp] theorem State.writeRflags_cfg (s : State) (v : Word64) : (s.writeRflags v).cfg = s.cfg := rfl
@[simp] theorem State.writeRflags_inputs (s : State) (v : Word64) : (s.writeRflags v).inputs = s.inputs := rfl
@[simp] theorem State.writeRflags_responses (s : State) (v : Word64) : (s.writeRflags v).responses = s.responses := rfl

/-! ### `writeSimd` -/

@[simp] theorem State.writeSimd_gpr (s : State) (i : RegIndex) (vw : View) (t : ElemType) (es : List Int) :
    (s.writeSimd i vw t es).gpr =
      s.gpr := rfl
@[simp] theorem State.writeSimd_rip (s : State) (i : RegIndex) (vw : View) (t : ElemType) (es : List Int) :
    (s.writeSimd i vw t es).rip =
      s.rip := rfl
@[simp] theorem State.writeSimd_rflags (s : State) (i : RegIndex) (vw : View) (t : ElemType) (es : List Int) :
    (s.writeSimd i vw t es).rflags =
      s.rflags := rfl
@[simp] theorem State.writeSimd_simd (s : State) (i : RegIndex) (vw : View) (t : ElemType) (es : List Int) :
    (s.writeSimd i vw t es).simd =
      s.simd.set i.val (putBytes (s.readSimd i) 0 (elemsImage t es)) := rfl
@[simp] theorem State.writeSimd_segs (s : State) (i : RegIndex) (vw : View) (t : ElemType) (es : List Int) :
    (s.writeSimd i vw t es).segs =
      s.segs := rfl
@[simp] theorem State.writeSimd_fatal (s : State) (i : RegIndex) (vw : View) (t : ElemType) (es : List Int) :
    (s.writeSimd i vw t es).fatal =
      s.fatal := rfl
@[simp] theorem State.writeSimd_gprValid (s : State) (i : RegIndex) (vw : View) (t : ElemType) (es : List Int) :
    (s.writeSimd i vw t es).gprValid =
      s.gprValid := rfl
@[simp] theorem State.writeSimd_ripValid (s : State) (i : RegIndex) (vw : View) (t : ElemType) (es : List Int) :
    (s.writeSimd i vw t es).ripValid =
      s.ripValid := rfl
@[simp] theorem State.writeSimd_rflagsValid (s : State) (i : RegIndex) (vw : View) (t : ElemType) (es : List Int) :
    (s.writeSimd i vw t es).rflagsValid =
      s.rflagsValid := rfl
@[simp] theorem State.writeSimd_simdValid (s : State) (i : RegIndex) (vw : View) (t : ElemType) (es : List Int) :
    (s.writeSimd i vw t es).simdValid =
      if s.poison then s.simdValid.set i.val (markValid s.simdValid[i.val] vw.bytes) else s.simdValid := rfl
@[simp] theorem State.writeSimd_cfg (s : State) (i : RegIndex) (vw : View) (t : ElemType) (es : List Int) :
    (s.writeSimd i vw t es).cfg =
      s.cfg := rfl
@[simp] theorem State.writeSimd_inputs (s : State) (i : RegIndex) (vw : View) (t : ElemType) (es : List Int) :
    (s.writeSimd i vw t es).inputs =
      s.inputs := rfl
@[simp] theorem State.writeSimd_responses (s : State) (i : RegIndex) (vw : View) (t : ElemType) (es : List Int) :
    (s.writeSimd i vw t es).responses =
      s.responses := rfl

/-! ### Register reads of a written state -/

@[simp] theorem State.readGpr_writeGpr_self {w : Nat} (s : State) (i : RegIndex) (v : BitVec w) :
    (s.writeGpr i v).readGpr i = gprWritten s.cfg.gprWritePolicy (s.readGpr i) v := by
  simp [State.readGpr, State.writeGpr]

theorem State.readGpr_writeGpr_other {w : Nat} (s : State) {i j : RegIndex} (v : BitVec w) (h : i ≠ j) :
    (s.writeGpr i v).readGpr j = s.readGpr j := by
  have : i.val ≠ j.val := fun e => h (Fin.ext e)
  simp [State.readGpr, State.writeGpr, this]

@[simp] theorem State.readSimd_writeSimd_self (s : State) (i : RegIndex) (vw : View) (t : ElemType) (es : List Int) :
    (s.writeSimd i vw t es).readSimd i = putBytes (s.readSimd i) 0 (elemsImage t es) := by
  simp [State.readSimd, State.writeSimd]

theorem State.readSimd_writeSimd_other (s : State) {i j : RegIndex} (vw : View) (t : ElemType) (es : List Int) (h : i ≠ j) :
    (s.writeSimd i vw t es).readSimd j = s.readSimd j := by
  have : i.val ≠ j.val := fun e => h (Fin.ext e)
  simp [State.readSimd, State.writeSimd, this]

end Sys2Proof.Machine
end

