-- ==== Sys2Proof/Laws/Outcome.lean ====
section
/-! SUPPORT. What responding, failing and the prologue can answer (R13, R211, R216). -/

namespace Sys2Proof.Machine

theorem State.succeed_eq (s : State) (res : Result) : s.succeed res = .next (s.respond (Response.okWith res)) := rfl

theorem State.prologue_clear {s : State} (h : s.fatal = .clear) (run : Out) : s.prologue run = run := by
  simp [State.prologue, h]

theorem State.prologue_set {s : State} {sub : FatalSub} (h : s.fatal = .set sub) (run : Out) :
    s.prologue run = .next (s.respond (Response.fatal sub)) := by
  simp [State.prologue, h]

/-- All the prologue can answer. -/
theorem State.prologue_cases {s t : State} {run : Out} (h : s.prologue run = .next t) :
    (∃ sub, s.fatal = .set sub ∧ t = s.respond (Response.fatal sub)) ∨ (s.fatal = .clear ∧ run = .next t) := by
  cases hf : s.fatal with
  | clear => exact .inr ⟨rfl, by rwa [State.prologue_clear hf] at h⟩
  | set sub => exact .inl ⟨sub, rfl, by rw [State.prologue_set hf] at h; exact (Host.Outcome.next.inj h).symm⟩

/-- All a failure can answer: one response, and for a fatal defect the sticky state. -/
theorem State.fail_cases {s t : State} {f : Failure} (h : s.fail f = .next t) :
    (∃ st p0 p1, f = .status st p0 p1 ∧ t = s.respond (Response.failure st p0 p1)) ∨
      (∃ sub, f = .fatal sub ∧ t = { s with fatal := .set sub }.respond (Response.fatal sub)) := by
  cases f with
  | status st p0 p1 => exact .inl ⟨st, p0, p1, rfl, (Host.Outcome.next.inj h).symm⟩
  | fatal sub => exact .inr ⟨sub, rfl, (Host.Outcome.next.inj h).symm⟩

/-- A checked read either answers `UNWRITTEN`, only under `POISON`, or goes on. -/
theorem State.readChecked_cases {s : State} {w : CmdWord} {valid : Bool} {run : Out} :
    (s.poison = true ∧ valid = false ∧ s.readChecked w valid run = s.fail (.status .unwritten (cmdPayload w) 0)) ∨
      ((s.poison = false ∨ valid = true) ∧ s.readChecked w valid run = run) := by
  cases hp : s.poison <;> cases valid <;> simp [State.readChecked, hp]

theorem State.readChecked_go {s : State} {w : CmdWord} {valid : Bool} {run : Out} (h : s.poison = false ∨ valid = true) :
    s.readChecked w valid run = run := by
  rcases h with h | h <;> simp [State.readChecked, h]

theorem illegalCommand_clear {s : State} (h : s.fatal = .clear) (w : CmdWord) :
    illegalCommand w s = .next (s.respond (Response.failure .illegalCommand (cmdPayload w) 0)) := by
  rw [illegalCommand, State.prologue_clear h]; rfl

end Sys2Proof.Machine
end

