-- ==== Sys2Proof/Laws/Memory.lean ====
section
/-! SUPPORT. What the access path can answer (R51 to R58), what a write does to the segment table (R57), and that it keeps the canonical
form. -/

namespace Sys2Proof

/-! ### The configuration (R6, R50) -/

theorem Config.legal_iff {c : Config} : c.legal = true ↔ 1 ≤ c.align ∧ c.base.toNat + pow2ceil c.reqSize.toNat < 2 ^ 64 := by
  rw [Config.legal, Bool.and_eq_true, decide_eq_true_iff, decide_eq_true_iff]; rfl

theorem Config.inWindow_iff {c : Config} {a : Nat} :
    c.inWindow a = true ↔ c.base.toNat ≤ a ∧ a < c.base.toNat + pow2ceil c.reqSize.toNat := by
  rw [Config.inWindow, Bool.and_eq_true, decide_eq_true_iff, decide_eq_true_iff]; rfl

namespace Machine

/-! ### Segments -/

theorem Segment.contains_iff {S : Segment} {a : Nat} : S.contains a = true ↔ S.start ≤ a ∧ a < S.start + S.len := by
  simp only [Segment.contains, Bool.and_eq_true, decide_eq_true_eq]
  rfl

theorem Segment.cellsWf_iff {S : Segment} :
    S.cellsWf = true ↔ CellsSorted S.cells ∧ ∀ c ∈ S.cells, S.contains c.1 = true := by
  simp only [Segment.cellsWf, CellsSorted, Bool.and_eq_true, decide_eq_true_eq, List.all_eq_true, bne_iff_ne]
  constructor
  · rintro ⟨h1, h2⟩
    exact ⟨⟨h1, fun c hc => (h2 c hc).2⟩, fun c hc => (h2 c hc).1⟩
  · rintro ⟨⟨h1, h2⟩, h3⟩
    exact ⟨h1, fun c hc => ⟨h3 c hc, h2 c hc⟩⟩

theorem Segment.wf_iff {S : Segment} :
    S.wf = true ↔ S.start % 4096 = 0 ∧ S.len % 4096 = 0 ∧ 4096 ≤ S.len ∧ S.start + S.len ≤ 2 ^ 64 ∧ CellsSorted S.cells ∧
      ∀ c ∈ S.cells, S.contains c.1 = true := by
  simp only [Segment.wf, Bool.and_eq_true, decide_eq_true_eq, Segment.cellsWf_iff, and_assoc]
  rfl

theorem Memory.wf_iff {m : Memory} :
    Memory.wf m = true ↔ (m.Pairwise fun S T => S.start < T.start) ∧ ∀ S ∈ m, S.wf = true := by
  simp [Memory.wf]

/-- A well-formed segment lists no byte outside itself. -/
theorem Segment.byte_outside {S : Segment} (h : S.wf = true) {a : Nat} (ha : S.contains a = false) : S.byte a = 0 := by
  obtain ⟨-, -, -, -, -, hin⟩ := Segment.wf_iff.1 h
  have key : ∀ cells : List Host.Cell, (∀ c ∈ cells, S.contains c.1 = true) → readCell cells a = 0 := by
    intro cells hc
    induction cells with
    | nil => rfl
    | cons c cs ih =>
      have h1 : c.1 ≠ a := fun e => by have := hc c List.mem_cons_self; rw [e, ha] at this; cases this
      simp [readCell, h1, ih fun d hd => hc d (List.mem_cons_of_mem _ hd)]
  exact key S.cells hin

/-- The bytes of a written segment: the sequence in its range, the old bytes elsewhere. -/
theorem Segment.byte_write {S : Segment} (h : CellsSorted S.cells) (a : Nat) (bs : List Byte) (k : Nat) :
    (S.write a bs).byte k = if a ≤ k ∧ k < a + bs.length then bs[k - a]! else S.byte k :=
  readCell_writeCells h a bs k

@[simp] theorem Segment.write_contains (S : Segment) (a : Nat) (bs : List Byte) (k : Nat) :
    (S.write a bs).contains k = S.contains k := rfl

@[simp] theorem Segment.slice_length (S : Segment) (a n : Nat) : (S.slice a n).length = n := by simp [Segment.slice]

theorem Segment.slice_get (S : Segment) (a : Nat) {n k : Nat} (h : k < n) : (S.slice a n)[k]! = S.byte (a + k) := by
  simp [Segment.slice, h]

/-- A write inside a segment keeps it well formed. -/
theorem Segment.write_wf {S : Segment} (h : S.wf = true) {a : Nat} {bs : List Byte} (ha : S.start ≤ a)
    (hb : a + bs.length ≤ S.stop) : (S.write a bs).wf = true := by
  obtain ⟨h1, h2, h3, h4, h5, h6⟩ := Segment.wf_iff.1 h
  refine Segment.wf_iff.2 ⟨h1, h2, h3, h4, writeCells_sorted h5 a bs, fun c hc => ?_⟩
  rcases mem_writeCells hc with hc | ⟨hl, hr, -⟩
  · exact h6 c hc
  · rw [Segment.stop] at hb
    exact Segment.contains_iff.2 ⟨by show S.start ≤ _; omega, by show _ < S.start + S.len; omega⟩

/-! ### `S.data` as a byte sequence (R27) -/

@[simp] theorem Segment.data_length (S : Segment) : S.data.length = S.len := by simp [Segment.data]

theorem Segment.data_getElem (S : Segment) {k : Nat} (h : k < S.data.length) : S.data[k] = S.byte (S.start + k) := by
  simp [Segment.data, Segment.slice]

theorem Segment.data_getD (S : Segment) {a : Nat} (h1 : S.start ≤ a) (h2 : a < S.start + S.len) :
    S.data.getD (a - S.start) 0 = S.byte a := by
  have : a - S.start < S.len := by omega
  simp [List.getD, this, Segment.data_getElem, Nat.add_sub_cancel' h1]

/-- A slice of the segment is a slice of its data. -/
theorem Segment.data_slice (S : Segment) {a n : Nat} (h1 : S.start ≤ a) (hn : a + n ≤ S.start + S.len) :
    (S.data.drop (a - S.start)).take n = S.slice a n := by
  refine List.ext_getElem (by simp; omega) fun k h3 h4 => ?_
  simp only [List.getElem_take, List.getElem_drop, Segment.data_getElem, Segment.slice, List.getElem_map, List.getElem_range]
  congr 1
  omega

/-- The data of a written segment: the bytes of the range replaced, the others kept (R57). -/
theorem Segment.data_write {S : Segment} (hw : S.wf = true) {a : Nat} {d : List Byte} (h1 : S.start ≤ a)
    (hn : a + d.length ≤ S.start + S.len) :
    (S.write a d).data = S.data.take (a - S.start) ++ d ++ S.data.drop (a - S.start + d.length) := by
  have hs := (Segment.wf_iff.1 hw).2.2.2.2.1
  have hlen : (S.write a d).len = S.len := rfl
  refine List.ext_getElem (by simp [hlen]; omega) fun k h3 h4 => ?_
  have hk : k < S.len := by simpa [hlen] using h3
  have hl : min (a - S.start) S.len = a - S.start := by omega
  rw [Segment.data_getElem]
  show (S.write a d).byte (S.start + k) = _
  rw [Segment.byte_write hs]
  by_cases c1 : k < a - S.start
  · rw [if_neg (by omega)]
    simp [hl, c1, Segment.data_getElem]
  · by_cases c2 : k < a - S.start + d.length
    · rw [if_pos (by omega)]
      have e3 : S.start + k - a = k - (a - S.start) := by omega
      simp [List.getElem_append, hl, c1, e3, show k - (a - S.start) < d.length by omega]
    · rw [if_neg (by omega)]
      have e5 : a - S.start + d.length + (k - (a - S.start) - d.length) = k := by omega
      simp [List.getElem_append, hl, c1, show ¬ k - (a - S.start) < d.length by omega, e5, Segment.data_getElem]

/-! ### The lookup (R55) -/

/-- The lookup gives the first segment, in table order, that contains the address. -/
theorem lookup_eq_some {m : Memory} {a : Nat} {S : Segment} :
    lookup m a = some S ↔
      S.contains a = true ∧ ∃ pre post, m = pre ++ S :: post ∧ ∀ T ∈ pre, T.contains a = false := by
  simp only [lookup, List.find?_eq_some_iff_append, Bool.not_eq_true']

theorem lookup_eq_none {m : Memory} {a : Nat} : lookup m a = none ↔ ∀ S ∈ m, S.contains a = false := by
  simp [lookup, List.find?_eq_none]

theorem lookup_cons (S : Segment) (m : Memory) (a : Nat) :
    lookup (S :: m) a = if S.contains a = true then some S else lookup m a := by
  simp only [lookup, List.find?_cons]
  cases S.contains a <;> rfl

theorem lookup_mem {m : Memory} {a : Nat} {S : Segment} (h : lookup m a = some S) : S ∈ m := by
  obtain ⟨-, pre, post, rfl, -⟩ := lookup_eq_some.1 h
  simp

/-! ### The access checks (R51) -/

/-- When an access passes every check. -/
theorem accessSegment_ok {s : State} {addr : Word64} {n : Nat} {S : Segment} :
    accessSegment s addr n = .ok S ↔
      addr.toNat % s.cfg.align = 0 ∧ s.cfg.inWindow addr.toNat = true ∧ lookup s.segs addr.toNat = some S ∧
        addr.toNat + n ≤ S.stop := by
  unfold accessSegment
  by_cases h1 : addr.toNat % s.cfg.align = 0
  · cases h2 : s.cfg.inWindow addr.toNat
    · simp [h1]
    · cases h3 : lookup s.segs addr.toNat with
      | none => simp [h1]
      | some T =>
        have hT : T.contains addr.toNat = true := (lookup_eq_some.1 h3).1
        simp only [h1, hT, ne_eq, not_true_eq_false, if_false, Bool.not_true, Bool.false_eq_true, true_and, Option.some.injEq]
        by_cases h4 : T.stop < addr.toNat + n
        · rw [if_pos h4]
          constructor
          · intro h; cases h
          · rintro ⟨rfl, h⟩; omega
        · rw [if_neg h4]
          constructor
          · intro h; cases h; exact ⟨rfl, by omega⟩
          · rintro ⟨rfl, -⟩; rfl
  · simp [h1]

/-- All an access that fails can raise, in the order of the checks; the containment assertion never fails (R58). -/
theorem accessSegment_error {s : State} {addr : Word64} {n : Nat} {f : Failure} (h : accessSegment s addr n = .error f) :
    (addr.toNat % s.cfg.align ≠ 0 ∧ f = .status .unaligned addr 0) ∨
    (addr.toNat % s.cfg.align = 0 ∧ s.cfg.inWindow addr.toNat = false ∧ f = .status .outOfBounds addr (sizePayload s n)) ∨
    (addr.toNat % s.cfg.align = 0 ∧ s.cfg.inWindow addr.toNat = true ∧ lookup s.segs addr.toNat = none ∧
      f = .status .addressNotMapped 0 0) ∨
    (addr.toNat % s.cfg.align = 0 ∧ s.cfg.inWindow addr.toNat = true ∧
      ∃ S, lookup s.segs addr.toNat = some S ∧ S.stop < addr.toNat + n ∧ f = .fatal .span) := by
  unfold accessSegment at h
  split at h
  · exact .inl ⟨by assumption, (Except.error.inj h).symm⟩
  · rename_i h1
    have h1 : addr.toNat % s.cfg.align = 0 := not_not.1 h1
    split at h
    · rename_i h2
      exact .inr (.inl ⟨h1, by simpa using h2, (Except.error.inj h).symm⟩)
    · rename_i h2
      have h2 : s.cfg.inWindow addr.toNat = true := by simpa using h2
      split at h
      · exact .inr (.inr (.inl ⟨h1, h2, by assumption, (Except.error.inj h).symm⟩))
      · rename_i S hS
        rw [(lookup_eq_some.1 hS).1] at h
        simp only [Bool.not_true, Bool.false_eq_true, if_false] at h
        split at h
        · exact .inr (.inr (.inr ⟨h1, h2, S, hS, by assumption, (Except.error.inj h).symm⟩))
        · cases h

theorem accessSegment_unaligned {s : State} {addr : Word64} {n : Nat} (h : addr.toNat % s.cfg.align ≠ 0) :
    accessSegment s addr n = .error (.status .unaligned addr 0) := by
  unfold accessSegment; rw [if_pos h]

theorem accessSegment_outside {s : State} {addr : Word64} {n : Nat} (h : addr.toNat % s.cfg.align = 0)
    (hw : s.cfg.inWindow addr.toNat = false) : accessSegment s addr n = .error (.status .outOfBounds addr (sizePayload s n)) := by
  unfold accessSegment; simp [h, hw]

theorem accessSegment_unmapped {s : State} {addr : Word64} {n : Nat} (h : addr.toNat % s.cfg.align = 0)
    (hw : s.cfg.inWindow addr.toNat = true) (hl : lookup s.segs addr.toNat = none) :
    accessSegment s addr n = .error (.status .addressNotMapped 0 0) := by
  unfold accessSegment; simp [h, hw, hl]

theorem accessSegment_span {s : State} {addr : Word64} {n : Nat} {S : Segment} (h : addr.toNat % s.cfg.align = 0)
    (hw : s.cfg.inWindow addr.toNat = true) (hl : lookup s.segs addr.toNat = some S) (hs : S.stop < addr.toNat + n) :
    accessSegment s addr n = .error (.fatal .span) := by
  unfold accessSegment; simp [h, hw, hl, (lookup_eq_some.1 hl).1, hs]

theorem memRead_ok {s : State} {addr : Word64} {n : Nat} {bs : List Byte} :
    memRead s addr n = .ok bs ↔ ∃ S, accessSegment s addr n = .ok S ∧ bs = S.slice addr.toNat n := by
  unfold memRead
  split <;> rename_i h <;> simp [h, eq_comm]

theorem memRead_error {s : State} {addr : Word64} {n : Nat} {f : Failure} :
    memRead s addr n = .error f ↔ accessSegment s addr n = .error f := by
  unfold memRead
  split <;> rename_i h <;> simp [h]

theorem memWrite_ok {s t : State} {addr : Word64} {bs : List Byte} :
    memWrite s addr bs = .ok t ↔
      ∃ S, accessSegment s addr bs.length = .ok S ∧ t = { s with segs := writeSegments addr.toNat bs s.segs } := by
  unfold memWrite
  split <;> rename_i h <;> simp [h, eq_comm]

theorem memWrite_error {s : State} {addr : Word64} {bs : List Byte} {f : Failure} :
    memWrite s addr bs = .error f ↔ accessSegment s addr bs.length = .error f := by
  unfold memWrite
  split <;> rename_i h <;> simp [h]

/-! ### Writing the table (R57) -/

/-- A write changes exactly the segment the lookup gives. -/
theorem writeSegments_eq {m : Memory} {a : Nat} {bs : List Byte} {pre post : Memory} {S : Segment}
    (hm : m = pre ++ S :: post) (hpre : ∀ T ∈ pre, T.contains a = false) (hS : S.contains a = true) :
    writeSegments a bs m = pre ++ S.write a bs :: post := by
  subst hm
  induction pre with
  | nil => simp [writeSegments, hS]
  | cons T pre ih =>
    have hT := hpre T List.mem_cons_self
    simp [writeSegments, hT, ih fun U hU => hpre U (List.mem_cons_of_mem _ hU)]

theorem writeSegments_none {m : Memory} {a : Nat} (bs : List Byte) (h : lookup m a = none) : writeSegments a bs m = m := by
  induction m with
  | nil => rfl
  | cons S m ih =>
    have h' := lookup_eq_none.1 h
    simp [writeSegments, h' S List.mem_cons_self, ih (lookup_eq_none.2 fun T hT => h' T (List.mem_cons_of_mem _ hT))]

/-- Which segment an address maps to does not change, only that segment's bytes when it is the one written. -/
theorem lookup_writeSegments (m : Memory) (a : Nat) (bs : List Byte) (k : Nat) :
    lookup (writeSegments a bs m) k = lookup m k ∨
      ∃ S, lookup m a = some S ∧ lookup m k = some S ∧ lookup (writeSegments a bs m) k = some (S.write a bs) := by
  induction m with
  | nil => exact .inl rfl
  | cons S m ih =>
    rw [writeSegments]
    by_cases hS : S.contains a = true
    · rw [if_pos hS, lookup_cons, lookup_cons, lookup_cons, Segment.write_contains]
      by_cases hk : S.contains k = true
      · exact .inr ⟨S, by simp [hS], by simp [hk], by simp [hk]⟩
      · exact .inl (by simp [hk])
    · rw [if_neg hS, lookup_cons, lookup_cons, lookup_cons, if_neg hS]
      by_cases hk : S.contains k = true
      · exact .inl (by simp [hk])
      · simpa [hk] using ih

theorem mem_writeSegments {m : Memory} {a : Nat} {bs : List Byte} {T : Segment} (h : T ∈ writeSegments a bs m) :
    T ∈ m ∨ ∃ S, lookup m a = some S ∧ T = S.write a bs := by
  cases hl : lookup m a with
  | none => rw [writeSegments_none bs hl] at h; exact .inl h
  | some S =>
    obtain ⟨hS, pre, post, hm, hpre⟩ := lookup_eq_some.1 hl
    rw [writeSegments_eq hm hpre hS] at h
    simp only [List.mem_append, List.mem_cons] at h
    rcases h with h | rfl | h
    · exact .inl (hm ▸ List.mem_append_left _ h)
    · exact .inr ⟨S, rfl, rfl⟩
    · exact .inl (hm ▸ List.mem_append_right _ (List.mem_cons_of_mem _ h))

theorem writeSegments_starts (m : Memory) (a : Nat) (bs : List Byte) :
    (writeSegments a bs m).map Segment.start = m.map Segment.start := by
  induction m with
  | nil => rfl
  | cons S m ih => rw [writeSegments]; split <;> simp [ih, Segment.write]

theorem writeSegments_lens (m : Memory) (a : Nat) (bs : List Byte) :
    (writeSegments a bs m).map Segment.len = m.map Segment.len := by
  induction m with
  | nil => rfl
  | cons S m ih => rw [writeSegments]; split <;> simp [ih, Segment.write]

/-- R57: a write that passed the checks keeps the canonical form. -/
theorem memWrite_wf {s t : State} {addr : Word64} {bs : List Byte} (h : memWrite s addr bs = .ok t)
    (hm : Memory.wf s.segs = true) : Memory.wf t.segs = true := by
  obtain ⟨S, hacc, rfl⟩ := memWrite_ok.1 h
  obtain ⟨-, -, hl, hspan⟩ := accessSegment_ok.1 hacc
  obtain ⟨hp, hw⟩ := Memory.wf_iff.1 hm
  refine Memory.wf_iff.2 ⟨?_, fun T hT => ?_⟩
  · have := writeSegments_starts s.segs addr.toNat bs
    rw [← List.pairwise_map (f := Segment.start) (R := (· < ·))] at hp ⊢
    exact this ▸ hp
  · rcases mem_writeSegments hT with hT | ⟨U, hU, rfl⟩
    · exact hw T hT
    · cases hl.symm.trans hU
      exact Segment.write_wf (hw S (lookup_mem hl)) (Segment.contains_iff.1 (lookup_eq_some.1 hl).1).1 hspan

end Machine

end Sys2Proof
end

