-- ==== Sys2Proof/Laws/Alloc.lean ====
section
/-! SUPPORT. What the allocator can answer (R111), and that every change it makes keeps the canonical form of the table (R28). -/

namespace Sys2Proof

/-! ### Sizes (R10, R111 step 3) -/

theorem pow2ceil_eq_pow (x : Nat) : ∃ k, pow2ceil x = 2 ^ k := by
  unfold pow2ceil
  split
  · exact ⟨0, rfl⟩
  · exact ⟨_, rfl⟩

theorem le_pow2ceil (x : Nat) : x ≤ pow2ceil x := by
  unfold pow2ceil
  split
  · assumption
  · have := Nat.lt_log2_self (n := x - 1)
    omega

namespace Machine

theorem blockSize_le_allocLength (n : Nat) : blockSize ≤ allocLength n := by
  unfold allocLength
  split
  · exact Nat.le_refl _
  · exact Nat.le_trans (by omega) (le_pow2ceil n)

theorem allocLength_mod (n : Nat) : allocLength n % blockSize = 0 := by
  have hle := blockSize_le_allocLength n
  unfold allocLength at hle ⊢
  split
  · rfl
  · rename_i h
    rw [if_neg h] at hle
    obtain ⟨k, hk⟩ := pow2ceil_eq_pow n
    rw [hk] at hle ⊢
    have h12 : 12 ≤ k := by
      by_contra hc
      have : 2 ^ k < 2 ^ 12 := Nat.pow_lt_pow_right (by omega) (by omega)
      simp only [blockSize] at hle
      omega
    obtain ⟨j, rfl⟩ := Nat.exists_eq_add_of_le h12
    rw [Nat.pow_add]
    exact Nat.mul_mod_right 4096 _

theorem le_allocLength (n : Nat) : n ≤ allocLength n := by
  unfold allocLength
  split
  · omega
  · exact le_pow2ceil n

theorem rounddown_block_mod (h : Nat) : (h - h % blockSize) % blockSize = 0 := by
  simp only [blockSize]; omega

/-! ### The scan (R111 step 5) -/

/-- No case of step 5 matches a segment. -/
abbrev passes (adjacent : Bool) (addr s : Nat) (S : Segment) : Prop :=
  S.contains addr = false ∧ S.stop ≠ addr ∧ reachesInto adjacent addr s S = false

/-- All the scan can find: the first segment a case matches, with the segments passed before it; or that none matches. -/
theorem allocScan_cases (adjacent : Bool) (addr s : Nat) (pre m : Memory) :
    (allocScan adjacent addr s pre m = .fresh ∧ ∀ S ∈ m, passes adjacent addr s S) ∨
    ∃ mid S post, m = mid ++ S :: post ∧ (∀ T ∈ mid, passes adjacent addr s T) ∧
      ((S.contains addr = true ∧ allocScan adjacent addr s pre m = .mapped S) ∨
       (S.contains addr = false ∧ S.stop = addr ∧ allocScan adjacent addr s pre m = .extend (pre ++ mid) S post) ∨
       (S.contains addr = false ∧ S.stop ≠ addr ∧ reachesInto adjacent addr s S = true ∧
          allocScan adjacent addr s pre m = .backward (pre ++ mid) S post)) := by
  induction m generalizing pre with
  | nil => exact .inl ⟨rfl, by simp⟩
  | cons S m ih =>
    rw [allocScan]
    by_cases h1 : S.contains addr = true
    · exact .inr ⟨[], S, m, by simp, by simp, .inl ⟨h1, by simp [h1]⟩⟩
    · by_cases h2 : S.stop = addr
      · exact .inr ⟨[], S, m, by simp, by simp, .inr (.inl ⟨by simpa using h1, h2, by simp [h1, h2]⟩)⟩
      · by_cases h3 : reachesInto adjacent addr s S = true
        · exact .inr ⟨[], S, m, by simp, by simp, .inr (.inr ⟨by simpa using h1, h2, h3, by simp [h1, h2, h3]⟩)⟩
        · have hp : passes adjacent addr s S := ⟨by simpa using h1, h2, by simpa using h3⟩
          rw [if_neg h1, if_neg h2, if_neg h3]
          rcases ih (pre ++ [S]) with ⟨hf, hall⟩ | ⟨mid, T, post, rfl, hmid, hcase⟩
          · refine .inl ⟨hf, fun T hT => ?_⟩
            rcases List.mem_cons.1 hT with rfl | hT
            · exact hp
            · exact hall T hT
          · refine .inr ⟨S :: mid, T, post, rfl, fun U hU => ?_, by simpa using hcase⟩
            rcases List.mem_cons.1 hU with rfl | hU
            · exact hp
            · exact hmid U hU

/-- The scan passes over the segments no case matches. -/
theorem allocScan_append {adjacent : Bool} {addr s : Nat} {pre : Memory} (h : ∀ T ∈ pre, passes adjacent addr s T) (done m : Memory) :
    allocScan adjacent addr s done (pre ++ m) = allocScan adjacent addr s (done ++ pre) m := by
  induction pre generalizing done with
  | nil => simp
  | cons T pre ih =>
    obtain ⟨h1, h2, h3⟩ := h T List.mem_cons_self
    rw [List.cons_append, allocScan, if_neg (by simp [h1]), if_neg h2, if_neg (by simp [h3]),
      ih fun U hU => h U (List.mem_cons_of_mem _ hU)]
    simp

theorem reachesInto_iff {adjacent : Bool} {addr s : Nat} {S : Segment} :
    reachesInto adjacent addr s S = true ↔
      addr < S.start ∧ (S.start < addr + s ∨ (adjacent = true ∧ addr + s = S.start)) := by
  simp [reachesInto]

/-- A passed segment lies wholly below the new range, or starts at its end or above it. -/
theorem passes_apart {adjacent : Bool} {addr s : Nat} {S : Segment} (h : passes adjacent addr s S) :
    S.stop < addr ∨ addr + s ≤ S.start := by
  obtain ⟨h1, h2, h3⟩ := h
  by_contra hc
  have h4 : ¬ (S.start ≤ addr ∧ addr < S.start + S.len) := fun e => by
    rw [Segment.contains_iff.2 e] at h1; cases h1
  have h5 : ¬ (addr < S.start ∧ S.start < addr + s) := fun e => by
    rw [reachesInto_iff.2 ⟨e.1, .inl e.2⟩] at h3; cases h3
  simp only [Segment.stop] at hc h2
  omega

/-! ### Inserting a segment (R110) -/

theorem mem_insertSegment {T U : Segment} {m : Memory} : U ∈ insertSegment T m ↔ U = T ∨ U ∈ m := by
  induction m with
  | nil => simp [insertSegment]
  | cons S m ih =>
    rw [insertSegment]
    split
    · simp
    · simp only [List.mem_cons, ih]
      tauto

theorem insertSegment_ascending {T : Segment} {m : Memory} (hm : m.Pairwise fun S U => S.start < U.start)
    (hT : ∀ S ∈ m, S.start ≠ T.start) : (insertSegment T m).Pairwise fun S U => S.start < U.start := by
  induction m with
  | nil => simp [insertSegment]
  | cons S m ih =>
    obtain ⟨h1, h2⟩ := List.pairwise_cons.1 hm
    have hS := hT S List.mem_cons_self
    rw [insertSegment]
    split
    · refine List.pairwise_cons.2 ⟨fun U hU => ?_, hm⟩
      rcases List.mem_cons.1 hU with rfl | hU
      · assumption
      · have := h1 U hU; omega
    · refine List.pairwise_cons.2 ⟨fun U hU => ?_, ih h2 fun U hU => hT U (List.mem_cons_of_mem _ hU)⟩
      rcases mem_insertSegment.1 hU with rfl | hU
      · omega
      · exact h1 U hU

theorem insertSegment_perm (T : Segment) (m : Memory) : (insertSegment T m).Perm (T :: m) := by
  induction m with
  | nil => exact .refl _
  | cons S m ih =>
    rw [insertSegment]
    split
    · exact .refl _
    · exact (ih.cons S).trans (.swap T S m)

theorem backed_insertSegment (T : Segment) (m : Memory) : backed (insertSegment T m) = T.len + backed m := by
  simpa [backed] using ((insertSegment_perm T m).map Segment.len).sum_eq

theorem backed_append (m n : Memory) : backed (m ++ n) = backed m + backed n := by simp [backed]

theorem backed_cons (S : Segment) (m : Memory) : backed (S :: m) = S.len + backed m := by simp [backed]

/-! ### The three changes of a segment -/

theorem Segment.zeros_wf {start len : Nat} (h1 : start % blockSize = 0) (h2 : len % blockSize = 0) (h3 : blockSize ≤ len)
    (h4 : start + len ≤ 2 ^ 64) : (Segment.zeros start len).wf = true :=
  Segment.wf_iff.2 ⟨h1, h2, h3, h4, ⟨List.Pairwise.nil, by simp [Segment.zeros]⟩, by simp [Segment.zeros]⟩

theorem Segment.extend_wf {S : Segment} (h : S.wf = true) {g : Nat} (hg : g % blockSize = 0) (ht : S.stop + g ≤ 2 ^ 64) :
    (S.extend g).wf = true := by
  obtain ⟨h1, h2, h3, -, h5, h6⟩ := Segment.wf_iff.1 h
  simp only [blockSize, Segment.stop] at hg ht
  refine Segment.wf_iff.2 ⟨h1, by show (S.len + g) % 4096 = 0; omega, by show 4096 ≤ S.len + g; omega,
    by show S.start + (S.len + g) ≤ 2 ^ 64; omega, h5, fun c hc => ?_⟩
  have := Segment.contains_iff.1 (h6 c hc)
  exact Segment.contains_iff.2 ⟨this.1, by show _ < S.start + (S.len + g); omega⟩

theorem Segment.growBackward_wf {S : Segment} (h : S.wf = true) {addr len : Nat} (h1 : addr % blockSize = 0)
    (h2 : len % blockSize = 0) (ha : addr < S.start) (hl : S.stop ≤ addr + len) (ht : addr + len ≤ 2 ^ 64) :
    (S.growBackward addr len).wf = true := by
  obtain ⟨-, -, h3, -, h5, h6⟩ := Segment.wf_iff.1 h
  simp only [blockSize, Segment.stop] at h1 h2 hl
  refine Segment.wf_iff.2 ⟨h1, h2, by show 4096 ≤ len; omega, ht, h5, fun c hc => ?_⟩
  have := Segment.contains_iff.1 (h6 c hc)
  exact Segment.contains_iff.2 ⟨by show addr ≤ _; omega, by show _ < addr + len; omega⟩

theorem Segment.zeros_data (start n : Nat) : (Segment.zeros start n).data = List.replicate n 0 := by
  refine List.ext_getElem (by simp [Segment.zeros]) fun k h1 h2 => ?_
  simp [Segment.data_getElem, Segment.zeros, Segment.byte, readCell]

theorem Segment.extend_data {S : Segment} (h : S.wf = true) (g : Nat) : (S.extend g).data = S.data ++ List.replicate g 0 := by
  have hlen : (S.extend g).len = S.len + g := rfl
  refine List.ext_getElem (by simp [hlen]) fun k h1 h2 => ?_
  rw [Segment.data_getElem, List.getElem_append]
  split
  · rw [Segment.data_getElem]; rfl
  · rename_i h3
    rw [List.getElem_replicate]
    refine Segment.byte_outside h ?_
    rw [← Bool.not_eq_true, Segment.contains_iff]
    rintro ⟨-, h4⟩
    have h5 : S.start + k < S.start + S.len := h4
    simp at h3
    omega

theorem Segment.growBackward_data {S : Segment} (h : S.wf = true) {addr n : Nat} (ha : addr < S.start)
    (hn : S.start + S.len - addr ≤ n) :
    (S.growBackward addr n).data =
      List.replicate (S.start - addr) 0 ++ S.data ++ List.replicate (n - (S.start - addr) - S.len) 0 := by
  have hlen : (S.growBackward addr n).len = n := rfl
  have hout : ∀ j, ¬ (S.start ≤ j ∧ j < S.start + S.len) → S.byte j = 0 := fun j hj =>
    Segment.byte_outside h (by rw [← Bool.not_eq_true, Segment.contains_iff]; exact hj)
  refine List.ext_getElem (by simp [hlen]; omega) fun k h1 h2 => ?_
  rw [Segment.data_getElem]
  show S.byte (addr + k) = _
  by_cases c1 : k < S.start - addr
  · rw [hout _ (by omega)]
    simp [c1]
  · by_cases c2 : k - (S.start - addr) < S.len
    · have e : S.start + (k - (S.start - addr)) = addr + k := by omega
      simp [List.getElem_append, c1, c2, Segment.data_getElem, e]
    · rw [hout _ (by omega)]
      simp [List.getElem_append, c1, c2]

/-! ### What `ALLOC` can answer (R111) -/

/-- The rounded hint of `ALLOC` (R111 step 1). -/
abbrev allocAddr (hint : Word64) : Nat := hint.toNat - hint.toNat % blockSize

/-- The rounded size of `ALLOC` (R111 step 3). -/
abbrev allocSize (hint size : Word64) : Nat := allocLength (size.toNat + hint.toNat % blockSize)

/-- What a successful `ALLOC` does to the table: `g` more bytes backed, the new table, and the address it answers. -/
inductive Allocates (adjacent : Bool) (addr len : Nat) (m : Memory) : Nat → Memory → Nat → Prop where
  | extend {pre : Memory} {S : Segment} {post : Memory} (hm : m = pre ++ S :: post)
      (hpre : ∀ T ∈ pre, passes adjacent addr len T) (hS : S.contains addr = false) (hstop : S.stop = addr) :
      Allocates adjacent addr len m len (pre ++ S.extend len :: post) S.start
  | backward {pre : Memory} {S : Segment} {post : Memory} (hm : m = pre ++ S :: post)
      (hpre : ∀ T ∈ pre, passes adjacent addr len T) (hS : S.contains addr = false) (hstop : S.stop ≠ addr)
      (hreach : reachesInto adjacent addr len S = true) :
      Allocates adjacent addr len m (max len (S.stop - addr) - S.len)
        (insertSegment (S.growBackward addr (max len (S.stop - addr))) (pre ++ post)) addr
  | fresh (hall : ∀ T ∈ m, passes adjacent addr len T) :
      Allocates adjacent addr len m len (insertSegment (Segment.zeros addr len) m) addr

theorem overCapacity_iff {s : State} {g : Nat} :
    overCapacity s g = true ↔ ∃ limit, s.cfg.backingLimit = some limit ∧ limit < backed s.segs + g := by
  unfold overCapacity
  cases s.cfg.backingLimit <;> simp

theorem commitAlloc_eq (s : State) (g : Nat) (segs : Memory) (address : Nat) :
    commitAlloc s g segs address =
      if overCapacity s g = true then s.fail (.fatal .capacity)
      else { s with segs := segs }.succeed (.word 64 (BitVec.ofNat 64 address)) := rfl

/-- All `ALLOC` can answer after the prologue: a failure that changes nothing but the response and the fatal state, or a success
with one of the three changes of the table. -/
theorem allocate_cases {hint size : Word64} {s t : State} (h : allocate hint size s = .next t) :
    (∃ f, s.fail f = .next t ∧
      ((s.cfg.dramSize < size.toNat ∧ f = .status .outOfBounds hint size) ∨
       (size.toNat ≤ s.cfg.dramSize ∧ (2 ^ 64 ≤ allocSize hint size ∨ 2 ^ 64 < allocAddr hint + allocSize hint size) ∧
          f = .fatal .overflow) ∨
       (∃ S ∈ s.segs, S.contains (allocAddr hint) = true ∧ f = .status .addressAlreadyMapped (BitVec.ofNat 64 S.start) 0) ∨
       (∃ g m a, Allocates s.cfg.backwardMergeAdjacent (allocAddr hint) (allocSize hint size) s.segs g m a ∧
          overCapacity s g = true ∧ f = .fatal .capacity))) ∨
    (∃ g m a, Allocates s.cfg.backwardMergeAdjacent (allocAddr hint) (allocSize hint size) s.segs g m a ∧
      overCapacity s g = false ∧ size.toNat ≤ s.cfg.dramSize ∧ allocSize hint size < 2 ^ 64 ∧
      allocAddr hint + allocSize hint size ≤ 2 ^ 64 ∧
      t = { s with segs := m }.respond (Response.okWith (.word 64 (BitVec.ofNat 64 a)))) := by
  unfold allocate at h
  simp only at h
  split at h
  · exact .inl ⟨_, h, .inl ⟨by assumption, rfl⟩⟩
  · rename_i hd
    split at h
    · exact .inl ⟨_, h, .inr (.inl ⟨by omega, by assumption, rfl⟩)⟩
    · rename_i ho
      have hs : allocSize hint size < 2 ^ 64 := by show allocLength _ < _; omega
      have ha : allocAddr hint + allocSize hint size ≤ 2 ^ 64 := by
        show hint.toNat - hint.toNat % blockSize + allocLength _ ≤ _
        omega
      have hcase : (∃ g m a, Allocates s.cfg.backwardMergeAdjacent (allocAddr hint) (allocSize hint size) s.segs g m a ∧
            commitAlloc s g m a = .next t) ∨
          ∃ S ∈ s.segs, S.contains (allocAddr hint) = true ∧
            s.fail (.status .addressAlreadyMapped (BitVec.ofNat 64 S.start) 0) = .next t := by
        rcases allocScan_cases s.cfg.backwardMergeAdjacent (allocAddr hint) (allocSize hint size) [] s.segs with
          ⟨hf, hall⟩ | ⟨pre, S, post, hm, hpre, ⟨hc, hscan⟩ | ⟨hc, hstop, hscan⟩ | ⟨hc, hstop, hreach, hscan⟩⟩
        · rw [hf] at h
          exact .inl ⟨_, _, _, .fresh hall, h⟩
        · rw [hscan] at h
          exact .inr ⟨S, hm ▸ by simp, hc, h⟩
        · rw [hscan, List.nil_append] at h
          exact .inl ⟨_, _, _, .extend hm hpre hc hstop, h⟩
        · rw [hscan, List.nil_append] at h
          exact .inl ⟨_, _, _, .backward hm hpre hc hstop hreach, h⟩
      rcases hcase with ⟨g, m, a, hA, hc⟩ | ⟨S, hS, hc, hf⟩
      · rw [commitAlloc_eq] at hc
        split at hc
        · exact .inl ⟨_, hc, .inr (.inr (.inr ⟨g, m, a, hA, by assumption, rfl⟩))⟩
        · exact .inr ⟨g, m, a, hA, by simpa using ‹¬ overCapacity s g = true›, by omega, hs, ha, (Host.Outcome.next.inj hc).symm⟩
      · exact .inl ⟨_, hf, .inr (.inr (.inl ⟨S, hS, hc, rfl⟩))⟩

/-- Every change of the table keeps its canonical form (R28). -/
theorem Allocates.wf {adjacent : Bool} {addr len : Nat} {m : Memory} {g : Nat} {m' : Memory} {a : Nat}
    (h : Allocates adjacent addr len m g m' a) (hm : Memory.wf m = true) (h1 : addr % blockSize = 0)
    (h2 : len % blockSize = 0) (h3 : blockSize ≤ len) (h4 : addr + len ≤ 2 ^ 64) : Memory.wf m' = true := by
  obtain ⟨hp, hw⟩ := Memory.wf_iff.1 hm
  have hstart : ∀ S ∈ m, S.contains addr = false → S.start ≠ addr := fun S hS hc he => by
    obtain ⟨-, -, hlen, -⟩ := Segment.wf_iff.1 (hw S hS)
    rw [Segment.contains_iff.2 ⟨by omega, by omega⟩] at hc
    cases hc
  cases h with
  | @extend pre S post hm' hpre hS hstop =>
    subst hm'
    refine Memory.wf_iff.2 ⟨?_, fun T hT => ?_⟩
    · rw [← List.pairwise_map (f := Segment.start) (R := (· < ·))] at hp ⊢
      simpa [Segment.extend] using hp
    · rcases List.mem_append.1 hT with hT | hT
      · exact hw T (List.mem_append_left _ hT)
      · rcases List.mem_cons.1 hT with rfl | hT
        · exact Segment.extend_wf (hw S (by simp)) h2 (by rw [hstop]; exact h4)
        · exact hw T (List.mem_append_right _ (List.mem_cons_of_mem _ hT))
  | @backward pre S post hm' hpre hS hstop hreach =>
    subst hm'
    have hSw := hw S (by simp)
    obtain ⟨hs1, hs2, hs3, hs4, -, -⟩ := Segment.wf_iff.1 hSw
    obtain ⟨hlt, -⟩ := reachesInto_iff.1 hreach
    have hstopEq : S.stop = S.start + S.len := rfl
    have hsub : (pre ++ post).Sublist (pre ++ S :: post) := List.Sublist.append_left (List.sublist_cons_self S post) pre
    refine Memory.wf_iff.2 ⟨insertSegment_ascending (hp.sublist hsub) fun T hT => ?_, fun T hT => ?_⟩
    · show T.start ≠ addr
      rcases List.mem_append.1 hT with hT | hT
      · exact hstart T (by simp [hT]) (hpre T hT).1
      · have : S.start < T.start := by
          rw [List.pairwise_append] at hp
          exact (List.pairwise_cons.1 hp.2.1).1 T hT
        omega
    · rcases mem_insertSegment.1 hT with rfl | hT
      · refine Segment.growBackward_wf hSw h1 ?_ hlt (by omega) (by omega)
        simp only [blockSize] at h1 h2 ⊢
        rcases Nat.le_total len (S.stop - addr) with hle | hle
        · rw [Nat.max_eq_right hle]; omega
        · rw [Nat.max_eq_left hle]; exact h2
      · exact hw T (hsub.subset hT)
  | fresh hall =>
    refine Memory.wf_iff.2 ⟨insertSegment_ascending hp fun T hT => hstart T hT (hall T hT).1, fun T hT => ?_⟩
    rcases mem_insertSegment.1 hT with rfl | hT
    · exact Segment.zeros_wf h1 h2 h3 h4
    · exact hw T hT

/-- A successful `ALLOC` keeps the canonical form of the table (R28). -/
theorem allocate_wf {hint size : Word64} {s t : State} (h : allocate hint size s = .next t) (hm : Memory.wf s.segs = true) :
    Memory.wf t.segs = true := by
  rcases allocate_cases h with ⟨f, hf, -⟩ | ⟨g, m, a, hA, -, -, -, h4, rfl⟩
  · rcases State.fail_cases hf with ⟨_, _, _, _, rfl⟩ | ⟨_, _, rfl⟩ <;> exact hm
  · exact hA.wf hm (rounddown_block_mod _) (allocLength_mod _) (blockSize_le_allocLength _) h4

/-- The table after reset is in canonical form. -/
theorem construct_wf (cfg : Config) : Memory.wf (State.construct cfg).segs = true := rfl

end Machine

end Sys2Proof
end

