-- ==== Sys2Proof/Laws/Elements.lean ====
section
/-! SUPPORT. The element codec (R11, R170) and the bytes of a SIMD register after a write (R173). -/

namespace Sys2Proof

/-! ### Little-endian bytes (R11) -/

@[simp] theorem leEncode_length (k v : Nat) : (leEncode k v).length = k := by
  induction k generalizing v with
  | zero => rfl
  | succ k ih => simp [leEncode, ih]

theorem leDecode_leEncode {k v : Nat} (h : v < 256 ^ k) : leDecode (leEncode k v) = v := by
  induction k generalizing v with
  | zero => simp [leEncode, leDecode]; omega
  | succ k ih =>
    rw [Nat.pow_succ] at h
    have hv : v / 256 < 256 ^ k := Nat.div_lt_of_lt_mul (by omega)
    rw [leEncode, leDecode, ih hv, BitVec.toNat_ofNat, Nat.mod_eq_of_lt (by omega : v % 256 < 2 ^ 8)]
    omega

theorem leDecode_lt (bs : List Byte) : leDecode bs < 256 ^ bs.length := by
  induction bs with
  | nil => simp [leDecode]
  | cons b bs ih =>
    have hb : b.toNat < 256 := b.isLt
    rw [leDecode, List.length_cons, Nat.pow_succ]
    omega

theorem leEncode_leDecode (bs : List Byte) : leEncode bs.length (leDecode bs) = bs := by
  induction bs with
  | nil => rfl
  | cons b bs ih =>
    have hb : b.toNat < 256 := b.isLt
    have h1 : (b.toNat + 256 * leDecode bs) % 256 = b.toNat := by omega
    have h2 : (b.toNat + 256 * leDecode bs) / 256 = leDecode bs := by omega
    rw [List.length_cons, leDecode, leEncode, h1, h2, ih, BitVec.ofNat_toNat]
    simp

/-! ### The element codec (R170) -/

@[simp] theorem elemEncode_length (t : ElemType) (e : Int) : (elemEncode t e).length = t.width := leEncode_length _ _

theorem ElemType.width_pos (t : ElemType) : 0 < t.width := by cases t <;> decide

/-- The value domains of R14. -/
theorem ElemType.inDomain_iff {t : ElemType} {e : Int} :
    t.inDomain e = true ↔
      if t.signed = true then -(2 ^ (8 * t.width - 1)) ≤ e ∧ e < 2 ^ (8 * t.width - 1) else 0 ≤ e ∧ e < 2 ^ (8 * t.width) := by
  unfold ElemType.inDomain
  split <;> simp only [Bool.and_eq_true, decide_eq_true_eq]

/-- Decoding the encoding of an element of the domain gives it back. -/
theorem elemDecode_elemEncode {t : ElemType} {e : Int} (h : t.inDomain e = true) : elemDecode t (elemEncode t e) = e := by
  rw [ElemType.inDomain_iff] at h
  cases t <;>
    simp only [ElemType.signed, ElemType.width, if_true, Bool.false_eq_true, if_false] at h <;>
    simp only [elemDecode, elemEncode, elemBits, signedOf, ElemType.signed, ElemType.width, if_true, Bool.false_eq_true,
      if_false] <;>
    rw [leDecode_leEncode (by omega)] <;> (try split) <;> omega

/-- Any bytes of an element's width decode to an element of the domain. -/
theorem elemDecode_inDomain {t : ElemType} {bs : List Byte} (h : bs.length = t.width) : t.inDomain (elemDecode t bs) = true := by
  have hlt := leDecode_lt bs
  rw [h] at hlt
  rw [ElemType.inDomain_iff]
  cases t <;>
    simp only [elemDecode, signedOf, ElemType.signed, ElemType.width, if_true, Bool.false_eq_true, if_false] at hlt ⊢ <;>
    omega

/-- Encoding what bytes of an element's width decode to gives the bytes back. -/
theorem elemEncode_elemDecode {t : ElemType} {bs : List Byte} (h : bs.length = t.width) : elemEncode t (elemDecode t bs) = bs := by
  have hlt := leDecode_lt bs
  have hbits : elemBits t (elemDecode t bs) = leDecode bs := by
    rw [h] at hlt
    cases t <;>
      simp only [elemBits, elemDecode, signedOf, ElemType.signed, ElemType.width, if_true, Bool.false_eq_true, if_false]
        at hlt ⊢ <;>
      omega
  rw [elemEncode, hbits, ← h, leEncode_leDecode]

theorem elemsImage_cons (t : ElemType) (e : Int) (es : List Int) : elemsImage t (e :: es) = elemEncode t e ++ elemsImage t es := by
  simp [elemsImage]

theorem elemsImage_length (t : ElemType) (es : List Int) : (elemsImage t es).length = es.length * t.width := by
  induction es with
  | nil => simp [elemsImage]
  | cons e es ih => rw [elemsImage_cons, List.length_append, ih, elemEncode_length, List.length_cons, Nat.succ_mul, Nat.add_comm]

/-- Element `k` of an image, whatever follows the image. -/
theorem elemsImage_slot (t : ElemType) (es : List Int) (rest : List Byte) {k : Nat} (h : k < es.length) :
    ((elemsImage t es ++ rest).drop (k * t.width)).take t.width = elemEncode t es[k] := by
  induction es generalizing k with
  | nil => simp at h
  | cons e es ih =>
    rw [elemsImage_cons, List.append_assoc]
    cases k with
    | zero => simp
    | succ k =>
      have hk : k < es.length := by simpa using h
      have e1 : (k + 1) * t.width = (elemEncode t e).length + k * t.width := by rw [elemEncode_length, Nat.succ_mul, Nat.add_comm]
      rw [e1, List.drop_length_add_append]
      simpa using ih hk

@[simp] theorem elemsOfImage_length (t : ElemType) (n : Nat) (bs : List Byte) : (elemsOfImage t n bs).length = n := by
  simp [elemsOfImage]

theorem elemsOfImage_get (t : ElemType) {n : Nat} (bs : List Byte) {k : Nat} (h : k < n) :
    (elemsOfImage t n bs)[k]! = elemDecode t ((bs.drop (k * t.width)).take t.width) := by
  simp [elemsOfImage, h]

/-- The elements of an image of elements in the domain, whatever follows the image, are those elements. -/
theorem elemsOfImage_elemsImage {t : ElemType} {es : List Int} (h : ∀ e ∈ es, t.inDomain e = true) (rest : List Byte) {n : Nat}
    (hn : n ≤ es.length) : elemsOfImage t n (elemsImage t es ++ rest) = es.take n := by
  refine List.ext_getElem (by simp [hn]) fun k h1 h2 => ?_
  have hk : k < es.length := by simp at h1; omega
  simp only [elemsOfImage, List.getElem_map, List.getElem_range, List.getElem_take]
  rw [elemsImage_slot t es rest hk, elemDecode_elemEncode (h _ (List.getElem_mem hk))]

/-- What `elementsFit` says (R90). -/
theorem elementsFit_iff {vw : View} {t : ElemType} {es : List Int} :
    elementsFit vw t es = true ↔ es.length = elemCount vw t ∧ ∀ e ∈ es, t.inDomain e = true := by
  simp [elementsFit]

theorem elemCount_mul_width (vw : View) (t : ElemType) : elemCount vw t * t.width = vw.bytes := by
  cases vw <;> cases t <;> rfl

namespace Machine

/-! ### Writing the bytes of a register (R173) -/

/-- A range write that fits leaves the bytes before and after it as they were. -/
theorem putBytes_toList (v : SimdReg) {k : Nat} {bs : List Byte} (h : k + bs.length ≤ 64) :
    (putBytes v k bs).toList = v.toList.take k ++ bs ++ v.toList.drop (k + bs.length) := by
  induction bs generalizing v k with
  | nil => simp [putBytes]
  | cons b bs ih =>
    have hk : k < 64 := by simp at h; omega
    rw [putBytes, ih _ (by simp at h; omega)]
    have hl : v.toList.length = 64 := by simp
    have e0 : (v.setIfInBounds k b).toList = v.toList.set k b := by simp
    have e1 : k + (b :: bs).length = k + 1 + bs.length := by simp; omega
    rw [e0, e1, List.drop_set_of_lt (by omega), List.take_set, List.take_succ_eq_append_getElem (by omega)]
    have hlen : (v.toList.take k).length = k := by simp; omega
    rw [List.set_append_right _ _ (by omega), hlen]
    simp

/-- The bytes a `VWR` leaves: the image of its elements, then the bytes past the view as they were (R173). -/
theorem putBytes_image (v : SimdReg) {vw : View} {t : ElemType} {es : List Int} (h : es.length = elemCount vw t) :
    (putBytes v 0 (elemsImage t es)).toList = elemsImage t es ++ v.toList.drop vw.bytes := by
  have hl : (elemsImage t es).length = vw.bytes := by rw [elemsImage_length, h, elemCount_mul_width]
  have hb : vw.bytes ≤ 64 := by cases vw <;> decide
  rw [putBytes_toList v (by omega), hl]
  simp

end Machine

end Sys2Proof
end

