-- ==== Sys2Proof/Laws/Encoding.lean ====
section
/-! SUPPORT. The fields of an encoded command word, and what each format's decoder reads from it (R82 to R84, R93). -/

namespace Sys2Proof

theorem View.code_lt (vw : View) : vw.code < 3 := by cases vw <;> decide

theorem ElemType.code_lt (t : ElemType) : t.code < 10 := by cases t <;> decide

@[simp] theorem viewOfCode_code (vw : View) : viewOfCode vw.code = some vw := by cases vw <;> rfl

@[simp] theorem elemTypeOfCode_code (t : ElemType) : elemTypeOfCode t.code = some t := by cases t <;> rfl

/-! ### Format N (R82) -/

theorem opcField_wordN {opc : Nat} (h : opc < 256) : opcField (wordN opc) = opc := by
  simp only [opcField, wordN, BitVec.toNat_ofNat]; omega

theorem decodeN_wordN (opc : Nat) (i : Instr) : decodeN (wordN opc) i = .ok i := by
  have : lowField (wordN opc) = 0 := by simp only [lowField, wordN, BitVec.toNat_ofNat]; omega
  rw [decodeN, if_pos this]

/-! ### Format G (R83) -/

theorem opcField_wordG {opc : Nat} (h : opc < 256) (r : RegIndex) : opcField (wordG opc r) = opc := by
  have := r.isLt
  simp only [opcField, wordG, BitVec.toNat_ofNat]; omega

theorem decodeG_wordG (opc : Nat) (r : RegIndex) (f : RegIndex → Instr) : decodeG (wordG opc r) f = .ok (f r) := by
  have hr := r.isLt
  have h0 : reservedG (wordG opc r) = 0 := by simp only [reservedG, lowField, wordG, BitVec.toNat_ofNat]; omega
  have h1 : regField (wordG opc r) = r := by
    refine Fin.ext ?_
    simp only [regField, wordG, BitVec.toNat_ofNat]; omega
  rw [decodeG, if_pos h0, h1]

/-! ### Format V (R84, R93) -/

theorem opcField_wordV {opc : Nat} (h : opc < 256) (t : ElemType) (vw : View) (v : RegIndex) : opcField (wordV opc t vw v) = opc := by
  have := v.isLt; have := vw.code_lt; have := t.code_lt
  simp only [opcField, wordV, BitVec.toNat_ofNat]; omega

theorem decodeV_wordV (opc : Nat) (t : ElemType) (vw : View) (v : RegIndex) (f : View → ElemType → RegIndex → Instr) :
    decodeV (wordV opc t vw v) f = .ok (f vw t v) := by
  have := v.isLt; have := vw.code_lt; have := t.code_lt
  have h0 : reservedV (wordV opc t vw v) = 0 := by simp only [reservedV, lowField, wordV, BitVec.toNat_ofNat]; omega
  have h1 : viewField (wordV opc t vw v) = vw.code := by simp only [viewField, lowField, wordV, BitVec.toNat_ofNat]; omega
  have h2 : elemTypeField (wordV opc t vw v) = t.code := by
    simp only [elemTypeField, lowField, wordV, BitVec.toNat_ofNat]; omega
  have h3 : regField (wordV opc t vw v) = v := by
    refine Fin.ext ?_
    simp only [regField, wordV, BitVec.toNat_ofNat]; omega
  rw [decodeV, if_pos h0, h1, h2, h3]
  simp only [viewOfCode_code, elemTypeOfCode_code]

/-! ### A word from its fields -/

theorem wordN_fields {w : CmdWord} (h : lowField w = 0) : wordN (opcField w) = w := by
  have hw := w.isLt
  refine BitVec.eq_of_toNat_eq ?_
  simp only [wordN, opcField, lowField, BitVec.toNat_ofNat] at *
  omega

theorem wordG_fields {w : CmdWord} (h : reservedG w = 0) : wordG (opcField w) (regField w) = w := by
  have hw := w.isLt
  refine BitVec.eq_of_toNat_eq ?_
  simp only [wordG, opcField, reservedG, lowField, regField, BitVec.toNat_ofNat] at *
  omega

theorem wordV_fields {w : CmdWord} {vw : View} {t : ElemType} (h : reservedV w = 0) (h1 : vw.code = viewField w)
    (h2 : t.code = elemTypeField w) : wordV (opcField w) t vw (regField w) = w := by
  have hw := w.isLt
  refine BitVec.eq_of_toNat_eq ?_
  simp only [wordV, h1, h2]
  simp only [opcField, reservedV, viewField, elemTypeField, lowField, regField, BitVec.toNat_ofNat] at *
  omega

/-! ### The opcode map (R86), one row at a time -/

theorem decode_alloc {q : Request} (h : opcField q.cmd = 0x01) : decode q = decodeN q.cmd (.alloc q.a q.b) := by
  simp only [decode, h]

theorem decode_rdb {q : Request} (h : opcField q.cmd = 0x02) : decode q = decodeN q.cmd (.rdb q.a) := by
  simp only [decode, h]

theorem decode_rdbs {q : Request} (h : opcField q.cmd = 0x03) : decode q = decodeN q.cmd (.rdbs q.a q.b) := by
  simp only [decode, h]

theorem decode_wrb {q : Request} (h : opcField q.cmd = 0x04) : decode q = decodeN q.cmd (.wrb q.a q.b) := by
  simp only [decode, h]

theorem decode_wrbs {q : Request} (h : opcField q.cmd = 0x05) : decode q = decodeN q.cmd (.wrbs q.a q.d) := by
  simp only [decode, h]

theorem decode_dname {q : Request} (h : opcField q.cmd = 0x06) : decode q = decodeN q.cmd .dname := by
  simp only [decode, h]

theorem decode_dstart {q : Request} (h : opcField q.cmd = 0x07) : decode q = decodeN q.cmd .dstart := by
  simp only [decode, h]

theorem decode_dend {q : Request} (h : opcField q.cmd = 0x08) : decode q = decodeN q.cmd .dend := by
  simp only [decode, h]

theorem decode_grd8 {q : Request} (h : opcField q.cmd = 0x10) : decode q = decodeG q.cmd fun r => .grd8 r := by
  simp only [decode, h]

theorem decode_grd16 {q : Request} (h : opcField q.cmd = 0x11) : decode q = decodeG q.cmd fun r => .grd16 r := by
  simp only [decode, h]

theorem decode_grd32 {q : Request} (h : opcField q.cmd = 0x12) : decode q = decodeG q.cmd fun r => .grd32 r := by
  simp only [decode, h]

theorem decode_grd64 {q : Request} (h : opcField q.cmd = 0x13) : decode q = decodeG q.cmd fun r => .grd64 r := by
  simp only [decode, h]

theorem decode_gwr8 {q : Request} (h : opcField q.cmd = 0x14) : decode q = decodeG q.cmd fun r => .gwr8 r q.a := by
  simp only [decode, h]

theorem decode_gwr16 {q : Request} (h : opcField q.cmd = 0x15) : decode q = decodeG q.cmd fun r => .gwr16 r q.a := by
  simp only [decode, h]

theorem decode_gwr32 {q : Request} (h : opcField q.cmd = 0x16) : decode q = decodeG q.cmd fun r => .gwr32 r q.a := by
  simp only [decode, h]

theorem decode_gwr64 {q : Request} (h : opcField q.cmd = 0x17) : decode q = decodeG q.cmd fun r => .gwr64 r q.a := by
  simp only [decode, h]

theorem decode_riprd {q : Request} (h : opcField q.cmd = 0x18) : decode q = decodeN q.cmd .riprd := by
  simp only [decode, h]

theorem decode_ripwr {q : Request} (h : opcField q.cmd = 0x19) : decode q = decodeN q.cmd (.ripwr q.a) := by
  simp only [decode, h]

theorem decode_flrd {q : Request} (h : opcField q.cmd = 0x1A) : decode q = decodeN q.cmd .flrd := by
  simp only [decode, h]

theorem decode_flwr {q : Request} (h : opcField q.cmd = 0x1B) : decode q = decodeN q.cmd (.flwr q.a) := by
  simp only [decode, h]

theorem decode_flset {q : Request} (h : opcField q.cmd = 0x1C) : decode q = decodeN q.cmd (.flset q.a) := by
  simp only [decode, h]

theorem decode_flclr {q : Request} (h : opcField q.cmd = 0x1D) : decode q = decodeN q.cmd (.flclr q.a) := by
  simp only [decode, h]

theorem decode_fltst {q : Request} (h : opcField q.cmd = 0x1E) : decode q = decodeN q.cmd (.fltst q.a) := by
  simp only [decode, h]

theorem decode_vrd {q : Request} (h : opcField q.cmd = 0x20) : decode q = decodeV q.cmd fun vw t v => vrdInstr v vw t := by
  simp only [decode, h]

theorem decode_vwr {q : Request} (h : opcField q.cmd = 0x21) : decode q = decodeV q.cmd fun vw t v => vwrInstr v q.e vw t := by
  simp only [decode, h]

end Sys2Proof
end

