-- ==== Sys2Proof/Laws/Registers.lean ====
section
/-! SUPPORT. What the register operands can answer: the general register views, `RIP`, `RFLAGS` and the SIMD views (R140, R173, R215). -/

namespace Sys2Proof.Machine

/-! ### Validity bits (R34) -/

theorem validMask_getLsbD (w n k : Nat) : (validMask w n).getLsbD k = (decide (k < w) && decide (k < n)) := by
  rw [validMask, BitVec.getLsbD_ofNat, Nat.testBit_two_pow_sub_one]

/-- Bytes `0 .. n - 1` are all valid exactly when each of their bits is set. -/
theorem allValid_iff {w : Nat} {bits : BitVec w} {n : Nat} :
    allValid bits n = true ↔ ∀ k, k < w → k < n → bits.getLsbD k = true := by
  rw [allValid, beq_iff_eq]
  constructor
  · intro h k hw hn
    have := congrArg (·.getLsbD k) h
    simpa [validMask_getLsbD, hw, hn] using this
  · intro h
    refine BitVec.eq_of_getLsbD_eq fun k hw => ?_
    rw [BitVec.getLsbD_and, validMask_getLsbD]
    by_cases hn : k < n
    · simp [hw, hn, h k hw hn]
    · simp [hn]

theorem markValid_getLsbD {w : Nat} (bits : BitVec w) (n k : Nat) :
    (markValid bits n).getLsbD k = (bits.getLsbD k || (decide (k < w) && decide (k < n))) := by
  rw [markValid, BitVec.getLsbD_or, validMask_getLsbD]

theorem allValid_markValid {w : Nat} (bits : BitVec w) {m n : Nat} (h : m ≤ n) : allValid (markValid bits n) m = true :=
  allValid_iff.2 fun k hw hm => by
    have : k < n := by omega
    simp [markValid_getLsbD, hw, this]

/-! ### General registers (R140) -/

/-- `x[i][63:w] ++ v`, bit by bit. -/
theorem insertLow_getLsbD {w : Nat} (old : Word64) (v : BitVec w) {k : Nat} (hk : k < 64) :
    (insertLow old v).getLsbD k = if k < w then v.getLsbD k else old.getLsbD k := by
  by_cases h : k < w
  · simp [insertLow, hk, h]
  · have hv : v.getLsbD k = false := BitVec.getLsbD_of_ge v k (by omega)
    have e : w + (k - w) = k := by omega
    simp [insertLow, hk, h, hv, e]

/-- Reading the width just written gives the value written, under every policy. -/
theorem gprWritten_setWidth {w : Nat} (p : GprWritePolicy) (old : Word64) (v : BitVec w) (hw : w ≤ 64) :
    (gprWritten p old v).setWidth w = v := by
  refine BitVec.eq_of_getLsbD_eq fun k hk => ?_
  have h64 : k < 64 := by omega
  unfold gprWritten
  rw [BitVec.getLsbD_setWidth]
  split
  · simp [hk, h64]
  · simp only [insertLow_getLsbD old v h64, hk, decide_true, if_true, Bool.true_and]

theorem gprRead_clear {w : Nat} {cmd : CmdWord} {i : RegIndex} {s : State} (hf : s.fatal = .clear)
    (hv : s.poison = false ∨ allValid s.gprValid[i.val] (w / 8) = true) :
    gprRead w cmd i s = s.succeed (.word w ((s.readGpr i).setWidth w)) := by
  rw [gprRead, State.prologue_clear hf, State.readChecked_go hv]

theorem gprWrite_clear {w : Nat} {i : RegIndex} {a : Word64} {s : State} (hf : s.fatal = .clear) :
    gprWrite w i a s = (s.writeGpr i (a.setWidth w)).succeed .none := by
  rw [gprWrite, State.prologue_clear hf]

theorem ripChecked_clear {cmd : CmdWord} {s : State} {run : Out} (hf : s.fatal = .clear)
    (hv : s.poison = false ∨ allValid s.ripValid 8 = true) : ripChecked cmd s run = run := by
  rw [ripChecked, State.prologue_clear hf, State.readChecked_go hv]

theorem rflagsChecked_clear {cmd : CmdWord} {s : State} {run : Out} (hf : s.fatal = .clear)
    (hv : s.poison = false ∨ allValid s.rflagsValid 8 = true) : rflagsChecked cmd s run = run := by
  rw [rflagsChecked, State.prologue_clear hf, State.readChecked_go hv]

/-! ### SIMD registers (R173) -/

theorem vread_clear {vw : View} {t : ElemType} {cmd : CmdWord} {i : RegIndex} {s : State} (hf : s.fatal = .clear)
    (hv : s.poison = false ∨ allValid s.simdValid[i.val] vw.bytes = true) :
    vread vw t cmd i s = s.succeed (.elems t (viewElems (s.readSimd i) vw t)) := by
  rw [vread, State.prologue_clear hf, State.readChecked_go hv]

theorem vwrite_clear {vw : View} {t : ElemType} {cmd : CmdWord} {i : RegIndex} {es : List Int} {s : State}
    (hf : s.fatal = .clear) (he : elementsFit vw t es = true) :
    vwrite vw t cmd i es s = (s.writeSimd i vw t es).succeed .none := by
  rw [vwrite, if_pos he, State.prologue_clear hf]

theorem vwrite_misfit {vw : View} {t : ElemType} {cmd : CmdWord} {i : RegIndex} {es : List Int} {s : State}
    (he : elementsFit vw t es = false) : vwrite vw t cmd i es s = illegalCommand cmd s := by
  rw [vwrite, if_neg (by simp [he])]

/-- Reading any view of a register just written through a view of the same or more bytes gives the leading elements
(R194 c, d). -/
theorem viewElems_putBytes (v : SimdReg) {vw vr : View} {t : ElemType} {es : List Int} (he : elementsFit vw t es = true)
    (hle : vr.bytes ≤ vw.bytes) : viewElems (putBytes v 0 (elemsImage t es)) vr t = es.take (elemCount vr t) := by
  obtain ⟨hlen, hdom⟩ := elementsFit_iff.1 he
  have hcount : elemCount vr t ≤ es.length := by
    have h1 := elemCount_mul_width vr t
    have h2 := elemCount_mul_width vw t
    rw [hlen]
    exact Nat.le_of_mul_le_mul_right (by omega) t.width_pos
  have himg : (elemsImage t es).length = vw.bytes := by rw [elemsImage_length, hlen, elemCount_mul_width]
  rw [viewElems, viewBytes, putBytes_image v hlen, List.take_append_of_le_length (by omega)]
  have hslot : ∀ k, k < elemCount vr t →
      (((elemsImage t es).take vr.bytes).drop (k * t.width)).take t.width = elemEncode t es[k]! := fun k hk => by
    have hk' : k < es.length := by omega
    have hend : k * t.width + t.width ≤ vr.bytes := by
      rw [← elemCount_mul_width vr t, ← Nat.succ_mul]
      exact Nat.mul_le_mul_right _ hk
    rw [List.drop_take, List.take_take, Nat.min_eq_left (by omega)]
    have := elemsImage_slot t es [] hk'
    simpa [hk'] using this
  refine List.ext_getElem (by simp; omega) fun k h1 h2 => ?_
  have hk : k < elemCount vr t := by simpa using h1
  have hk' : k < es.length := by omega
  simp only [elemsOfImage, List.getElem_map, List.getElem_range, List.getElem_take]
  rw [hslot k hk]
  simp only [hk', getElem!_pos]
  exact elemDecode_elemEncode (hdom _ (List.getElem_mem hk'))

end Sys2Proof.Machine
end

