-- ==== Sys2Proof/Laws/Exec.lean ====
section
/-! SUPPORT. All a command can do: from a state, `exec` answers one of the next states of `Answers`, whatever the
command. -/

namespace Sys2Proof.Machine

/-- The next states a command can leave (R13, R211, R216, R217): the sticky answer, a failure that changes nothing, a fatal defect
that changes only `FATAL`, or a success with the command's writes. `w` is the command word, which some payloads hold (R88). -/
inductive Answers (w : CmdWord) (s : State) : State → Prop where
  | stuck {sub : FatalSub} (h : s.fatal = .set sub) : Answers w s (s.respond (Response.fatal sub))
  | status {st : Status} {p0 p1 : Word64} (h : s.fatal = .clear) (hok : st ≠ .ok) (hfatal : st ≠ .fatal)
      (hp : st.payloadFits w p0 p1) :
      Answers w s (s.respond (Response.failure st p0 p1))
  | fatal {sub : FatalSub} (h : s.fatal = .clear) (hsub : sub ≠ .containment) :
      Answers w s ({ s with fatal := .set sub }.respond (Response.fatal sub))
  | reads {res : Result} (h : s.fatal = .clear) : Answers w s (s.respond (Response.okWith res))
  | gpr {n : Nat} {i : RegIndex} {v : BitVec n} (h : s.fatal = .clear) :
      Answers w s ((s.writeGpr i v).respond (Response.okWith .none))
  | rip {v : Word64} (h : s.fatal = .clear) : Answers w s ((s.writeRip v).respond (Response.okWith .none))
  | rflags {v : Word64} (h : s.fatal = .clear) : Answers w s ((s.writeRflags v).respond (Response.okWith .none))
  | rflagsKept {v : Word64} (h : s.fatal = .clear) (hv : s.poison = false ∨ allValid s.rflagsValid 8 = true) :
      Answers w s ({ s with rflags := v }.respond (Response.okWith .none))
  | simd {i : RegIndex} {vw : View} {t : ElemType} {es : List Int} (h : s.fatal = .clear) (he : elementsFit vw t es = true) :
      Answers w s ((s.writeSimd i vw t es).respond (Response.okWith .none))
  | memory {addr : Word64} {bs : List Byte} {t : State} (h : s.fatal = .clear) (hw : memWrite s addr bs = .ok t) :
      Answers w s (t.respond (Response.okWith .none))
  | allocated {hint size : Word64} {g : Nat} {m : Memory} {a : Nat} (h : s.fatal = .clear)
      (hA : Allocates s.cfg.backwardMergeAdjacent (allocAddr hint) (allocSize hint size) s.segs g m a)
      (hcap : overCapacity s g = false) (hend : allocAddr hint + allocSize hint size ≤ 2 ^ 64) :
      Answers w s ({ s with segs := m }.respond (Response.okWith (.word 64 (BitVec.ofNat 64 a))))

/-! ### The shared operations -/

theorem State.prologue_answers {w : CmdWord} {s t : State} {run : Out} (h : s.prologue run = .next t)
    (hrun : s.fatal = .clear → run = .next t → Answers w s t) : Answers w s t := by
  rcases State.prologue_cases h with ⟨sub, hs, rfl⟩ | ⟨hc, hr⟩
  · exact .stuck hs
  · exact hrun hc hr

theorem succeed_next {s t : State} {res : Result} (h : s.succeed res = .next t) : t = s.respond (Response.okWith res) :=
  (Host.Outcome.next.inj h).symm

theorem readChecked_answers {s t : State} {w : CmdWord} {valid : Bool} {run : Out} (hc : s.fatal = .clear)
    (h : s.readChecked w valid run = .next t) (hrun : (s.poison = false ∨ valid = true) → run = .next t → Answers w s t) :
    Answers w s t := by
  rcases State.readChecked_cases (s := s) (w := w) (valid := valid) (run := run) with ⟨-, -, he⟩ | ⟨hv, he⟩
  · rw [he] at h
    exact (Host.Outcome.next.inj h) ▸ .status hc (by decide) (by decide) ⟨rfl, rfl⟩
  · exact hrun hv (he ▸ h)

theorem illegalCommand_answers {s t : State} {w : CmdWord} (h : illegalCommand w s = .next t) : Answers w s t :=
  State.prologue_answers h fun hc hr => (Host.Outcome.next.inj hr) ▸ .status hc (by decide) (by decide) ⟨rfl, rfl⟩

theorem gprRead_answers {n : Nat} {w : CmdWord} {i : RegIndex} {s t : State} (h : gprRead n w i s = .next t) : Answers w s t :=
  State.prologue_answers h fun hc hr => readChecked_answers hc hr fun _ hg => succeed_next hg ▸ .reads hc

theorem gprWrite_answers {n : Nat} {w : CmdWord} {i : RegIndex} {a : Word64} {s t : State} (h : gprWrite n i a s = .next t) : Answers w s t :=
  State.prologue_answers h fun hc hr => succeed_next hr ▸ .gpr hc

theorem vread_answers {vw : View} {ty : ElemType} {w : CmdWord} {i : RegIndex} {s t : State}
    (h : vread vw ty w i s = .next t) : Answers w s t :=
  State.prologue_answers h fun hc hr => readChecked_answers hc hr fun _ hg => succeed_next hg ▸ .reads hc

theorem vwrite_answers {vw : View} {ty : ElemType} {w : CmdWord} {i : RegIndex} {es : List Int} {s t : State}
    (h : vwrite vw ty w i es s = .next t) : Answers w s t := by
  cases he : elementsFit vw ty es with
  | false => rw [vwrite_misfit he] at h; exact illegalCommand_answers h
  | true =>
    rw [vwrite, if_pos he] at h
    exact State.prologue_answers h fun hc hr => succeed_next hr ▸ .simd hc he

theorem accessError_answers {w : CmdWord} {s t : State} {addr : Word64} {n : Nat} {f : Failure} (hc : s.fatal = .clear)
    (hf : accessSegment s addr n = .error f) (h : s.fail f = .next t) : Answers w s t := by
  rcases accessSegment_error hf with ⟨-, rfl⟩ | ⟨-, -, rfl⟩ | ⟨-, -, -, rfl⟩ | ⟨-, -, -, -, -, rfl⟩ <;>
    rw [← Host.Outcome.next.inj h]
  · exact .status hc (by decide) (by decide) rfl
  · exact .status hc (by decide) (by decide) trivial
  · exact .status hc (by decide) (by decide) ⟨rfl, rfl⟩
  · exact .fatal hc (by decide)

theorem memRead_answers {w : CmdWord} {s t : State} {addr : Word64} {n : Nat} {f : List Byte → Result} (hc : s.fatal = .clear)
    (h : (match memRead s addr n with
      | .error e => s.fail e
      | .ok bs => s.succeed (f bs)) = .next t) : Answers w s t := by
  cases hr : memRead s addr n with
  | error e => rw [hr] at h; exact accessError_answers hc (memRead_error.1 hr) h
  | ok bs => rw [hr] at h; exact succeed_next h ▸ .reads hc

theorem memWrite_answers {w : CmdWord} {s t : State} {addr : Word64} {bs : List Byte} (hc : s.fatal = .clear)
    (h : (match memWrite s addr bs with
      | .error e => s.fail e
      | .ok u => u.succeed .none) = .next t) : Answers w s t := by
  cases hr : memWrite s addr bs with
  | error e => rw [hr] at h; exact accessError_answers hc (memWrite_error.1 hr) h
  | ok u => rw [hr] at h; exact succeed_next h ▸ .memory hc hr

theorem allocate_answers {w : CmdWord} {hint size : Word64} {s t : State} (hc : s.fatal = .clear) (h : allocate hint size s = .next t) :
    Answers w s t := by
  rcases allocate_cases h with ⟨f, hf, hcase⟩ | ⟨g, m, a, hA, hcap, -, -, hend, rfl⟩
  · rcases hcase with ⟨-, rfl⟩ | ⟨-, -, rfl⟩ | ⟨S, -, -, rfl⟩ | ⟨-, -, -, -, -, rfl⟩ <;> rw [← Host.Outcome.next.inj hf]
    · exact .status hc (by decide) (by decide) trivial
    · exact .fatal hc (by decide)
    · exact .status hc (by decide) (by decide) rfl
    · exact .fatal hc (by decide)
  · exact .allocated hc hA hcap hend

/-! ### Every command -/

/-- Every command answers one of the next states of `Answers`. -/
theorem exec_answers {i : Instr} {s t : State} (h : exec i s = .next t) : Answers (encode i).cmd s t := by
  cases i with
  | alloc _ _ => exact State.prologue_answers h fun hc hr => allocate_answers hc hr
  | rdb _ => exact State.prologue_answers h fun hc hr => memRead_answers hc hr
  | rdbs _ _ => exact State.prologue_answers h fun hc hr => memRead_answers hc hr
  | wrb _ _ => exact State.prologue_answers h fun hc hr => memWrite_answers hc hr
  | wrbs _ _ => exact State.prologue_answers h fun hc hr => memWrite_answers hc hr
  | dname => exact State.prologue_answers h fun hc hr => succeed_next hr ▸ .reads hc
  | dstart => exact State.prologue_answers h fun hc hr => succeed_next hr ▸ .reads hc
  | dend => exact State.prologue_answers h fun hc hr => succeed_next hr ▸ .reads hc
  | grd8 _ => exact gprRead_answers h
  | grd16 _ => exact gprRead_answers h
  | grd32 _ => exact gprRead_answers h
  | grd64 _ => exact gprRead_answers h
  | gwr8 _ _ => exact gprWrite_answers h
  | gwr16 _ _ => exact gprWrite_answers h
  | gwr32 _ _ => exact gprWrite_answers h
  | gwr64 _ _ => exact gprWrite_answers h
  | riprd => exact State.prologue_answers h fun hc hr => readChecked_answers hc hr fun _ hg => succeed_next hg ▸ .reads hc
  | ripwr _ => exact State.prologue_answers h fun hc hr => succeed_next hr ▸ .rip hc
  | flrd => exact State.prologue_answers h fun hc hr => readChecked_answers hc hr fun _ hg => succeed_next hg ▸ .reads hc
  | flwr _ => exact State.prologue_answers h fun hc hr => succeed_next hr ▸ .rflags hc
  | flset _ => exact State.prologue_answers h fun hc hr => readChecked_answers hc hr fun hv hg => succeed_next hg ▸ .rflagsKept hc hv
  | flclr _ => exact State.prologue_answers h fun hc hr => readChecked_answers hc hr fun hv hg => succeed_next hg ▸ .rflagsKept hc hv
  | fltst _ => exact State.prologue_answers h fun hc hr => readChecked_answers hc hr fun _ hg => succeed_next hg ▸ .reads hc
  | vrdXmmI8x16 _ => exact vread_answers h
  | vrdYmmI8x32 _ => exact vread_answers h
  | vrdZmmI8x64 _ => exact vread_answers h
  | vrdXmmU8x16 _ => exact vread_answers h
  | vrdYmmU8x32 _ => exact vread_answers h
  | vrdZmmU8x64 _ => exact vread_answers h
  | vrdXmmI16x8 _ => exact vread_answers h
  | vrdYmmI16x16 _ => exact vread_answers h
  | vrdZmmI16x32 _ => exact vread_answers h
  | vrdXmmU16x8 _ => exact vread_answers h
  | vrdYmmU16x16 _ => exact vread_answers h
  | vrdZmmU16x32 _ => exact vread_answers h
  | vrdXmmI32x4 _ => exact vread_answers h
  | vrdYmmI32x8 _ => exact vread_answers h
  | vrdZmmI32x16 _ => exact vread_answers h
  | vrdXmmU32x4 _ => exact vread_answers h
  | vrdYmmU32x8 _ => exact vread_answers h
  | vrdZmmU32x16 _ => exact vread_answers h
  | vrdXmmI64x2 _ => exact vread_answers h
  | vrdYmmI64x4 _ => exact vread_answers h
  | vrdZmmI64x8 _ => exact vread_answers h
  | vrdXmmU64x2 _ => exact vread_answers h
  | vrdYmmU64x4 _ => exact vread_answers h
  | vrdZmmU64x8 _ => exact vread_answers h
  | vrdXmmF32x4 _ => exact vread_answers h
  | vrdYmmF32x8 _ => exact vread_answers h
  | vrdZmmF32x16 _ => exact vread_answers h
  | vrdXmmF64x2 _ => exact vread_answers h
  | vrdYmmF64x4 _ => exact vread_answers h
  | vrdZmmF64x8 _ => exact vread_answers h
  | vwrXmmI8x16 _ _ => exact vwrite_answers h
  | vwrYmmI8x32 _ _ => exact vwrite_answers h
  | vwrZmmI8x64 _ _ => exact vwrite_answers h
  | vwrXmmU8x16 _ _ => exact vwrite_answers h
  | vwrYmmU8x32 _ _ => exact vwrite_answers h
  | vwrZmmU8x64 _ _ => exact vwrite_answers h
  | vwrXmmI16x8 _ _ => exact vwrite_answers h
  | vwrYmmI16x16 _ _ => exact vwrite_answers h
  | vwrZmmI16x32 _ _ => exact vwrite_answers h
  | vwrXmmU16x8 _ _ => exact vwrite_answers h
  | vwrYmmU16x16 _ _ => exact vwrite_answers h
  | vwrZmmU16x32 _ _ => exact vwrite_answers h
  | vwrXmmI32x4 _ _ => exact vwrite_answers h
  | vwrYmmI32x8 _ _ => exact vwrite_answers h
  | vwrZmmI32x16 _ _ => exact vwrite_answers h
  | vwrXmmU32x4 _ _ => exact vwrite_answers h
  | vwrYmmU32x8 _ _ => exact vwrite_answers h
  | vwrZmmU32x16 _ _ => exact vwrite_answers h
  | vwrXmmI64x2 _ _ => exact vwrite_answers h
  | vwrYmmI64x4 _ _ => exact vwrite_answers h
  | vwrZmmI64x8 _ _ => exact vwrite_answers h
  | vwrXmmU64x2 _ _ => exact vwrite_answers h
  | vwrYmmU64x4 _ _ => exact vwrite_answers h
  | vwrZmmU64x8 _ _ => exact vwrite_answers h
  | vwrXmmF32x4 _ _ => exact vwrite_answers h
  | vwrYmmF32x8 _ _ => exact vwrite_answers h
  | vwrZmmF32x16 _ _ => exact vwrite_answers h
  | vwrXmmF64x2 _ _ => exact vwrite_answers h
  | vwrYmmF64x4 _ _ => exact vwrite_answers h
  | vwrZmmF64x8 _ _ => exact vwrite_answers h

/-! ### One step -/

theorem step_command {s : State} {q : Request} {rest : List Input} (h : s.inputs = .command q :: rest) :
    step s = performRequest q { s with inputs := rest } := by
  simp only [step, serveNext, h, performInput]

theorem step_reset {s : State} {cfg : Config} {rest : List Input} (h : s.inputs = .reset cfg :: rest) :
    step s = performReset cfg { s with inputs := rest } := by
  simp only [step, serveNext, h, performInput]

theorem step_idle {s : State} (h : s.inputs = []) : step s = .refused .noRequest := by
  simp only [step, serveNext, h]

/-- Every request answers one of the next states of `Answers`, for the word of the command it decodes to or its own. -/
theorem performRequest_answers {q : Request} {s t : State} (h : performRequest q s = .next t) : ∃ w, Answers w s t := by
  unfold performRequest at h
  split at h
  · exact ⟨_, illegalCommand_answers h⟩
  · exact ⟨_, exec_answers h⟩

/-- All a step can do: answer a request, or construct the block anew. -/
theorem step_cases {s t : State} (h : step s = .next t) :
    (∃ q rest w, s.inputs = .command q :: rest ∧ Answers w { s with inputs := rest } t) ∨
    (∃ cfg rest, s.inputs = .reset cfg :: rest ∧ cfg.legal = true ∧
      t = { State.construct cfg with inputs := rest, responses := s.responses }) := by
  cases hi : s.inputs with
  | nil => rw [step_idle hi] at h; cases h
  | cons i rest =>
    cases i with
    | command q =>
      rw [step_command hi] at h
      obtain ⟨w, hw⟩ := performRequest_answers h
      exact .inl ⟨q, rest, w, rfl, hw⟩
    | reset cfg =>
      rw [step_reset hi, performReset] at h
      split at h
      · exact .inr ⟨cfg, rest, rfl, by assumption, (Host.Outcome.next.inj h).symm⟩
      · cases h

end Sys2Proof.Machine
end

