-- ==== Sys2Proof/Tests/Slice0.lean ====
section
/-! SUPPORT. Tests. Expected results are the spec's own: its encoding tables, the examples in its rules (R95, R111 to R155, R174 to
R193) and 95_test_vectors.md; SIMD results for the wider views are worked out by hand from R170. Each one-step test runs one command
on a small state. The `witness_` theorems show states and operands that meet the hypotheses of the statements, clause by clause. -/

namespace Sys2Proof.Tests

open Sys2Proof Sys2Proof.Machine

set_option maxRecDepth 8000

/-! ### Well-formedness (R90): each check refuses an ill-formed term -/

theorem test_wf_accepts : (Instr.vwrXmmI64x2 0 [-2 ^ 63, 2 ^ 63 - 1]).wf = true ∧ (Instr.vwrXmmU64x2 0 [0, 2 ^ 64 - 1]).wf =
    true := by
  decide

theorem test_wf_refuses_too_few : (Instr.vwrXmmI64x2 0 [1]).wf = false := by decide

theorem test_wf_refuses_too_many : (Instr.vwrXmmF64x2 0 [1, 2, 3]).wf = false := by decide

theorem test_wf_refuses_above_signed : (Instr.vwrXmmI64x2 0 [2 ^ 63, 0]).wf = false := by decide

theorem test_wf_refuses_below_signed : (Instr.vwrXmmI64x2 0 [0, -2 ^ 63 - 1]).wf = false := by decide

theorem test_wf_refuses_above_unsigned : (Instr.vwrXmmU64x2 0 [2 ^ 64, 0]).wf = false := by decide

theorem test_wf_refuses_negative_unsigned : (Instr.vwrXmmU32x4 0 [0, 0, 0, -1]).wf = false := by decide

theorem test_wf_refuses_float_past_pattern : (Instr.vwrXmmF32x4 0 [0, 0, 0, 2 ^ 32]).wf = false := by decide

/-! ### Decoding (R86): a word of every row of the opcode table, with operands a command does not read also given -/

theorem test_decode_dram :
    decode ⟨0x01000000, 1, 2, [3], [4]⟩ = .ok (.alloc 1 2) ∧
    decode ⟨0x02000000, 1, 2, [3], [4]⟩ = .ok (.rdb 1) ∧
    decode ⟨0x03000000, 1, 2, [3], [4]⟩ = .ok (.rdbs 1 2) ∧
    decode ⟨0x04000000, 1, 2, [3], [4]⟩ = .ok (.wrb 1 2) ∧
    decode ⟨0x05000000, 1, 2, [3], [4]⟩ = .ok (.wrbs 1 [3]) ∧
    decode ⟨0x06000000, 1, 2, [3], [4]⟩ = .ok (.dname) ∧
    decode ⟨0x07000000, 1, 2, [3], [4]⟩ = .ok (.dstart) ∧
    decode ⟨0x08000000, 1, 2, [3], [4]⟩ = .ok (.dend) := by decide

theorem test_decode_gpr :
    decode ⟨0x1000000E, 1, 2, [3], [4]⟩ = .ok (.grd8 14) ∧
    decode ⟨0x11000001, 1, 2, [3], [4]⟩ = .ok (.grd16 1) ∧
    decode ⟨0x1200000E, 1, 2, [3], [4]⟩ = .ok (.grd32 14) ∧
    decode ⟨0x13000004, 1, 2, [3], [4]⟩ = .ok (.grd64 4) ∧
    decode ⟨0x14000003, 1, 2, [3], [4]⟩ = .ok (.gwr8 3 1) ∧
    decode ⟨0x15000005, 1, 2, [3], [4]⟩ = .ok (.gwr16 5 1) ∧
    decode ⟨0x16000003, 1, 2, [3], [4]⟩ = .ok (.gwr32 3 1) ∧
    decode ⟨0x17000008, 1, 2, [3], [4]⟩ = .ok (.gwr64 8 1) := by decide

theorem test_decode_rip_rflags :
    decode ⟨0x18000000, 1, 2, [3], [4]⟩ = .ok (.riprd) ∧
    decode ⟨0x19000000, 1, 2, [3], [4]⟩ = .ok (.ripwr 1) ∧
    decode ⟨0x1A000000, 1, 2, [3], [4]⟩ = .ok (.flrd) ∧
    decode ⟨0x1B000000, 1, 2, [3], [4]⟩ = .ok (.flwr 1) ∧
    decode ⟨0x1C000000, 1, 2, [3], [4]⟩ = .ok (.flset 1) ∧
    decode ⟨0x1D000000, 1, 2, [3], [4]⟩ = .ok (.flclr 1) ∧
    decode ⟨0x1E000000, 1, 2, [3], [4]⟩ = .ok (.fltst 1) := by decide

theorem test_decode_vrd_xmm :
    decode ⟨0x20000001, 1, 2, [3], [4]⟩ = .ok (.vrdXmmI8x16 1) ∧
    decode ⟨0x2000004D, 1, 2, [3], [4]⟩ = .ok (.vrdXmmU8x16 13) ∧
    decode ⟨0x20000081, 1, 2, [3], [4]⟩ = .ok (.vrdXmmI16x8 1) ∧
    decode ⟨0x200000CD, 1, 2, [3], [4]⟩ = .ok (.vrdXmmU16x8 13) ∧
    decode ⟨0x2000010A, 1, 2, [3], [4]⟩ = .ok (.vrdXmmI32x4 10) ∧
    decode ⟨0x20000147, 1, 2, [3], [4]⟩ = .ok (.vrdXmmU32x4 7) ∧
    decode ⟨0x2000018D, 1, 2, [3], [4]⟩ = .ok (.vrdXmmI64x2 13) ∧
    decode ⟨0x200001CA, 1, 2, [3], [4]⟩ = .ok (.vrdXmmU64x2 10) ∧
    decode ⟨0x20000207, 1, 2, [3], [4]⟩ = .ok (.vrdXmmF32x4 7) ∧
    decode ⟨0x2000024A, 1, 2, [3], [4]⟩ = .ok (.vrdXmmF64x2 10) := by decide

theorem test_decode_vrd_ymm :
    decode ⟨0x2000001F, 1, 2, [3], [4]⟩ = .ok (.vrdYmmI8x32 15) ∧
    decode ⟨0x2000005C, 1, 2, [3], [4]⟩ = .ok (.vrdYmmU8x32 12) ∧
    decode ⟨0x20000094, 1, 2, [3], [4]⟩ = .ok (.vrdYmmI16x16 4) ∧
    decode ⟨0x200000D1, 1, 2, [3], [4]⟩ = .ok (.vrdYmmU16x16 1) ∧
    decode ⟨0x2000011F, 1, 2, [3], [4]⟩ = .ok (.vrdYmmI32x8 15) ∧
    decode ⟨0x2000015C, 1, 2, [3], [4]⟩ = .ok (.vrdYmmU32x8 12) ∧
    decode ⟨0x20000191, 1, 2, [3], [4]⟩ = .ok (.vrdYmmI64x4 1) ∧
    decode ⟨0x200001DD, 1, 2, [3], [4]⟩ = .ok (.vrdYmmU64x4 13) ∧
    decode ⟨0x2000021C, 1, 2, [3], [4]⟩ = .ok (.vrdYmmF32x8 12) ∧
    decode ⟨0x2000025D, 1, 2, [3], [4]⟩ = .ok (.vrdYmmF64x4 13) := by decide

theorem test_decode_vrd_zmm :
    decode ⟨0x20000026, 1, 2, [3], [4]⟩ = .ok (.vrdZmmI8x64 6) ∧
    decode ⟨0x20000063, 1, 2, [3], [4]⟩ = .ok (.vrdZmmU8x64 3) ∧
    decode ⟨0x200000A3, 1, 2, [3], [4]⟩ = .ok (.vrdZmmI16x32 3) ∧
    decode ⟨0x200000EF, 1, 2, [3], [4]⟩ = .ok (.vrdZmmU16x32 15) ∧
    decode ⟨0x20000123, 1, 2, [3], [4]⟩ = .ok (.vrdZmmI32x16 3) ∧
    decode ⟨0x2000016F, 1, 2, [3], [4]⟩ = .ok (.vrdZmmU32x16 15) ∧
    decode ⟨0x200001A6, 1, 2, [3], [4]⟩ = .ok (.vrdZmmI64x8 6) ∧
    decode ⟨0x200001E3, 1, 2, [3], [4]⟩ = .ok (.vrdZmmU64x8 3) ∧
    decode ⟨0x2000022F, 1, 2, [3], [4]⟩ = .ok (.vrdZmmF32x16 15) ∧
    decode ⟨0x20000263, 1, 2, [3], [4]⟩ = .ok (.vrdZmmF64x8 3) := by decide

theorem test_decode_vwr_xmm :
    decode ⟨0x21000005, 1, 2, [3], [4]⟩ = .ok (.vwrXmmI8x16 5 [4]) ∧
    decode ⟨0x21000042, 1, 2, [3], [4]⟩ = .ok (.vwrXmmU8x16 2 [4]) ∧
    decode ⟨0x21000085, 1, 2, [3], [4]⟩ = .ok (.vwrXmmI16x8 5 [4]) ∧
    decode ⟨0x210000C2, 1, 2, [3], [4]⟩ = .ok (.vwrXmmU16x8 2 [4]) ∧
    decode ⟨0x2100010E, 1, 2, [3], [4]⟩ = .ok (.vwrXmmI32x4 14 [4]) ∧
    decode ⟨0x2100014B, 1, 2, [3], [4]⟩ = .ok (.vwrXmmU32x4 11 [4]) ∧
    decode ⟨0x21000182, 1, 2, [3], [4]⟩ = .ok (.vwrXmmI64x2 2 [4]) ∧
    decode ⟨0x210001CE, 1, 2, [3], [4]⟩ = .ok (.vwrXmmU64x2 14 [4]) ∧
    decode ⟨0x2100020B, 1, 2, [3], [4]⟩ = .ok (.vwrXmmF32x4 11 [4]) ∧
    decode ⟨0x2100024E, 1, 2, [3], [4]⟩ = .ok (.vwrXmmF64x2 14 [4]) := by decide

theorem test_decode_vwr_ymm :
    decode ⟨0x21000014, 1, 2, [3], [4]⟩ = .ok (.vwrYmmI8x32 4 [4]) ∧
    decode ⟨0x21000051, 1, 2, [3], [4]⟩ = .ok (.vwrYmmU8x32 1 [4]) ∧
    decode ⟨0x21000098, 1, 2, [3], [4]⟩ = .ok (.vwrYmmI16x16 8 [4]) ∧
    decode ⟨0x210000D5, 1, 2, [3], [4]⟩ = .ok (.vwrYmmU16x16 5 [4]) ∧
    decode ⟨0x21000114, 1, 2, [3], [4]⟩ = .ok (.vwrYmmI32x8 4 [4]) ∧
    decode ⟨0x21000151, 1, 2, [3], [4]⟩ = .ok (.vwrYmmU32x8 1 [4]) ∧
    decode ⟨0x21000195, 1, 2, [3], [4]⟩ = .ok (.vwrYmmI64x4 5 [4]) ∧
    decode ⟨0x210001D2, 1, 2, [3], [4]⟩ = .ok (.vwrYmmU64x4 2 [4]) ∧
    decode ⟨0x21000211, 1, 2, [3], [4]⟩ = .ok (.vwrYmmF32x8 1 [4]) ∧
    decode ⟨0x21000252, 1, 2, [3], [4]⟩ = .ok (.vwrYmmF64x4 2 [4]) := by decide

theorem test_decode_vwr_zmm :
    decode ⟨0x2100002A, 1, 2, [3], [4]⟩ = .ok (.vwrZmmI8x64 10 [4]) ∧
    decode ⟨0x21000067, 1, 2, [3], [4]⟩ = .ok (.vwrZmmU8x64 7 [4]) ∧
    decode ⟨0x210000A7, 1, 2, [3], [4]⟩ = .ok (.vwrZmmI16x32 7 [4]) ∧
    decode ⟨0x210000E4, 1, 2, [3], [4]⟩ = .ok (.vwrZmmU16x32 4 [4]) ∧
    decode ⟨0x21000127, 1, 2, [3], [4]⟩ = .ok (.vwrZmmI32x16 7 [4]) ∧
    decode ⟨0x21000164, 1, 2, [3], [4]⟩ = .ok (.vwrZmmU32x16 4 [4]) ∧
    decode ⟨0x210001AA, 1, 2, [3], [4]⟩ = .ok (.vwrZmmI64x8 10 [4]) ∧
    decode ⟨0x210001E7, 1, 2, [3], [4]⟩ = .ok (.vwrZmmU64x8 7 [4]) ∧
    decode ⟨0x21000224, 1, 2, [3], [4]⟩ = .ok (.vwrZmmF32x16 4 [4]) ∧
    decode ⟨0x21000267, 1, 2, [3], [4]⟩ = .ok (.vwrZmmF64x8 7 [4]) := by decide

/-! ### Illegal words, by the clause of R87 they break (V80 to V86) -/

theorem test_decode_reserved_opcodes :
    decode ⟨0x00000000, 0, 0, [], []⟩ = .error .reservedOpcode ∧ decode ⟨0x09000000, 0, 0, [], []⟩ = .error .reservedOpcode ∧
    decode ⟨0x0F000000, 0, 0, [], []⟩ = .error .reservedOpcode ∧ decode ⟨0x1F000000, 0, 0, [], []⟩ = .error .reservedOpcode ∧
    decode ⟨0x22000000, 0, 0, [], []⟩ = .error .reservedOpcode ∧ decode ⟨0xFFFFFFFF, 0, 0, [], []⟩ = .error .reservedOpcode := by
  decide

theorem test_decode_reserved_bits :
    decode ⟨0x01000001, 0, 0, [], []⟩ = .error .reservedBit ∧ decode ⟨0x1E800000, 0, 0, [], []⟩ = .error .reservedBit ∧
    decode ⟨0x10000010, 0, 0, [], []⟩ = .error .reservedBit ∧ decode ⟨0x17800000, 0, 0, [], []⟩ = .error .reservedBit ∧
    decode ⟨0x20000400, 0, 0, [], []⟩ = .error .reservedBit ∧ decode ⟨0x21800000, 0, 0, [], []⟩ = .error .reservedBit := by
  decide

theorem test_decode_reserved_codes :
    decode ⟨0x20000030, 0, 0, [], []⟩ = .error .reservedView ∧ decode ⟨0x2100027F, 0, 0, [], []⟩ = .error .reservedView ∧
    decode ⟨0x20000280, 0, 0, [], []⟩ = .error .reservedElemType ∧ decode ⟨0x210003EF, 0, 0, [], []⟩ = .error .reservedElemType
        := by
  decide

theorem test_decodeTableWord :
    decodeTableWord 32 0x02000000 = some (.rdb 0) ∧ decodeTableWord 32 0x21000240 = some (.vwrXmmF64x2 0 [0, 0]) ∧
    decodeTableWord 32 0 = none := by decide

/-! ### Assembly (R92 to R94) -/

theorem test_assemble_flags :
    Asm.assemble "flset ZF|SF" = .request ⟨0x1C000000, 0xC0, 0, [], []⟩ ∧
    Asm.assemble "fltst 0x41" = .request ⟨0x1E000000, 0x41, 0, [], []⟩ ∧
    Asm.assemble "flset ZF|0x80" = .rejected ∧ Asm.assemble "flset 0x80|ZF" = .rejected := by decide

theorem test_assemble_lists :
    Asm.assemble "wrbs 0xffe, [1, 2] ; two bytes" = .request ⟨0x05000000, 0xffe, 0, [1, 2], []⟩ ∧
    Asm.assemble "vwr.xmm.i64x2 v15, [-1, 5]" = .request ⟨0x2100018F, 0, 0, [], [-1, 5]⟩ := by decide

/-- The spellings of log entry 13. -/
theorem test_assemble_name_spellings :
    Asm.assemble "grd.64 r00" = .rejected ∧ Asm.assemble "grd.064 r0" = .rejected ∧ Asm.assemble "vrd.xmm.i8x016 v0" = .rejected ∧
    Asm.assemble "rd xmm01.i8x16" = .rejected ∧ Asm.assemble "rd zmm10.i8x64" = .request ⟨0x2000002A, 0, 0, [], []⟩ := by decide

theorem test_assemble_rejects :
    Asm.assemble "vwr.xmm.u8x16 v0, [1]" = .rejected ∧ Asm.assemble "vrd.xmm.u8x4 v0" = .rejected ∧
    Asm.assemble "rdb -1" = .rejected ∧ Asm.assemble "grd.32 r16" = .rejected ∧ Asm.assemble "; nothing" = .blank := by decide

/-! ### Small states, and what a test looks at -/

/-- The last response. -/
def answer : Out → Option Response
  | .next t => t.responses.getLast?
  | .fault _ => none
  | .refused _ => none

/-- `OK v` with a `k`-bit word. -/
def okWord (k : Nat) (v : BitVec k) : Response := ⟨.ok, 0, 0, .word k v⟩

/-- `OK` with elements. -/
def okElems (t : ElemType) (es : List Int) : Response := ⟨.ok, 0, 0, .elems t es⟩

/-- The segments after, each as its start and end. -/
def segsAfter : Out → Option (List (Nat × Nat))
  | .next t => some (t.segs.map fun S => (S.start, S.stop))
  | .fault _ => none
  | .refused _ => none

/-- The bytes of a SIMD register after. -/
def simdAfter : Out → RegIndex → Option (List Byte)
  | .next t, i => some (t.readSimd i).toList
  | .fault _, _ => none
  | .refused _, _ => none

/-- A general register after. -/
def gprAfter : Out → RegIndex → Option Word64
  | .next t, i => some (t.readGpr i)
  | .fault _, _ => none
  | .refused _, _ => none

/-- `RFLAGS` after. -/
def rflagsAfter : Out → Option Word64
  | .next t => some t.rflags
  | .fault _ => none
  | .refused _ => none

/-- The block right after reset with another configuration. -/
def built (cfg : Config) : State := State.construct cfg

/-- The conventional configuration with `REG_RESET = POISON`. -/
def poisonCfg : Config := { Config.conventional with regReset := .poison }

/-- A segment of zeros. -/
def block (start len : Nat) : Segment := Segment.zeros start len

/-- `[0x4000, 0x5000)` with `0x42` at `0x4001` (V3). -/
def page : Segment := { start := 0x4000, len := 0x1000, cells := [(0x4001, 0x42)] }

/-- The conventional block with these segments. -/
def withSegs (m : Memory) : State := { State.reset with segs := m }

/-- V1 to V3 done: `[0, 0x1000)` and `page`. -/
def twoBlocks : State := withSegs [block 0 0x1000, page]

/-- `ALIGN = 4` and `page`. -/
def aligned4 : State := { built { Config.conventional with align := 4 } with segs := [page] }

/-- A block built with `POISON` in which `x[0]` holds byte 0 only. -/
def poisonByte0 : State :=
  { built poisonCfg with gprValid := (Vector.replicate 16 0).set 0 1, gpr := (Vector.replicate 16 0).set 0 0xEF }

/-- `x[3] = 0x1122334455667788` under a write policy (V40). -/
def v40State (p : GprWritePolicy) : State :=
  { built { Config.conventional with gprWritePolicy := p } with gpr := Vector.replicate 16 0x1122334455667788 }

/-- `FATAL = SET(SPAN)`. -/
def stuckState : State := { twoBlocks with fatal := .set .span }

/-- A state whose requester issues one request next. -/
def issuing (s : State) (q : Request) : State := { s with inputs := [.command q] }

/-- A request of a word and its 64-bit operands. -/
def ask (w : CmdWord) (a b : Word64) : Request := ⟨w, a, b, [], []⟩

/-! ### One step: `ALLOC` (V11 to V19b) -/

theorem test_alloc_fresh :
    answer (exec (.alloc 0x1234 0x100) State.reset) = some (okWord 64 0x1000) ∧
    segsAfter (exec (.alloc 0x1234 0x100) State.reset) = some [(0x1000, 0x2000)] ∧
    segsAfter (exec (.alloc 0 4097) State.reset) = some [(0, 0x2000)] ∧
    segsAfter (exec (.alloc 0xfff 1) State.reset) = some [(0, 0x1000)] := by decide

theorem test_alloc_merges :
    answer (exec (.alloc 0x1000 0x2000) (withSegs [block 0 0x1000])) = some (okWord 64 0) ∧
    segsAfter (exec (.alloc 0x1000 0x2000) (withSegs [block 0 0x1000])) = some [(0, 0x3000)] ∧
    segsAfter (exec (.alloc 0x1000 0x2001) (withSegs [block 0x3000 0x1000])) = some [(0x1000, 0x5000)] ∧
    segsAfter (exec (.alloc 0x1000 0x4001) (withSegs [block 0x3000 0x1000, block 0x5000 0x1000])) =
      some [(0x1000, 0x9000), (0x5000, 0x6000)] ∧
    segsAfter (exec (.alloc 0x1000 0) (withSegs [block 0x2000 0x1000])) = some [(0x1000, 0x2000), (0x2000, 0x3000)] := by decide

/-! ### One step: byte access (V2, V3, V20 to V24, V31) -/

theorem test_rdb :
    answer (exec (.rdb 16385) twoBlocks) = some (okWord 8 0x42) ∧
    answer (exec (.rdb 4097) twoBlocks) = some ⟨.addressNotMapped, 0, 0, .none⟩ := by decide

theorem test_rdbs :
    answer (exec (.rdbs 16384 3) twoBlocks) = some ⟨.ok, 0, 0, .bytes [0x00, 0x42, 0x00]⟩ ∧
    answer (exec (.rdbs 0xfff 2) twoBlocks) = some ⟨.fatal, 2, 0, .none⟩ := by decide

theorem test_wrb :
    (match exec (.wrb 5 0x1ff) twoBlocks with
      | .next t => answer (exec (.rdb 5) t)
      | .fault _ => none
      | .refused _ => none) = some (okWord 8 0xff) ∧
    answer (exec (.wrb 0x4002 1) aligned4) = some ⟨.unaligned, 0x4002, 0, .none⟩ := by decide

theorem test_wrbs :
    (match exec (.wrbs 0xffe [1, 2]) twoBlocks with
      | .next t => answer (exec (.rdbs 0xffe 2) t)
      | .fault _ => none
      | .refused _ => none) = some ⟨.ok, 0, 0, .bytes [1, 2]⟩ ∧
    answer (exec (.wrbs 0xfff [1, 2]) twoBlocks) = some ⟨.fatal, 2, 0, .none⟩ := by decide

/-! ### One step: device identity (V32) -/

theorem test_identity :
    answer (exec .dname State.reset) = some ⟨.ok, 0, 0, .bytes [0x64, 0x72, 0x61, 0x6d]⟩ ∧
    answer (exec .dstart (built { Config.conventional with base := 0x80000000 })) = some (okWord 64 0x80000000) ∧
    answer (exec .dend (built { Config.conventional with base := 0x80000000, reqSize := 3000 })) = some (okWord 64 0x80001000) := by
  decide

/-! ### One step: general registers (V4, V40) -/

theorem test_grd :
    answer (exec (.grd8 7) (v40State .merge)) = some (okWord 8 0x88) ∧
    answer (exec (.grd16 7) (v40State .merge)) = some (okWord 16 0x7788) ∧
    answer (exec (.grd32 7) (v40State .merge)) = some (okWord 32 0x55667788) ∧
    answer (exec (.grd64 7) (v40State .merge)) = some (okWord 64 0x1122334455667788) := by decide

theorem test_gwr8 :
    gprAfter (exec (.gwr8 3 0xA5A5A5A5A5A5A5A5) (v40State .zeroExtend)) 3 = some 0xa5 ∧
    gprAfter (exec (.gwr8 3 0xA5A5A5A5A5A5A5A5) (v40State .merge)) 3 = some 0x11223344556677a5 ∧
    gprAfter (exec (.gwr8 3 0xA5A5A5A5A5A5A5A5) (v40State .x86)) 3 = some 0x11223344556677a5 := by decide

theorem test_gwr16 :
    gprAfter (exec (.gwr16 3 0xA5A5A5A5A5A5A5A5) (v40State .zeroExtend)) 3 = some 0xa5a5 ∧
    gprAfter (exec (.gwr16 3 0xA5A5A5A5A5A5A5A5) (v40State .merge)) 3 = some 0x112233445566a5a5 ∧
    gprAfter (exec (.gwr16 3 0xA5A5A5A5A5A5A5A5) (v40State .x86)) 3 = some 0x112233445566a5a5 := by decide

theorem test_gwr32 :
    gprAfter (exec (.gwr32 3 0xA5A5A5A5A5A5A5A5) (v40State .zeroExtend)) 3 = some 0xa5a5a5a5 ∧
    gprAfter (exec (.gwr32 3 0xA5A5A5A5A5A5A5A5) (v40State .merge)) 3 = some 0x11223344a5a5a5a5 ∧
    gprAfter (exec (.gwr32 3 0xA5A5A5A5A5A5A5A5) (v40State .x86)) 3 = some 0xa5a5a5a5 := by decide

theorem test_gwr64 :
    gprAfter (exec (.gwr64 3 0xA5A5A5A5A5A5A5A5) (v40State .merge)) 3 = some 0xa5a5a5a5a5a5a5a5 ∧
    gprAfter (exec (.gwr64 3 0xA5A5A5A5A5A5A5A5) (v40State .merge)) 4 = some 0x1122334455667788 := by decide

/-- V44: under `MERGE` and `POISON` a narrow write marks its own bytes only. -/
theorem test_poison_gpr :
    answer (exec (.grd8 0) poisonByte0) = some (okWord 8 0xEF) ∧
    answer (exec (.grd16 0) poisonByte0) = some ⟨.unwritten, 0x11000000, 0, .none⟩ ∧
    answer (exec (.grd64 2) poisonByte0) = some ⟨.unwritten, 0x13000002, 0, .none⟩ := by decide

/-! ### One step: `RIP` and `RFLAGS` (V42, V43, V46) -/

theorem test_rip :
    (match exec (.ripwr 0xffffffffffffffff) State.reset with
      | .next t => answer (exec .riprd t)
      | .fault _ => none
      | .refused _ => none) = some (okWord 64 0xffffffffffffffff) ∧
    answer (exec .riprd (built poisonCfg)) = some ⟨.unwritten, 0x18000000, 0, .none⟩ := by decide

theorem test_rflags_writes :
    rflagsAfter (exec (.flwr 0xffffffffffffffff) State.reset) = some 0xffffffffffffffff ∧
    rflagsAfter (exec (.flset 0xC0) { State.reset with rflags := 0x202 }) = some 0x2c2 ∧
    rflagsAfter (exec (.flclr 0x200) { State.reset with rflags := 0x2c2 }) = some 0xc2 := by decide

theorem test_rflags_reads :
    answer (exec .flrd { State.reset with rflags := 0x202 }) = some (okWord 64 0x202) ∧
    answer (exec (.fltst 0xC0) { State.reset with rflags := 0x2c2 }) = some (okWord 1 1) ∧
    answer (exec (.fltst 0x41) { State.reset with rflags := 0x2c2 }) = some (okWord 1 0) ∧
    answer (exec (.fltst 0) { State.reset with rflags := 0x2c2 }) = some (okWord 1 1) := by decide

theorem test_poison_rflags :
    answer (exec (.flset 1) (built poisonCfg)) = some ⟨.unwritten, 0x1C000000, 0, .none⟩ ∧
    answer (exec (.flclr 1) (built poisonCfg)) = some ⟨.unwritten, 0x1D000000, 0, .none⟩ ∧
    answer (exec (.fltst 1) (built poisonCfg)) = some ⟨.unwritten, 0x1E000000, 0, .none⟩ := by decide

/-! ### One step: SIMD, every view of every type (R174 to R193) -/

/-- Bytes `(37 k + 11) mod 256`. -/
def patternBytes : List Byte :=
  [11, 48, 85, 122, 159, 196, 233, 14, 51, 88, 125, 162, 199, 236, 17, 54, 91, 128, 165, 202, 239, 20, 57, 94, 131, 168, 205,
      242, 23, 60, 97, 134] ++
  [171, 208, 245, 26, 63, 100, 137, 174, 211, 248, 29, 66, 103, 140, 177, 214, 251, 32, 69, 106, 143, 180, 217, 254, 35, 72,
      109, 146, 183, 220, 1, 38]

/-- `V[9]` holds the pattern. -/
def patternState : State := { State.reset with simd := State.reset.simd.set 9 (putBytes (Vector.replicate 64 0) 0 patternBytes) }

/-- Every SIMD byte is `0xff`. -/
def onesState : State := { State.reset with simd := Vector.replicate 16 (Vector.replicate 64 0xff) }

/-- The pattern as `i8` elements. -/
def elemsI8 : List Int :=
  [11, 48, 85, 122, -97, -60, -23, 14, 51, 88, 125, -94, -57, -20, 17, 54, 91, -128, -91, -54, -17, 20, 57, 94, -125, -88, -51,
      -14, 23, 60, 97, -122, -85, -48, -11, 26, 63, 100, -119, -82, -45, -8, 29, 66, 103, -116, -79, -42, -5, 32, 69, 106, -113,
      -76, -39, -2, 35, 72, 109, -110, -73, -36, 1, 38]

theorem test_vrd_i8 :
    answer (exec (.vrdXmmI8x16 9) patternState) = some (okElems .i8 (elemsI8.take 16)) ∧
    answer (exec (.vrdYmmI8x32 9) patternState) = some (okElems .i8 (elemsI8.take 32)) ∧
    answer (exec (.vrdZmmI8x64 9) patternState) = some (okElems .i8 (elemsI8.take 64)) := by decide

theorem test_vwr_i8 :
    simdAfter (exec (.vwrXmmI8x16 9 (elemsI8.take 16)) onesState) 9 = some (patternBytes.take 16 ++ List.replicate 48 0xff) ∧
    simdAfter (exec (.vwrYmmI8x32 9 (elemsI8.take 32)) onesState) 9 = some (patternBytes.take 32 ++ List.replicate 32 0xff) ∧
    simdAfter (exec (.vwrZmmI8x64 9 (elemsI8.take 64)) onesState) 9 = some (patternBytes.take 64 ++ List.replicate 0 0xff) := by
        decide

/-- The pattern as `u8` elements. -/
def elemsU8 : List Int :=
  [11, 48, 85, 122, 159, 196, 233, 14, 51, 88, 125, 162, 199, 236, 17, 54, 91, 128, 165, 202, 239, 20, 57, 94, 131, 168, 205,
      242, 23, 60, 97, 134, 171, 208, 245, 26, 63, 100, 137, 174, 211, 248, 29, 66, 103, 140, 177, 214, 251, 32, 69, 106, 143,
      180, 217, 254, 35, 72, 109, 146, 183, 220, 1, 38]

theorem test_vrd_u8 :
    answer (exec (.vrdXmmU8x16 9) patternState) = some (okElems .u8 (elemsU8.take 16)) ∧
    answer (exec (.vrdYmmU8x32 9) patternState) = some (okElems .u8 (elemsU8.take 32)) ∧
    answer (exec (.vrdZmmU8x64 9) patternState) = some (okElems .u8 (elemsU8.take 64)) := by decide

theorem test_vwr_u8 :
    simdAfter (exec (.vwrXmmU8x16 9 (elemsU8.take 16)) onesState) 9 = some (patternBytes.take 16 ++ List.replicate 48 0xff) ∧
    simdAfter (exec (.vwrYmmU8x32 9 (elemsU8.take 32)) onesState) 9 = some (patternBytes.take 32 ++ List.replicate 32 0xff) ∧
    simdAfter (exec (.vwrZmmU8x64 9 (elemsU8.take 64)) onesState) 9 = some (patternBytes.take 64 ++ List.replicate 0 0xff) := by
        decide

/-- The pattern as `i16` elements. -/
def elemsI16 : List Int :=
  [12299, 31317, -15201, 3817, 22579, -23939, -4921, 13841, -32677, -13659, 5359, 24121, -22397, -3379, 15383, -31135, -12117,
      6901, 25663, -20855, -1837, 16925, -29593, -10575, 8443, 27205, -19313, -295, 18467, -28051, -9033, 9729]

theorem test_vrd_i16 :
    answer (exec (.vrdXmmI16x8 9) patternState) = some (okElems .i16 (elemsI16.take 8)) ∧
    answer (exec (.vrdYmmI16x16 9) patternState) = some (okElems .i16 (elemsI16.take 16)) ∧
    answer (exec (.vrdZmmI16x32 9) patternState) = some (okElems .i16 (elemsI16.take 32)) := by decide

theorem test_vwr_i16 :
    simdAfter (exec (.vwrXmmI16x8 9 (elemsI16.take 8)) onesState) 9 = some (patternBytes.take 16 ++ List.replicate 48 0xff) ∧
    simdAfter (exec (.vwrYmmI16x16 9 (elemsI16.take 16)) onesState) 9 = some (patternBytes.take 32 ++ List.replicate 32 0xff) ∧
    simdAfter (exec (.vwrZmmI16x32 9 (elemsI16.take 32)) onesState) 9 = some (patternBytes.take 64 ++ List.replicate 0 0xff) :=
        by decide

/-- The pattern as `u16` elements. -/
def elemsU16 : List Int :=
  [12299, 31317, 50335, 3817, 22579, 41597, 60615, 13841, 32859, 51877, 5359, 24121, 43139, 62157, 15383, 34401, 53419, 6901,
      25663, 44681, 63699, 16925, 35943, 54961, 8443, 27205, 46223, 65241, 18467, 37485, 56503, 9729]

theorem test_vrd_u16 :
    answer (exec (.vrdXmmU16x8 9) patternState) = some (okElems .u16 (elemsU16.take 8)) ∧
    answer (exec (.vrdYmmU16x16 9) patternState) = some (okElems .u16 (elemsU16.take 16)) ∧
    answer (exec (.vrdZmmU16x32 9) patternState) = some (okElems .u16 (elemsU16.take 32)) := by decide

theorem test_vwr_u16 :
    simdAfter (exec (.vwrXmmU16x8 9 (elemsU16.take 8)) onesState) 9 = some (patternBytes.take 16 ++ List.replicate 48 0xff) ∧
    simdAfter (exec (.vwrYmmU16x16 9 (elemsU16.take 16)) onesState) 9 = some (patternBytes.take 32 ++ List.replicate 32 0xff) ∧
    simdAfter (exec (.vwrZmmU16x32 9 (elemsU16.take 32)) onesState) 9 = some (patternBytes.take 64 ++ List.replicate 0 0xff) :=
        by decide

/-- The pattern as `i32` elements. -/
def elemsI32 : List Int :=
  [2052403211, 250201247, -1568843725, 907144391, -895123365, 1580799215, -221403005, -2040447977, 452317355, -1366727617,
      1109260499, -693007257, 1782915323, -19286897, -1838331869, 637656247]

theorem test_vrd_i32 :
    answer (exec (.vrdXmmI32x4 9) patternState) = some (okElems .i32 (elemsI32.take 4)) ∧
    answer (exec (.vrdYmmI32x8 9) patternState) = some (okElems .i32 (elemsI32.take 8)) ∧
    answer (exec (.vrdZmmI32x16 9) patternState) = some (okElems .i32 (elemsI32.take 16)) := by decide

theorem test_vwr_i32 :
    simdAfter (exec (.vwrXmmI32x4 9 (elemsI32.take 4)) onesState) 9 = some (patternBytes.take 16 ++ List.replicate 48 0xff) ∧
    simdAfter (exec (.vwrYmmI32x8 9 (elemsI32.take 8)) onesState) 9 = some (patternBytes.take 32 ++ List.replicate 32 0xff) ∧
    simdAfter (exec (.vwrZmmI32x16 9 (elemsI32.take 16)) onesState) 9 = some (patternBytes.take 64 ++ List.replicate 0 0xff) :=
        by decide

/-- The pattern as `u32` elements. -/
def elemsU32 : List Int :=
  [2052403211, 250201247, 2726123571, 907144391, 3399843931, 1580799215, 4073564291, 2254519319, 452317355, 2928239679,
      1109260499, 3601960039, 1782915323, 4275680399, 2456635427, 637656247]

theorem test_vrd_u32 :
    answer (exec (.vrdXmmU32x4 9) patternState) = some (okElems .u32 (elemsU32.take 4)) ∧
    answer (exec (.vrdYmmU32x8 9) patternState) = some (okElems .u32 (elemsU32.take 8)) ∧
    answer (exec (.vrdZmmU32x16 9) patternState) = some (okElems .u32 (elemsU32.take 16)) := by decide

theorem test_vwr_u32 :
    simdAfter (exec (.vwrXmmU32x4 9 (elemsU32.take 4)) onesState) 9 = some (patternBytes.take 16 ++ List.replicate 48 0xff) ∧
    simdAfter (exec (.vwrYmmU32x8 9 (elemsU32.take 8)) onesState) 9 = some (patternBytes.take 32 ++ List.replicate 32 0xff) ∧
    simdAfter (exec (.vwrZmmU32x16 9 (elemsU32.take 16)) onesState) 9 = some (patternBytes.take 64 ++ List.replicate 0 0xff) :=
        by decide

/-- The pattern as `i64` elements. -/
def elemsI64 : List Int :=
  [1074606175335821323, 3896155494820960307, 6789480933367316571, -8763657326330795901, -5870050417102696277,
      -2976443503596406573, -82836590073405189, 2738712729411733539]

theorem test_vrd_i64 :
    answer (exec (.vrdXmmI64x2 9) patternState) = some (okElems .i64 (elemsI64.take 2)) ∧
    answer (exec (.vrdYmmI64x4 9) patternState) = some (okElems .i64 (elemsI64.take 4)) ∧
    answer (exec (.vrdZmmI64x8 9) patternState) = some (okElems .i64 (elemsI64.take 8)) := by decide

theorem test_vwr_i64 :
    simdAfter (exec (.vwrXmmI64x2 9 (elemsI64.take 2)) onesState) 9 = some (patternBytes.take 16 ++ List.replicate 48 0xff) ∧
    simdAfter (exec (.vwrYmmI64x4 9 (elemsI64.take 4)) onesState) 9 = some (patternBytes.take 32 ++ List.replicate 32 0xff) ∧
    simdAfter (exec (.vwrZmmI64x8 9 (elemsI64.take 8)) onesState) 9 = some (patternBytes.take 64 ++ List.replicate 0 0xff) := by
        decide

/-- The pattern as `u64` elements. -/
def elemsU64 : List Int :=
  [1074606175335821323, 3896155494820960307, 6789480933367316571, 9683086747378755715, 12576693656606855339,
      15470300570113145043, 18363907483636146427, 2738712729411733539]

theorem test_vrd_u64 :
    answer (exec (.vrdXmmU64x2 9) patternState) = some (okElems .u64 (elemsU64.take 2)) ∧
    answer (exec (.vrdYmmU64x4 9) patternState) = some (okElems .u64 (elemsU64.take 4)) ∧
    answer (exec (.vrdZmmU64x8 9) patternState) = some (okElems .u64 (elemsU64.take 8)) := by decide

theorem test_vwr_u64 :
    simdAfter (exec (.vwrXmmU64x2 9 (elemsU64.take 2)) onesState) 9 = some (patternBytes.take 16 ++ List.replicate 48 0xff) ∧
    simdAfter (exec (.vwrYmmU64x4 9 (elemsU64.take 4)) onesState) 9 = some (patternBytes.take 32 ++ List.replicate 32 0xff) ∧
    simdAfter (exec (.vwrZmmU64x8 9 (elemsU64.take 8)) onesState) 9 = some (patternBytes.take 64 ++ List.replicate 0 0xff) := by
        decide

/-- The pattern as `f32` elements. -/
def elemsF32 : List Int :=
  [2052403211, 250201247, 2726123571, 907144391, 3399843931, 1580799215, 4073564291, 2254519319, 452317355, 2928239679,
      1109260499, 3601960039, 1782915323, 4275680399, 2456635427, 637656247]

theorem test_vrd_f32 :
    answer (exec (.vrdXmmF32x4 9) patternState) = some (okElems .f32 (elemsF32.take 4)) ∧
    answer (exec (.vrdYmmF32x8 9) patternState) = some (okElems .f32 (elemsF32.take 8)) ∧
    answer (exec (.vrdZmmF32x16 9) patternState) = some (okElems .f32 (elemsF32.take 16)) := by decide

theorem test_vwr_f32 :
    simdAfter (exec (.vwrXmmF32x4 9 (elemsF32.take 4)) onesState) 9 = some (patternBytes.take 16 ++ List.replicate 48 0xff) ∧
    simdAfter (exec (.vwrYmmF32x8 9 (elemsF32.take 8)) onesState) 9 = some (patternBytes.take 32 ++ List.replicate 32 0xff) ∧
    simdAfter (exec (.vwrZmmF32x16 9 (elemsF32.take 16)) onesState) 9 = some (patternBytes.take 64 ++ List.replicate 0 0xff) :=
        by decide

/-- The pattern as `f64` elements. -/
def elemsF64 : List Int :=
  [1074606175335821323, 3896155494820960307, 6789480933367316571, 9683086747378755715, 12576693656606855339,
      15470300570113145043, 18363907483636146427, 2738712729411733539]

theorem test_vrd_f64 :
    answer (exec (.vrdXmmF64x2 9) patternState) = some (okElems .f64 (elemsF64.take 2)) ∧
    answer (exec (.vrdYmmF64x4 9) patternState) = some (okElems .f64 (elemsF64.take 4)) ∧
    answer (exec (.vrdZmmF64x8 9) patternState) = some (okElems .f64 (elemsF64.take 8)) := by decide

theorem test_vwr_f64 :
    simdAfter (exec (.vwrXmmF64x2 9 (elemsF64.take 2)) onesState) 9 = some (patternBytes.take 16 ++ List.replicate 48 0xff) ∧
    simdAfter (exec (.vwrYmmF64x4 9 (elemsF64.take 4)) onesState) 9 = some (patternBytes.take 32 ++ List.replicate 32 0xff) ∧
    simdAfter (exec (.vwrZmmF64x8 9 (elemsF64.take 8)) onesState) 9 = some (patternBytes.take 64 ++ List.replicate 0 0xff) := by
        decide

theorem test_vwr_misfit :
    answer (exec (.vwrXmmU8x16 0 (List.replicate 15 1)) State.reset) = some ⟨.illegalCommand, 0x21000040, 0, .none⟩ ∧
    answer (exec (.vwrXmmI8x16 0 (128 :: List.replicate 15 0)) State.reset) = some ⟨.illegalCommand, 0x21000000, 0, .none⟩ := by
  decide

/-- V47: an `XMM` write validates bytes 0 to 15 only. -/
theorem test_poison_simd :
    answer (exec (.vrdXmmI8x16 0) (built poisonCfg)) = some ⟨.unwritten, 0x20000000, 0, .none⟩ ∧
    (match exec (.vwrXmmU8x16 4 (List.replicate 16 0)) (built poisonCfg) with
      | .next t => [answer (exec (.vrdXmmU8x16 4) t), answer (exec (.vrdYmmU8x32 4) t)]
      | .fault _ => []
      | .refused _ => []) =
      [some (okElems .u8 (List.replicate 16 0)), some ⟨.unwritten, 0x20000054, 0, .none⟩] := by decide

/-! ### One step of the block (R211, R216, R240) -/

theorem test_step_command :
    answer (step (issuing twoBlocks (ask 0x02000000 0x4001 0))) = some (okWord 8 0x42) ∧
    answer (step (issuing stuckState (ask 0x02000000 0x4001 0))) = some ⟨.fatal, 2, 0, .none⟩ ∧
    answer (step (issuing twoBlocks (ask 0x0F000000 1 1))) = some ⟨.illegalCommand, 0x0F000000, 0, .none⟩ := by decide

theorem test_step_reset :
    (match step { stuckState with inputs := [.reset Config.conventional] } with
      | .next t => decide (t = State.reset)
      | .fault _ => false
      | .refused _ => false) = true := by decide

theorem test_withFetchWord :
    answer (step (State.reset.withFetchWord 32 0x07000000)) = some (okWord 64 0) ∧
    answer (step (State.reset.withFetchWord 32 0x21000241)) = some ⟨.ok, 0, 0, .none⟩ := by decide

/-! ### Witnesses: states and operands that meet the hypotheses of each statement, clause by clause, at the ends of the ranges -/

theorem witness_DecodedCommandKeepsItsWord : decode (ask 0x1300000F 0 0) = .ok (.grd64 15) := by decide

/-- One illegal word for each clause of R87, and the last legal word of format V; the other ends of the ranges are in
`test_decode_reserved_opcodes`, `test_decode_reserved_bits` and `test_decode_reserved_codes`. -/
theorem witness_IllegalWordsExactly :
    (∀ w : CmdWord, (issuing State.reset (ask w 0 0)).inputs = .command (ask w 0 0) :: [] ∧
      (issuing State.reset (ask w 0 0)).fatal = .clear) ∧
    answer (step (issuing State.reset (ask 0x20000030 0 0))) = some ⟨.illegalCommand, 0x20000030, 0, .none⟩ ∧
    decode (ask 0x2000026F 0 0) = .ok (.vrdZmmF64x8 15) := ⟨fun _ => ⟨rfl, rfl⟩, by decide, by decide⟩

theorem witness_AssembledLinesDecodeWellFormed :
    Asm.assemble "vwr.xmm.i64x2 v0, [-9223372036854775808, 9223372036854775807]" =
      .request ⟨0x21000180, 0, 0, [], [-2 ^ 63, 2 ^ 63 - 1]⟩ := by decide

theorem witness_StepRunsTheDecodedCommand :
    (issuing twoBlocks (ask 0x02000000 0x4001 0)).inputs = .command (ask 0x02000000 0x4001 0) :: [] ∧
    decode (ask 0x02000000 0x4001 0) = .ok (.rdb 0x4001) := ⟨rfl, by decide⟩

/-- Its three clauses: a request while `FATAL` is set, a command that sets it, and a reset. -/
theorem witness_FatalIsStickyAndPrecise :
    ((issuing stuckState (ask 0x0F000000 0 0)).inputs = .command (ask 0x0F000000 0 0) :: [] ∧
      (issuing stuckState (ask 0x0F000000 0 0)).fatal = .set .span) ∧
    (∃ t, twoBlocks.fatal = .clear ∧ exec (.rdbs 0xfff 2) twoBlocks = .next t ∧ t.fatal = .set .span) ∧
    Config.conventional.legal = true := by
  exact ⟨⟨rfl, rfl⟩, ⟨_, rfl, rfl, by decide⟩, by decide⟩

theorem witness_EveryRequestGetsOneResponse :
    (issuing stuckState (ask 0 0 0)).inputs = .command (ask 0 0 0) :: [] := rfl

theorem witness_RecoverableStatusesChangeNothing :
    ∃ t, step (issuing twoBlocks (ask 0x02000000 4097 0)) = .next t ∧
      t.responses = (issuing twoBlocks (ask 0x02000000 4097 0)).responses ++ [⟨.addressNotMapped, 0, 0, .none⟩] := ⟨_, rfl, by
          decide⟩

/-- A command for each status. -/
theorem witness_StatusesComeOnlyFromTheirCommands :
    answer (exec (.rdb 0x400000) twoBlocks) = some ⟨.outOfBounds, 0x400000, 1, .none⟩ ∧
    answer (exec (.alloc 0 0x400001) twoBlocks) = some ⟨.outOfBounds, 0, 0x400001, .none⟩ ∧
    answer (exec (.rdb 0x4001) aligned4) = some ⟨.unaligned, 0x4001, 0, .none⟩ ∧
    answer (exec (.rdb 0x5000) aligned4) = some ⟨.addressNotMapped, 0, 0, .none⟩ ∧
    answer (exec (.alloc 0x4fff 0) twoBlocks) = some ⟨.addressAlreadyMapped, 0x4000, 0, .none⟩ ∧
    answer (exec (.vwrXmmF64x2 0 []) twoBlocks) = some ⟨.illegalCommand, 0x21000240, 0, .none⟩ ∧
    answer (exec .flrd (built poisonCfg)) = some ⟨.unwritten, 0x1A000000, 0, .none⟩ ∧
    answer (exec (.wrbs 0x4fff [1, 2]) twoBlocks) = some ⟨.fatal, 2, 0, .none⟩ ∧
    answer (exec (.alloc 0x4000 0) { twoBlocks with segs := [], cfg := { Config.conventional with backingLimit := some 4095 } }) =
      some ⟨.fatal, 4, 0, .none⟩ := by decide

theorem witness_OnlyResetClearsFatal :
    ∃ t, (issuing stuckState (ask 0 0 0)).fatal = .set .span ∧ step (issuing stuckState (ask 0 0 0)) = .next t := ⟨_, rfl, rfl⟩

/-- `BASE + DRAM_SIZE` at its greatest legal value, and one more. -/
theorem witness_ResetConstructsTheBlock :
    (1 ≤ Config.conventional.align ∧ (2 ^ 64 - 2 : Nat) + pow2ceil 0 < 2 ^ 64) ∧
    ({ Config.conventional with base := BitVec.ofNat 64 (2 ^ 64 - 2), reqSize := 0 } : Config).legal = true ∧
    ({ Config.conventional with base := BitVec.ofNat 64 (2 ^ 64 - 1), reqSize := 0 } : Config).legal = false ∧
    ({ Config.conventional with align := 0 } : Config).legal = false := by decide

theorem witness_ResetIsSound : poisonCfg.legal = true := by decide

theorem witness_StepKeepsSound :
    ∃ t, (issuing twoBlocks (ask 0x01000000 0x1000 0)).sound = true ∧ step (issuing twoBlocks (ask 0x01000000 0x1000 0)) = .next
        t :=
  ⟨_, by decide, rfl⟩

theorem witness_SegmentsOnlyGrow :
    ∃ t, Memory.wf twoBlocks.segs = true ∧ exec (.alloc 0x1000 0x4000) twoBlocks = .next t := ⟨_, by decide, rfl⟩

theorem witness_AllocKeepsStoredBytes :
    ∃ t, Memory.wf twoBlocks.segs = true ∧ exec (.alloc 0x3000 0x1001) twoBlocks = .next t ∧ page ∈ twoBlocks.segs ∧
      page.covers 0x4001 := ⟨_, by decide, rfl, by decide, by unfold Segment.covers; decide⟩

/-- For `ReadByteOutcome`, `ReadRangeOutcome`, `WriteByteOutcome` and `WriteRangeOutcome`, the four clauses of an access:
    misaligned, past the window, past the segment, and its first and last bytes. The last clause also
with a segment before. -/
theorem witness_access_checks :
    aligned4.fatal = .clear ∧ Memory.wf aligned4.segs = true ∧
    ¬ aligned4.aligned 0x4001 ∧ ¬ aligned4.aligned 0x3fffff ∧
    (aligned4.aligned 0x400000 ∧ ¬ aligned4.inside 0x400000) ∧
    (aligned4.aligned 0x3ffffc ∧ aligned4.inside 0x3ffffc ∧ aligned4.unmapped 0x3ffffc) ∧
    (aligned4.aligned 0x5000 ∧ aligned4.inside 0x5000 ∧ aligned4.unmapped 0x5000) ∧
    (aligned4.aligned 0x4000 ∧ aligned4.inside 0x4000 ∧ aligned4.mapsAt [] page [] 0x4000) ∧
    (aligned4.aligned 0x4ffc ∧ aligned4.inside 0x4ffc ∧ aligned4.mapsAt [] page [] 0x4ffc) := by
  unfold State.mapsAt State.unmapped Segment.covers State.inside State.aligned
  decide

theorem witness_access_later_segment :
    twoBlocks.fatal = .clear ∧ Memory.wf twoBlocks.segs = true ∧ twoBlocks.aligned 0x4fff ∧ twoBlocks.inside 0x4fff ∧
    twoBlocks.mapsAt [block 0 0x1000] page [] 0x4fff := by
  unfold State.mapsAt Segment.covers State.inside State.aligned
  decide

/-- For `ReadRangeOutcome` and `WriteRangeOutcome`, at the last byte of the segment: one byte stays inside, two do not, none is
    a range too. -/
theorem witness_range_ends :
    ¬ (page.start + page.len < 0x4fff + 1) ∧ page.start + page.len < 0x4fff + 2 ∧
    answer (exec (.rdbs 0x4fff 1) twoBlocks) = some ⟨.ok, 0, 0, .bytes [0]⟩ ∧
    answer (exec (.rdbs 0x4fff 0) twoBlocks) = some ⟨.ok, 0, 0, .bytes []⟩ ∧
    answer (exec (.rdbs 0x4fff 2) twoBlocks) = some ⟨.fatal, 2, 0, .none⟩ ∧
    answer (exec (.wrbs 0x4fff [1]) twoBlocks) = some ⟨.ok, 0, 0, .none⟩ ∧
    answer (exec (.wrbs 0x4fff []) twoBlocks) = some ⟨.ok, 0, 0, .none⟩ := by decide

theorem witness_StoresTouchOnlyTheirBytes :
    Memory.wf twoBlocks.segs = true ∧ (∃ t, exec (.wrb 0x4001 7) twoBlocks = .next t) ∧
    ∃ t, exec (.wrbs 0x4ffe [1, 2]) twoBlocks = .next t := ⟨by decide, ⟨_, rfl⟩, ⟨_, rfl⟩⟩

/-- A whole read back of the range (`k = 0`), and its last byte (`k = 1`). -/
theorem witness_ReadAfterWriteReturnsTheSlice :
    ∃ t, Memory.wf twoBlocks.segs = true ∧ exec (.wrbs 0x4ffe [1, 2]) twoBlocks = .next t ∧
      t.responses = twoBlocks.responses ++ [⟨.ok, 0, 0, .none⟩] ∧
      (0x4ffe#64).toNat = (0x4ffe#64).toNat + 0 ∧ twoBlocks.aligned 0x4ffe ∧ twoBlocks.inside 0x4ffe ∧
      (0x4fff#64).toNat = (0x4ffe#64).toNat + 1 ∧ twoBlocks.aligned 0x4fff ∧ twoBlocks.inside 0x4fff ∧
      0 < (2#64).toNat ∧ 0 + (2#64).toNat ≤ [1, 2].length ∧ 1 + (1#64).toNat ≤ [1, 2].length ∧ 1 < [1, 2].length := by
  refine ⟨_, by decide, rfl, by decide, ?_⟩
  unfold State.inside State.aligned
  decide

theorem witness_ContainmentIsNeverRaised :
    ∃ t, twoBlocks.fatal = .clear ∧ exec (.rdb 0x4000) twoBlocks = .next t := ⟨_, rfl, rfl⟩

theorem witness_EmptyTableAccessesFail :
    State.reset.fatal = .clear ∧ State.reset.segs = [] ∧ State.reset.aligned 0x3fffff ∧ State.reset.inside 0x3fffff ∧
    State.reset.aligned 0x400000 ∧ ¬ State.reset.inside 0x400000 ∧
    ¬ (built { Config.conventional with align := 4 }).aligned 0x400001 := by
  unfold State.inside State.aligned
  decide

theorem witness_DeviceIdentityIsTheConfiguration : State.reset.fatal = .clear ∧ State.reset.cfg.legal = true := by decide

/-- The size one past `DRAM_SIZE`; a rounded size of `2^64` (V18b); an end past `2^64` (V18); and the last address of a segment. -/
theorem witness_AllocRejections :
    twoBlocks.fatal = .clear ∧ pow2ceil twoBlocks.cfg.reqSize.toNat < 0x400001 ∧
    (2 ^ 63 ≤ pow2ceil (2 ^ 63) ∧ 2 ^ 64 ≤ pow2ceil (2 ^ 63 + 0xfff)) ∧
    2 ^ 64 < (0xFFFFFFFFFFFFF000 : Nat) + pow2ceil (0x1000 + 0x800) ∧
    (0 ≤ pow2ceil twoBlocks.cfg.reqSize.toNat ∧ 4096 < 2 ^ 64 ∧ 0x4000 + 4096 ≤ 2 ^ 64 ∧
      twoBlocks.mapsAt [block 0 0x1000] page [] (0x4fff - 0x4fff % 4096) ∧ ascending twoBlocks.segs ∧
      ∀ T ∈ [block 0 0x1000], T.start + T.len ≠ 0x4000) := by
  unfold State.mapsAt Segment.covers ascending
  decide

/-- `twoBlocks` with a backing limit. -/
def limited (n : Nat) : State := { twoBlocks with cfg := { Config.conventional with backingLimit := some n } }

/-- `hint = 0x3000`, `size = 0`: the range ends exactly at `page`, and no case of step 5 matches. The capacity clause at the
    limit and one byte under. -/
theorem witness_AllocFreshSegment :
    twoBlocks.fatal = .clear ∧ Memory.wf twoBlocks.segs = true ∧ 0 ≤ pow2ceil twoBlocks.cfg.reqSize.toNat ∧
    (∀ S ∈ twoBlocks.segs, ¬ S.covers 0x3000 ∧ S.start + S.len ≠ 0x3000 ∧
      ¬ (0x3000 < S.start ∧ (S.start < 0x3000 + 4096 ∨ (twoBlocks.cfg.backwardMergeAdjacent = true ∧ 0x3000 + 4096 = S.start)))) ∧
    (limited 12288).cfg.backingLimit = some 12288 ∧ ¬ 12288 < ((limited 12288).segs.map Segment.len).sum + 4096 ∧
    12287 < ((limited 12287).segs.map Segment.len).sum + 4096 := by
  unfold Segment.covers
  decide

/-- The same two blocks, for the three ways `ALLOC` ends when the limit is met and when it is passed by one byte. -/
theorem witness_alloc_capacity :
    answer (exec (.alloc 0x3000 0) (limited 12288)) = some (okWord 64 0x3000) ∧
    answer (exec (.alloc 0x3000 0) (limited 12287)) = some ⟨.fatal, 4, 0, .none⟩ ∧
    answer (exec (.alloc 0x5000 0) (limited 12288)) = some (okWord 64 0x4000) ∧
    answer (exec (.alloc 0x5000 0) (limited 12287)) = some ⟨.fatal, 4, 0, .none⟩ ∧
    answer (exec (.alloc 0x3000 8192) (limited 12288)) = some (okWord 64 0x3000) ∧
    answer (exec (.alloc 0x3000 8192) (limited 12287)) = some ⟨.fatal, 4, 0, .none⟩ := by decide

/-- `hint = 0x5000`, `size = 0`: the rounded hint is the exact end of the second segment, after one that no case matches. -/
theorem witness_AllocExtendsAtTheEnd :
    twoBlocks.fatal = .clear ∧ Memory.wf twoBlocks.segs = true ∧ twoBlocks.segs = [block 0 0x1000] ++ page :: [] ∧
    (∀ T ∈ [block 0 0x1000], ¬ T.covers 0x5000 ∧ T.start + T.len ≠ 0x5000 ∧
      ¬ (0x5000 < T.start ∧ (T.start < 0x5000 + 4096 ∨ (twoBlocks.cfg.backwardMergeAdjacent = true ∧ 0x5000 + 4096 = T.start)))) ∧
    page.start + page.len = 0x5000 := by
  unfold Segment.covers
  decide

/-- `hint = 0x3000`, `size = 8192`: the new range reaches one block into the segment; and, under `BACKWARD_MERGE_ADJACENT`,
    exactly to its start. -/
theorem witness_AllocGrowsBackward :
    twoBlocks.fatal = .clear ∧ Memory.wf twoBlocks.segs = true ∧ twoBlocks.segs = [block 0 0x1000] ++ page :: [] ∧
    (∀ T ∈ [block 0 0x1000], ¬ T.covers 0x3000 ∧ T.start + T.len ≠ 0x3000 ∧ ¬ 0x3000 < T.start) ∧
    0x3000 < page.start ∧ page.start < 0x3000 + 8192 ∧ 0x3000 + 4096 = page.start ∧
    ({ Config.conventional with backwardMergeAdjacent := true } : Config).backwardMergeAdjacent = true := by
  unfold Segment.covers
  decide

theorem witness_AllocReturnsAMappedBlock :
    ∃ t, Memory.wf twoBlocks.segs = true ∧ exec (.alloc 0x5fff 0) twoBlocks = .next t ∧
      t.responses = twoBlocks.responses ++ [⟨.ok, 0, 0, .word 64 0x4000⟩] := ⟨_, by decide, rfl, by decide⟩

theorem witness_RegistersChangeOnlyByTheirCommands :
    ∃ t, exec (.gwr8 3 0xA5) (v40State .merge) = .next t ∧ (Instr.gwr8 3 0xA5).gprTarget ≠ some 4 ∧
      (Instr.gwr8 3 0xA5).writesRip = false ∧ (Instr.gwr8 3 0xA5).writesRflags = false ∧
      (Instr.gwr8 3 0xA5).simdTarget ≠ some 3 := ⟨_, rfl, by decide⟩

theorem witness_MemoryChangesOnlyByStoresAndAlloc :
    ∃ t, exec (.rdb 0x4001) twoBlocks = .next t ∧ (Instr.rdb 0x4001).writesMemory = false := ⟨_, rfl, rfl⟩

/-- All bytes read valid under `POISON`, and the last one not. -/
theorem witness_GeneralRegisterReads :
    poisonByte0.fatal = .clear ∧ poisonByte0.cfg.regReset = RegReset.poison ∧
    (∀ k, k < 8 / 8 → poisonByte0.gprValid[(0 : RegIndex).val].getLsbD k = true) ∧
    (∃ k, k < 16 / 8 ∧ poisonByte0.gprValid[(0 : RegIndex).val].getLsbD k = false) ∧
    State.reset.cfg.regReset = RegReset.zero := by
  refine ⟨rfl, rfl, ?_, ⟨1, by decide, by decide⟩, rfl⟩
  decide

theorem witness_GeneralRegisterWrites :
    (v40State .zeroExtend).fatal = .clear ∧ (v40State .zeroExtend).cfg.gprWritePolicy = .zeroExtend ∧
    (v40State .merge).cfg.gprWritePolicy = .merge ∧ (v40State .x86).cfg.gprWritePolicy = .x86 := by decide

theorem witness_GeneralRegisterRoundTrip :
    (built poisonCfg).fatal = .clear ∧ (∃ t, exec (.gwr8 15 0x1ff) (built poisonCfg) = .next t) ∧
    (∃ t, exec (.gwr16 0 0xffff) (built poisonCfg) = .next t) ∧ (∃ t, exec (.gwr32 0 0xffffffff) (built poisonCfg) = .next t) ∧
    ∃ t, exec (.gwr64 0 0xffffffffffffffff) (built poisonCfg) = .next t := ⟨rfl, ⟨_, rfl⟩, ⟨_, rfl⟩, ⟨_, rfl⟩, ⟨_, rfl⟩⟩

/-- Under `POISON`: `RIP` and `RFLAGS` wholly valid, and with one byte not. -/
theorem witness_RipCommands_RflagsReadWriteTest_RflagsSetAndClear :
    (built poisonCfg).fatal = .clear ∧ (built poisonCfg).cfg.regReset = RegReset.poison ∧
    ({ built poisonCfg with ripValid := 0xFF } : State).ripValid = 0xFF ∧
    ({ built poisonCfg with ripValid := 0x7F } : State).ripValid ≠ 0xFF ∧
    ({ built poisonCfg with rflagsValid := 0xFF } : State).rflagsValid = 0xFF ∧
    ({ built poisonCfg with rflagsValid := 0xFE } : State).rflagsValid ≠ 0xFF ∧
    (∀ k, (0#64).getLsbD k = true → (0#64).getLsbD k = true) ∧
    (∃ k, (0x8000000000000000#64).getLsbD k = true ∧ (0#64).getLsbD k = false) :=
  ⟨rfl, rfl, rfl, by decide, rfl, by decide, fun _ h => h, ⟨63, by decide, by decide⟩⟩

/-- For the four `Simd…Reads`, under `POISON`: bytes 0 to 31 of `V[9]` valid, so an `XMM` and a `YMM` read go through and a
    `ZMM` read does not. -/
theorem witness_simd_reads :
    (∀ k, k < 32 → ({ built poisonCfg with simdValid := Vector.replicate 16 0xFFFFFFFF } : State).simdValid[9].getLsbD k = true) ∧
    (∃ k, k < 64 ∧ ({ built poisonCfg with simdValid := Vector.replicate 16 0xFFFFFFFF } : State).simdValid[9].getLsbD k = false) ∧
    (built poisonCfg).fatal = .clear ∧ (built poisonCfg).cfg.regReset = RegReset.poison := by
  refine ⟨by decide, ⟨32, by decide, by decide⟩, rfl, rfl⟩

/-- For the four `Simd…Writes`: the greatest and least element of a domain, and one past each; a wrong count. -/
theorem witness_simd_writes :
    State.reset.fatal = .clear ∧
    (List.replicate 16 (-128 : Int)).length = 16 / 1 ∧ (∀ e ∈ List.replicate 16 (-128 : Int), -2 ^ 7 ≤ e ∧ e < 2 ^ 7) ∧
    (∀ e ∈ List.replicate 16 (127 : Int), -2 ^ 7 ≤ e ∧ e < 2 ^ 7) ∧
    ¬ (∀ e ∈ List.replicate 16 (128 : Int), -2 ^ 7 ≤ e ∧ e < 2 ^ 7) ∧
    ([2 ^ 64 - 1, 0] : List Int).length = 16 / 8 ∧ (∀ e ∈ ([2 ^ 64 - 1, 0] : List Int), 0 ≤ e ∧ e < 2 ^ 64) ∧
    ¬ (([2 ^ 64 - 1] : List Int).length = 16 / 8 ∧ ∀ e ∈ ([2 ^ 64 - 1] : List Int), 0 ≤ e ∧ e < 2 ^ 64) := by decide

theorem witness_ViewsNestAndRoundTrip :
    onesState.fatal = .clear ∧ View.xmm.bytes ≤ View.zmm.bytes ∧ onesState.cfg.regReset = RegReset.zero ∧
    (∃ t, exec (vwrInstr 9 [-2 ^ 63, 2 ^ 63 - 1] .xmm .i64) onesState = .next t) ∧
    elementsFit .xmm .i64 [-2 ^ 63, 2 ^ 63 - 1] = true := ⟨rfl, by decide, rfl, ⟨_, rfl⟩, by decide⟩

theorem witness_ReinterpretationKeepsTheBytes :
    onesState.fatal = .clear ∧ elementsFit .xmm .f64 [0xfff8000000000001, 0] = true ∧
    ∃ t, exec (vwrInstr 9 [0xfff8000000000001, 0] .xmm .f64) onesState = .next t := ⟨rfl, by decide, ⟨_, rfl⟩⟩

theorem witness_ByteImagesAlwaysFit : patternBytes.length = View.zmm.bytes := by decide

/-- Two different `POISON` states that differ in `x[0]` alone, above its one valid byte. -/
theorem witness_UnwrittenBytesNeverShow :
    ∃ s' t', poisonByte0.cfg.regReset = RegReset.poison ∧
      (issuing poisonByte0 (ask 0x10000000 0 0)).sameWritten
        (issuing { poisonByte0 with gpr := (Vector.replicate 16 0).set 0 0xAAEF } (ask 0x10000000 0 0)) ∧
      step (issuing poisonByte0 (ask 0x10000000 0 0)) = .next s' ∧
      step (issuing { poisonByte0 with gpr := (Vector.replicate 16 0).set 0 0xAAEF } (ask 0x10000000 0 0)) = .next t' := by
  refine ⟨_, _, rfl, ⟨rfl, rfl, rfl, rfl, rfl, rfl, rfl, rfl, rfl, ?_, ?_, ?_, ?_⟩, rfl, rfl⟩
  · intro i k
    have hk : ∀ (i : Fin 16), ∀ k < 64, ((Vector.replicate 16 (0#8)).set 0 1)[i.val].getLsbD (k / 8) = true →
        ((Vector.replicate 16 (0#64)).set 0 0xEF)[i.val].getLsbD k = ((Vector.replicate 16 (0#64)).set 0 0xAAEF)[i.val].getLsbD
            k := by
      decide +kernel
    by_cases h : k < 64
    · exact hk i k h
    · intro _
      rw [BitVec.getLsbD_of_ge _ _ (by omega), BitVec.getLsbD_of_ge _ _ (by omega)]
  · intro _ _; rfl
  · intro _ _; rfl
  · intro _ _ _; rfl

end Sys2Proof.Tests
end

section
/-! Proofs of the statements of 00_scope.md: `pow2ceil` is the least power of two not below its argument (R6, R10). -/

namespace Sys2Proof

/-- The powers of two not below `pow2ceil x` are those not below `x`. Past 1, `x ≤ 2 ^ k` is `x - 1 < 2 ^ k`, which the
logarithm of `x - 1` decides; this is why the definition takes the logarithm of `x - 1` and an exact power stays (R10). -/
theorem pow2ceil_le_pow_iff (x k : Nat) : pow2ceil x ≤ 2 ^ k ↔ x ≤ 2 ^ k := by
  refine ⟨(le_pow2ceil x).trans, fun hxk => ?_⟩
  unfold pow2ceil
  split
  case isTrue => exact Nat.one_le_two_pow
  case isFalse hx =>
    have hlog : Nat.log2 (x - 1) < k := (Nat.log2_lt (by omega)).2 (by omega)
    exact Nat.pow_le_pow_right (by decide) hlog

/-- Settles O31: the three parts are `pow2ceil_eq_pow`, `le_pow2ceil` and `pow2ceil_le_pow_iff`. -/
theorem powTwoCeilIsLeast : Obligations.PowTwoCeilIsLeast := by
  unfold Obligations.PowTwoCeilIsLeast
  intro x
  exact ⟨pow2ceil_eq_pow x, le_pow2ceil x, fun k => (pow2ceil_le_pow_iff x k).2⟩

end Sys2Proof
end

section
/-! Proofs of the statements of 10_state.md about the whole state: the invariant of the block, reset, the fatal state, and the
segments that only grow (R6, R28, R33, R37, R58, R110). All but reset rests on `exec_answers` and `step_cases`, which say once what
a command and a step can do. -/

namespace Sys2Proof.Machine

/-! ### What the responses of a command leave of `FATAL`, the configuration and the table -/

/-- While `FATAL` is set, a request changes nothing but the responses (R216). -/
theorem Answers.eq_of_fatal {w : CmdWord} {s t : State} {sub : FatalSub} (h : Answers w s t) (hs : s.fatal = .set sub) :
    t = s.respond (Response.fatal sub) := by
  cases h with
  | stuck h' => rw [hs] at h'; cases h'; rfl
  | status h' | fatal h' | reads h' | gpr h' | rip h' | rflags h' | rflagsKept h' | simd h' | memory h' | allocated h' =>
    rw [hs] at h'; cases h'

/-- No command raises the containment failure (R58). -/
theorem Answers.fatal_ne_containment {w : CmdWord} {s t : State} (h : Answers w s t) (hs : s.fatal ≠ .set .containment) :
    t.fatal ≠ .set .containment := by
  cases h with
  | stuck | status | reads | gpr | rip | rflags | rflagsKept | simd | allocated => exact hs
  | fatal _ hsub => simpa using hsub
  | memory _ hw =>
    obtain ⟨S, -, rfl⟩ := memWrite_ok.1 hw
    exact hs

/-- No command changes the configuration (R30). -/
theorem Answers.cfg_eq {w : CmdWord} {s t : State} (h : Answers w s t) : t.cfg = s.cfg := by
  cases h with
  | stuck | status | fatal | reads | gpr | rip | rflags | rflagsKept | simd | allocated => rfl
  | memory _ hw =>
    obtain ⟨S, -, rfl⟩ := memWrite_ok.1 hw
    rfl

/-- All a command can do to the table (R57, R111): nothing, a store that passed its checks, or an allocation within
`BACKING_LIMIT` and 64 bits. -/
theorem Answers.segs_cases {w : CmdWord} {s t : State} (h : Answers w s t) :
    t.segs = s.segs ∨
    (∃ addr bs u, memWrite s addr bs = .ok u ∧ t.segs = u.segs) ∨
    (∃ hint size g a, Allocates s.cfg.backwardMergeAdjacent (allocAddr hint) (allocSize hint size) s.segs g t.segs a ∧
      overCapacity s g = false ∧ allocAddr hint + allocSize hint size ≤ 2 ^ 64) := by
  cases h with
  | stuck | status | fatal | reads | gpr | rip | rflags | rflagsKept | simd => exact .inl rfl
  | memory _ hw => exact .inr (.inl ⟨_, _, _, hw, rfl⟩)
  | allocated _ hA hcap hend => exact .inr (.inr ⟨_, _, _, _, hA, hcap, hend⟩)

/-! ### The backing size (R32, R110) -/

/-- A store backs no more bytes than before (R57). -/
theorem backed_writeSegments (m : Memory) (a : Nat) (bs : List Byte) : backed (writeSegments a bs m) = backed m := by
  rw [backed, writeSegments_lens, backed]

/-- An allocation backs exactly the `g` bytes its `capcheck` counts (R110). -/
theorem Allocates.backed_eq {adjacent : Bool} {addr len : Nat} {m : Memory} {g : Nat} {m' : Memory} {a : Nat}
    (h : Allocates adjacent addr len m g m' a) : backed m' = backed m + g := by
  cases h with
  | @extend pre S post hm =>
    simp only [hm, backed_append, backed_cons, Segment.extend]
    omega
  | @backward pre S post hm _ _ _ hreach =>
    have hlt := (reachesInto_iff.1 hreach).1
    simp only [hm, backed_insertSegment, backed_append, backed_cons, Segment.growBackward, Segment.stop]
    omega
  | fresh => simp only [backed_insertSegment, Segment.zeros]; omega

theorem overCapacity_eq_false_iff {s : State} {g : Nat} :
    overCapacity s g = false ↔ ∀ limit, s.cfg.backingLimit = some limit → backed s.segs + g ≤ limit := by
  rw [← Bool.not_eq_true, overCapacity_iff]
  simp

/-! ### The invariant (R6, R28, R58, R110) -/

theorem State.sound_iff {s : State} :
    s.sound = true ↔
      s.cfg.legal = true ∧ Memory.wf s.segs = true ∧
        (∀ limit, s.cfg.backingLimit = some limit → backed s.segs ≤ limit) ∧ s.fatal ≠ .set .containment := by
  simp only [State.sound, State.withinLimit, Bool.and_eq_true, Bool.not_eq_true', overCapacity_eq_false_iff, bne_iff_ne, and_assoc,
    Nat.add_zero]

/-- The invariant reads nothing of the requester. -/
theorem State.sound_construct {cfg : Config} (h : cfg.legal = true) (inputs : List Input) (responses : List Response) :
    ({ State.construct cfg with inputs := inputs, responses := responses } : State).sound = true :=
  State.sound_iff.2 ⟨h, construct_wf cfg, fun limit _ => Nat.zero_le limit, nofun⟩

/-- A command keeps the canonical form of the table (R28). -/
theorem Answers.wf {w : CmdWord} {s t : State} (h : Answers w s t) (hs : Memory.wf s.segs = true) :
    Memory.wf t.segs = true := by
  rcases h.segs_cases with he | ⟨addr, bs, u, hw, he⟩ | ⟨hint, size, g, a, hA, -, hend⟩
  · exact he ▸ hs
  · exact he ▸ memWrite_wf hw hs
  · exact hA.wf hs (rounddown_block_mod _) (allocLength_mod _) (blockSize_le_allocLength _) hend

/-- A command keeps the backing limit (R110). -/
theorem Answers.backed_le {w : CmdWord} {s t : State} (h : Answers w s t) {limit : Nat} (hl : s.cfg.backingLimit = some limit)
    (hs : backed s.segs ≤ limit) : backed t.segs ≤ limit := by
  rcases h.segs_cases with he | ⟨addr, bs, u, hw, he⟩ | ⟨hint, size, g, a, hA, hcap, -⟩
  · exact he ▸ hs
  · obtain ⟨S, -, rfl⟩ := memWrite_ok.1 hw
    rw [he, backed_writeSegments]
    exact hs
  · rw [hA.backed_eq]
    exact overCapacity_eq_false_iff.1 hcap limit hl

/-- A command keeps the invariant. -/
theorem Answers.sound {w : CmdWord} {s t : State} (h : Answers w s t) (hs : s.sound = true) : t.sound = true := by
  obtain ⟨hlegal, hwf, hlimit, hfatal⟩ := State.sound_iff.1 hs
  refine State.sound_iff.2 ⟨h.cfg_eq ▸ hlegal, h.wf hwf, fun limit hl => ?_, h.fatal_ne_containment hfatal⟩
  rw [h.cfg_eq] at hl
  exact h.backed_le hl (hlimit limit hl)

/-- Settles O14: a request keeps the invariant by `Answers.sound`, and a reset gives a constructed block. -/
theorem stepKeepsSound : Obligations.StepKeepsSound := by
  unfold Obligations.StepKeepsSound
  intro s t hs hstep
  rcases step_cases hstep with ⟨q, rest, w, -, hA⟩ | ⟨cfg, rest, -, hlegal, rfl⟩
  · have hs' : ({ s with inputs := rest } : State).sound = true := hs
    exact hA.sound hs'
  · exact State.sound_construct hlegal rest s.responses

/-- Settles O13. -/
theorem resetIsSound : Obligations.ResetIsSound := by
  unfold Obligations.ResetIsSound
  have hconstruct : ∀ cfg : Config, cfg.legal = true → (State.construct cfg).sound = true :=
    fun cfg h => State.sound_construct h [] []
  exact ⟨hconstruct, hconstruct Config.conventional (by decide)⟩

/-- Settles O11: a request answers `FATAL` and changes nothing else, so only the other kind of step, a reset, is left. -/
theorem onlyResetClearsFatal : Obligations.OnlyResetClearsFatal := by
  unfold Obligations.OnlyResetClearsFatal
  intro s t sub hs hstep
  rcases step_cases hstep with ⟨q, rest, w, -, hA⟩ | ⟨cfg, rest, hin, -, -⟩
  · left
    rw [hA.eq_of_fatal hs]
    exact hs
  · exact .inr ⟨cfg, rest, hin⟩

/-- A legal configuration is constructed, for any requester (R37, R240). -/
theorem performReset_legal {cfg : Config} (h : cfg.legal = true) (s : State) :
    performReset cfg s = .next { State.construct cfg with inputs := s.inputs, responses := s.responses } := by
  rw [performReset, if_pos h]

theorem performReset_illegal {cfg : Config} (h : ¬ cfg.legal = true) (s : State) :
    performReset cfg s = .refused .illegalConfiguration := by
  rw [performReset, if_neg h]

/-- Settles O12: the values are those `State.construct` writes down. -/
theorem resetConstructsTheBlock : Obligations.ResetConstructsTheBlock := by
  unfold Obligations.ResetConstructsTheBlock
  intro s cfg rest hin
  rw [step_reset hin, ← Config.legal_iff]
  refine ⟨fun hlegal => ⟨_, performReset_legal hlegal _, ?_⟩, fun hlegal => performReset_illegal hlegal _⟩
  refine ⟨rfl, rfl, rfl, rfl, rfl, fun i => ?_, rfl, rfl, fun _ => ⟨fun i => ?_, rfl, rfl, fun i k hk => ?_⟩⟩
  · simp [State.construct]
  · simp [State.construct]
  · simp [State.construct, hk]

/-! ### Segments only grow (R28) -/

/-- Every segment of a table is within one of another, which has no fewer segments. -/
def Memory.grows (m m' : Memory) : Prop :=
  m.length ≤ m'.length ∧ ∀ S ∈ m, ∃ T ∈ m', T.start ≤ S.start ∧ S.start + S.len ≤ T.start + T.len

theorem Memory.grows_refl (m : Memory) : Memory.grows m m :=
  ⟨Nat.le_refl _, fun S hS => ⟨S, hS, Nat.le_refl _, Nat.le_refl _⟩⟩

/-- Replacing one segment by one that contains it, wherever it is put, grows the table. -/
theorem Memory.grows_of_perm {pre post m' : Memory} {S T : Segment} (hp : m'.Perm (T :: (pre ++ post)))
    (hstart : T.start ≤ S.start) (hend : S.start + S.len ≤ T.start + T.len) : Memory.grows (pre ++ S :: post) m' := by
  refine ⟨?_, fun U hU => ?_⟩
  · have := hp.length_eq
    simp at this ⊢
    omega
  · rcases List.mem_cons.1 (List.perm_middle.mem_iff.1 hU) with rfl | hU
    · exact ⟨T, hp.mem_iff.2 List.mem_cons_self, hstart, hend⟩
    · exact ⟨U, hp.mem_iff.2 (List.mem_cons_of_mem _ hU), Nat.le_refl _, Nat.le_refl _⟩

/-- A store leaves every start and length as it was (R57). -/
theorem Memory.grows_writeSegments (m : Memory) (a : Nat) (bs : List Byte) : Memory.grows m (writeSegments a bs m) := by
  cases hl : lookup m a with
  | none => rw [writeSegments_none bs hl]; exact Memory.grows_refl m
  | some S =>
    obtain ⟨hS, pre, post, hm, hpre⟩ := lookup_eq_some.1 hl
    rw [writeSegments_eq hm hpre hS, hm]
    exact Memory.grows_of_perm List.perm_middle (Nat.le_refl _) (Nat.le_refl _)

/-- Each of the three changes of `ALLOC` grows the table (R111). -/
theorem Allocates.grows {adjacent : Bool} {addr len : Nat} {m : Memory} {g : Nat} {m' : Memory} {a : Nat}
    (h : Allocates adjacent addr len m g m' a) : Memory.grows m m' := by
  cases h with
  | @extend pre S post hm =>
    rw [hm]
    exact Memory.grows_of_perm List.perm_middle (Nat.le_refl _) (by simp only [Segment.extend]; omega)
  | @backward pre S post hm _ _ _ hreach =>
    have hlt := (reachesInto_iff.1 hreach).1
    rw [hm]
    refine Memory.grows_of_perm (insertSegment_perm _ _) (Nat.le_of_lt hlt) ?_
    simp only [Segment.growBackward, Segment.stop]
    omega
  | fresh =>
    have hp := insertSegment_perm (Segment.zeros addr len) m
    refine ⟨by rw [hp.length_eq]; simp, fun S hS => ?_⟩
    exact ⟨S, hp.mem_iff.2 (List.mem_cons_of_mem _ hS), Nat.le_refl _, Nat.le_refl _⟩

/-- Settles O15, by what a command can do to the table. -/
theorem segmentsOnlyGrow : Obligations.SegmentsOnlyGrow := by
  unfold Obligations.SegmentsOnlyGrow
  intro i s t _ hexec
  show Memory.grows s.segs t.segs
  rcases (exec_answers hexec).segs_cases with he | ⟨addr, bs, u, hw, he⟩ | ⟨hint, size, g, a, hA, -, -⟩
  · exact he ▸ Memory.grows_refl _
  · obtain ⟨S, -, rfl⟩ := memWrite_ok.1 hw
    exact he ▸ Memory.grows_writeSegments _ _ _
  · exact hA.grows

end Sys2Proof.Machine
end

section
/-! The commands by the shared operation they run, and from it the frame of every command: the registers and the memory change only
by the commands their rules name (10_state.md; R21, R24, R25, R27, R30, R156, R197). -/

namespace Sys2Proof.Machine

/-! ### The families of commands -/

/-- `RDB` and `RDBS` after the prologue (R113, R114): read `n` bytes and answer them. -/
def load (addr : Word64) (n : Nat) (answer : List Byte → Result) (s : State) : Out :=
  match memRead s addr n with
  | .error f => s.fail f
  | .ok bs => s.succeed (answer bs)

/-- `WRB` and `WRBS` after the prologue (R115, R116). -/
def store (addr : Word64) (bs : List Byte) (s : State) : Out :=
  match memWrite s addr bs with
  | .error f => s.fail f
  | .ok t => t.succeed .none

/-- The shared operation a command runs, with the register or the memory its rule names where it writes one. -/
inductive Meaning (i : Instr) : Prop where
  | alloc (hint size : Word64) (hi : i.writesMemory = true) (h : ∀ s, exec i s = s.prologue (allocate hint size s))
  | load (addr : Word64) (n : Nat) (answer : List Byte → Result) (h : ∀ s, exec i s = s.prologue (load addr n answer s))
  | store (addr : Word64) (bs : List Byte) (hi : i.writesMemory = true) (h : ∀ s, exec i s = s.prologue (store addr bs s))
  | identity (answer : Config → Result) (h : ∀ s, exec i s = s.prologue (s.succeed (answer s.cfg)))
  | gprRead (w : Nat) (hw : 8 ∣ w) (r : RegIndex) (h : ∀ s, exec i s = gprRead w (encode i).cmd r s)
  | gprWrite (w : Nat) (hw : 8 ∣ w) (r : RegIndex) (value : Word64) (hi : i.gprTarget = some r)
      (h : ∀ s, exec i s = gprWrite w r value s)
  | ripRead (h : ∀ s, exec i s = ripChecked (encode i).cmd s (s.succeed (.word 64 s.rip)))
  | ripWrite (value : Word64) (hi : i.writesRip = true) (h : ∀ s, exec i s = s.prologue ((s.writeRip value).succeed .none))
  | rflagsRead (answer : Word64 → Result) (h : ∀ s, exec i s = rflagsChecked (encode i).cmd s (s.succeed (answer s.rflags)))
  | rflagsWrite (value : Word64) (hi : i.writesRflags = true)
      (h : ∀ s, exec i s = s.prologue ((s.writeRflags value).succeed .none))
  | rflagsUpdate (f : Word64 → Word64) (hi : i.writesRflags = true)
      (h : ∀ s, exec i s = rflagsChecked (encode i).cmd s ({ s with rflags := f s.rflags }.succeed .none))
  | vread (vw : View) (ty : ElemType) (r : RegIndex) (h : ∀ s, exec i s = vread vw ty (encode i).cmd r s)
  | vwrite (vw : View) (ty : ElemType) (r : RegIndex) (es : List Int) (hi : i.simdTarget = some r)
      (h : ∀ s, exec i s = vwrite vw ty (encode i).cmd r es s)

/-- Every command runs one of the shared operations (R86). -/
theorem exec_meaning (i : Instr) : Meaning i := by
  cases i with
  | alloc hint size => exact .alloc hint size rfl fun _ => rfl
  | rdb addr => exact .load addr 1 (fun bs => .word 8 (bs.headD 0)) fun _ => rfl
  | rdbs addr size => exact .load addr size.toNat .bytes fun _ => rfl
  | wrb addr value => exact .store addr [value.setWidth 8] rfl fun _ => rfl
  | wrbs addr data => exact .store addr data rfl fun _ => rfl
  | dname => exact .identity (fun c => .bytes c.deviceName) fun _ => rfl
  | dstart => exact .identity (fun c => .word 64 c.base) fun _ => rfl
  | dend => exact .identity (fun c => .word 64 (BitVec.ofNat 64 c.windowEnd)) fun _ => rfl
  | grd8 r => exact .gprRead 8 (by decide) r fun _ => rfl
  | grd16 r => exact .gprRead 16 (by decide) r fun _ => rfl
  | grd32 r => exact .gprRead 32 (by decide) r fun _ => rfl
  | grd64 r => exact .gprRead 64 (by decide) r fun _ => rfl
  | gwr8 r value => exact .gprWrite 8 (by decide) r value rfl fun _ => rfl
  | gwr16 r value => exact .gprWrite 16 (by decide) r value rfl fun _ => rfl
  | gwr32 r value => exact .gprWrite 32 (by decide) r value rfl fun _ => rfl
  | gwr64 r value => exact .gprWrite 64 (by decide) r value rfl fun _ => rfl
  | riprd => exact .ripRead fun _ => rfl
  | ripwr value => exact .ripWrite value rfl fun _ => rfl
  | flrd => exact .rflagsRead (.word 64) fun _ => rfl
  | flwr value => exact .rflagsWrite value rfl fun _ => rfl
  | flset mask => exact .rflagsUpdate (flagsSet · mask) rfl fun _ => rfl
  | flclr mask => exact .rflagsUpdate (flagsClear · mask) rfl fun _ => rfl
  | fltst mask => exact .rflagsRead (fun v => .word 1 (flagsTest v mask)) fun _ => rfl
  | vrdXmmI8x16 r | vrdYmmI8x32 r | vrdZmmI8x64 r | vrdXmmU8x16 r | vrdYmmU8x32 r | vrdZmmU8x64 r
  | vrdXmmI16x8 r | vrdYmmI16x16 r | vrdZmmI16x32 r | vrdXmmU16x8 r | vrdYmmU16x16 r | vrdZmmU16x32 r
  | vrdXmmI32x4 r | vrdYmmI32x8 r | vrdZmmI32x16 r | vrdXmmU32x4 r | vrdYmmU32x8 r | vrdZmmU32x16 r
  | vrdXmmI64x2 r | vrdYmmI64x4 r | vrdZmmI64x8 r | vrdXmmU64x2 r | vrdYmmU64x4 r | vrdZmmU64x8 r
  | vrdXmmF32x4 r | vrdYmmF32x8 r | vrdZmmF32x16 r | vrdXmmF64x2 r | vrdYmmF64x4 r | vrdZmmF64x8 r =>
    exact .vread _ _ r fun _ => rfl
  | vwrXmmI8x16 r es | vwrYmmI8x32 r es | vwrZmmI8x64 r es | vwrXmmU8x16 r es | vwrYmmU8x32 r es | vwrZmmU8x64 r es
  | vwrXmmI16x8 r es | vwrYmmI16x16 r es | vwrZmmI16x32 r es | vwrXmmU16x8 r es | vwrYmmU16x16 r es | vwrZmmU16x32 r es
  | vwrXmmI32x4 r es | vwrYmmI32x8 r es | vwrZmmI32x16 r es | vwrXmmU32x4 r es | vwrYmmU32x8 r es | vwrZmmU32x16 r es
  | vwrXmmI64x2 r es | vwrYmmI64x4 r es | vwrZmmI64x8 r es | vwrXmmU64x2 r es | vwrYmmU64x4 r es | vwrZmmU64x8 r es
  | vwrXmmF32x4 r es | vwrYmmF32x8 r es | vwrZmmF32x16 r es | vwrXmmF64x2 r es | vwrYmmF64x4 r es | vwrZmmF64x8 r es =>
    exact .vwrite _ _ r es rfl fun _ => rfl

/-! ### The frame of a command -/

/-- What a command may change besides `FATAL` and the responses: nothing, or what its rule names. -/
inductive Writes (i : Instr) (s : State) : State → Prop where
  | nothing {fatal : FatalState} {responses : List Response} : Writes i s { s with fatal := fatal, responses := responses }
  | gpr {w : Nat} {r : RegIndex} {v : BitVec w} {answer : Response} (hi : i.gprTarget = some r) :
      Writes i s ((s.writeGpr r v).respond answer)
  | rip {v : Word64} {answer : Response} (hi : i.writesRip = true) : Writes i s ((s.writeRip v).respond answer)
  | rflags {v : Word64} {valid : BitVec 8} {answer : Response} (hi : i.writesRflags = true) :
      Writes i s ({ s with rflags := v, rflagsValid := valid }.respond answer)
  | simd {r : RegIndex} {vw : View} {ty : ElemType} {es : List Int} {answer : Response} (hi : i.simdTarget = some r) :
      Writes i s ((s.writeSimd r vw ty es).respond answer)
  | memory {m : Memory} {answer : Response} (hi : i.writesMemory = true) : Writes i s ({ s with segs := m }.respond answer)

theorem Writes.of_fail {i : Instr} {s t : State} {f : Failure} (h : s.fail f = .next t) : Writes i s t := by
  rcases State.fail_cases h with ⟨_, _, _, _, rfl⟩ | ⟨_, _, rfl⟩ <;> exact .nothing

theorem Writes.of_succeed {i : Instr} {s t : State} {res : Result} (h : s.succeed res = .next t) : Writes i s t :=
  succeed_next h ▸ .nothing

theorem Writes.of_prologue {i : Instr} {s t : State} {run : Out} (h : s.prologue run = .next t)
    (hrun : run = .next t → Writes i s t) : Writes i s t := by
  rcases State.prologue_cases h with ⟨_, _, rfl⟩ | ⟨_, hr⟩
  · exact .nothing
  · exact hrun hr

theorem Writes.of_readChecked {i : Instr} {s t : State} {w : CmdWord} {valid : Bool} {run : Out}
    (h : s.readChecked w valid run = .next t) (hrun : run = .next t → Writes i s t) : Writes i s t := by
  rcases State.readChecked_cases (s := s) (w := w) (valid := valid) (run := run) with ⟨-, -, he⟩ | ⟨-, he⟩ <;> rw [he] at h
  · exact .of_fail h
  · exact hrun h

theorem Writes.of_load {i : Instr} {s t : State} {addr : Word64} {n : Nat} {answer : List Byte → Result}
    (h : load addr n answer s = .next t) : Writes i s t := by
  unfold load at h
  split at h
  · exact .of_fail h
  · exact .of_succeed h

theorem Writes.of_store {i : Instr} {s t : State} {addr : Word64} {bs : List Byte} (hi : i.writesMemory = true)
    (h : store addr bs s = .next t) : Writes i s t := by
  unfold store at h
  split at h
  next => exact .of_fail h
  next u hu =>
    obtain ⟨S, -, rfl⟩ := memWrite_ok.1 hu
    exact succeed_next h ▸ .memory hi

theorem Writes.of_allocate {i : Instr} {s t : State} {hint size : Word64} (hi : i.writesMemory = true)
    (h : allocate hint size s = .next t) : Writes i s t := by
  rcases allocate_cases h with ⟨f, hf, -⟩ | ⟨g, m, a, -, -, -, -, -, rfl⟩
  · exact .of_fail hf
  · exact .memory hi

theorem Writes.of_vwrite {i : Instr} {s t : State} {vw : View} {ty : ElemType} {w : CmdWord} {r : RegIndex} {es : List Int}
    (hi : i.simdTarget = some r) (h : vwrite vw ty w r es s = .next t) : Writes i s t := by
  unfold vwrite at h
  split at h
  · exact .of_prologue h fun hr => succeed_next hr ▸ .simd hi
  · exact .of_prologue h .of_fail

/-- Every command writes at most what its rule names. -/
theorem exec_writes {i : Instr} {s t : State} (h : exec i s = .next t) : Writes i s t := by
  cases exec_meaning i with
  | alloc _ _ hi he => exact .of_prologue (he s ▸ h) (.of_allocate hi)
  | load _ _ _ he => exact .of_prologue (he s ▸ h) .of_load
  | store _ _ hi he => exact .of_prologue (he s ▸ h) (.of_store hi)
  | identity _ he => exact .of_prologue (he s ▸ h) .of_succeed
  | gprRead _ _ _ he | ripRead he | rflagsRead _ he | vread _ _ _ he =>
    exact .of_prologue (he s ▸ h) fun hr => .of_readChecked hr .of_succeed
  | gprWrite _ _ _ _ hi he => exact .of_prologue (he s ▸ h) fun hr => succeed_next hr ▸ .gpr hi
  | ripWrite _ hi he => exact .of_prologue (he s ▸ h) fun hr => succeed_next hr ▸ .rip hi
  | rflagsWrite _ hi he => exact .of_prologue (he s ▸ h) fun hr => succeed_next hr ▸ .rflags hi
  | rflagsUpdate _ hi he =>
    exact .of_prologue (he s ▸ h) fun hr => .of_readChecked hr fun hg => succeed_next hg ▸ .rflags hi
  | vwrite _ _ _ _ hi he => exact .of_vwrite hi (he s ▸ h)

/-! ### The registers a write does not name -/

theorem writeGpr_other {w : Nat} (s : State) {r j : RegIndex} (v : BitVec w) (h : r ≠ j) :
    (s.writeGpr r v).gpr[j.val] = s.gpr[j.val] ∧ (s.writeGpr r v).gprValid[j.val] = s.gprValid[j.val] := by
  have hne : r.val ≠ j.val := fun e => h (Fin.ext e)
  refine ⟨by simp [hne], ?_⟩
  rw [State.writeGpr_gprValid]
  split <;> simp [hne]

theorem writeSimd_other (s : State) {r j : RegIndex} (vw : View) (ty : ElemType) (es : List Int) (h : r ≠ j) :
    (s.writeSimd r vw ty es).simd[j.val] = s.simd[j.val] ∧ (s.writeSimd r vw ty es).simdValid[j.val] = s.simdValid[j.val] := by
  have hne : r.val ≠ j.val := fun e => h (Fin.ext e)
  refine ⟨by simp [hne], ?_⟩
  rw [State.writeSimd_simdValid]
  split <;> simp [hne]

/-- Settles O32: in each case of `exec_writes` the register written, if any, is the one the command's rule names. -/
theorem registersChangeOnlyByTheirCommands : Obligations.RegistersChangeOnlyByTheirCommands := by
  unfold Obligations.RegistersChangeOnlyByTheirCommands
  intro i s t hexec
  cases exec_writes hexec with
  | nothing | memory => exact ⟨fun _ _ => ⟨rfl, rfl⟩, fun _ => ⟨rfl, rfl⟩, fun _ => ⟨rfl, rfl⟩, fun _ _ => ⟨rfl, rfl⟩⟩
  | gpr hi =>
    refine ⟨fun j hj => writeGpr_other s _ ?_, fun _ => ⟨rfl, rfl⟩, fun _ => ⟨rfl, rfl⟩, fun _ _ => ⟨rfl, rfl⟩⟩
    exact fun e => hj (e ▸ hi)
  | rip hi => exact ⟨fun _ _ => ⟨rfl, rfl⟩, fun hn => by simp [hi] at hn, fun _ => ⟨rfl, rfl⟩, fun _ _ => ⟨rfl, rfl⟩⟩
  | rflags hi => exact ⟨fun _ _ => ⟨rfl, rfl⟩, fun _ => ⟨rfl, rfl⟩, fun hn => by simp [hi] at hn, fun _ _ => ⟨rfl, rfl⟩⟩
  | simd hi =>
    refine ⟨fun _ _ => ⟨rfl, rfl⟩, fun _ => ⟨rfl, rfl⟩, fun _ => ⟨rfl, rfl⟩, fun j hj => writeSimd_other s _ _ _ ?_⟩
    exact fun e => hj (e ▸ hi)

/-- Settles O33: of the cases of `exec_writes`, only a write of the memory changes the table, and none the configuration. -/
theorem memoryChangesOnlyByStoresAndAlloc : Obligations.MemoryChangesOnlyByStoresAndAlloc := by
  unfold Obligations.MemoryChangesOnlyByStoresAndAlloc
  intro i s t hexec
  cases exec_writes hexec with
  | nothing | gpr | rip | rflags | simd => exact ⟨fun _ => rfl, rfl, rfl⟩
  | memory hi => exact ⟨fun hn => by simp [hi] at hn, rfl, rfl⟩

end Sys2Proof.Machine
end

section
/-! Proof that under `POISON` the values of unwritten register bytes never show (10_state.md; R34, R215): `State.sameWritten` is kept
by every update of the state, then by the two runs of every shared operation, and so by every step. -/

namespace Sys2Proof.Machine

/-! ### Updates of two states that differ in unwritten bytes -/

theorem State.sameWritten.refl (s : State) : s.sameWritten s :=
  ⟨rfl, rfl, rfl, rfl, rfl, rfl, rfl, rfl, rfl, fun _ _ _ => rfl, fun _ _ => rfl, fun _ _ => rfl, fun _ _ _ => rfl⟩

namespace State.sameWritten

variable {s t : State}

theorem segs_eq : s.sameWritten t → s.segs = t.segs
  | ⟨hsegs, _⟩ => hsegs

theorem fatal_eq : s.sameWritten t → s.fatal = t.fatal
  | ⟨_, hfatal, _⟩ => hfatal

theorem cfg_eq : s.sameWritten t → s.cfg = t.cfg
  | ⟨_, _, hcfg, _⟩ => hcfg

theorem inputs_eq : s.sameWritten t → s.inputs = t.inputs
  | ⟨_, _, _, hin, _⟩ => hin

theorem responses_eq : s.sameWritten t → s.responses = t.responses
  | ⟨_, _, _, _, hresp, _⟩ => hresp

theorem gprValid_eq : s.sameWritten t → s.gprValid = t.gprValid
  | ⟨_, _, _, _, _, hgv, _⟩ => hgv

theorem ripValid_eq : s.sameWritten t → s.ripValid = t.ripValid
  | ⟨_, _, _, _, _, _, hrv, _⟩ => hrv

theorem rflagsValid_eq : s.sameWritten t → s.rflagsValid = t.rflagsValid
  | ⟨_, _, _, _, _, _, _, hfv, _⟩ => hfv

theorem simdValid_eq : s.sameWritten t → s.simdValid = t.simdValid
  | ⟨_, _, _, _, _, _, _, _, hsv, _⟩ => hsv

theorem poison_eq (h : s.sameWritten t) : s.poison = t.poison := by rw [State.poison, h.cfg_eq, State.poison]

theorem withInputs (h : s.sameWritten t) (inputs : List Input) :
    ({ s with inputs := inputs } : State).sameWritten { t with inputs := inputs } := by
  obtain ⟨hsegs, hfatal, hcfg, -, hresp, hvalid⟩ := h
  exact ⟨hsegs, hfatal, hcfg, rfl, hresp, hvalid⟩

theorem withFatal (h : s.sameWritten t) (fatal : FatalState) :
    ({ s with fatal := fatal } : State).sameWritten { t with fatal := fatal } := by
  obtain ⟨hsegs, -, hrest⟩ := h
  exact ⟨hsegs, rfl, hrest⟩

theorem withSegs (h : s.sameWritten t) (segs : Memory) :
    ({ s with segs := segs } : State).sameWritten { t with segs := segs } := by
  obtain ⟨-, hrest⟩ := h
  exact ⟨rfl, hrest⟩

theorem respond (h : s.sameWritten t) (r : Response) : (s.respond r).sameWritten (t.respond r) := by
  obtain ⟨hsegs, hfatal, hcfg, hin, hresp, hvalid⟩ := h
  exact ⟨hsegs, hfatal, hcfg, hin, by simp [hresp], hvalid⟩

end State.sameWritten

/-! ### What the valid bytes of a register decide -/

/-- A value whose first `n` bytes are all valid has the same low bits in both states. -/
theorem getLsbD_eq_of_allValid {valid : BitVec 8} {a b : Word64} {n k : Nat}
    (h : ∀ k, valid.getLsbD (k / 8) = true → a.getLsbD k = b.getLsbD k) (hv : allValid valid n = true) (hk : k / 8 < n) :
    a.getLsbD k = b.getLsbD k := by
  by_cases h64 : k < 64
  · exact h k (allValid_iff.1 hv _ (by omega) hk)
  · rw [BitVec.getLsbD_of_ge _ _ (by omega), BitVec.getLsbD_of_ge _ _ (by omega)]

theorem eq_of_allValid {valid : BitVec 8} {a b : Word64}
    (h : ∀ k, valid.getLsbD (k / 8) = true → a.getLsbD k = b.getLsbD k) (hv : allValid valid 8 = true) : a = b :=
  BitVec.eq_of_getLsbD_eq fun _ hk => getLsbD_eq_of_allValid h hv (by omega)

theorem setWidth_eq_of_allValid {valid : BitVec 8} {a b : Word64} {w : Nat} (hw : 8 ∣ w)
    (h : ∀ k, valid.getLsbD (k / 8) = true → a.getLsbD k = b.getLsbD k) (hv : allValid valid (w / 8) = true) :
    a.setWidth w = b.setWidth w := by
  refine BitVec.eq_of_getLsbD_eq fun k hk => ?_
  rw [BitVec.getLsbD_setWidth, BitVec.getLsbD_setWidth, getLsbD_eq_of_allValid h hv (by omega)]

/-- A view whose bytes are all valid has the same elements in both states. -/
theorem viewElems_eq_of_allValid {valid : BitVec 64} {v v' : SimdReg} {vw : View} (ty : ElemType)
    (h : ∀ k : Nat, valid.getLsbD k = true → v[k]! = v'[k]!) (hv : allValid valid vw.bytes = true) :
    viewElems v vw ty = viewElems v' vw ty := by
  have hbytes : viewBytes v vw = viewBytes v' vw := by
    refine List.ext_getElem (by simp [viewBytes]) fun k h1 h2 => ?_
    have hk : k < vw.bytes ∧ k < 64 := by simpa [viewBytes] using h1
    have := h k (allValid_iff.1 hv k hk.2 hk.1)
    simpa [viewBytes, hk.2] using this
  rw [viewElems, hbytes, viewElems]

/-- A write of the low `w` bits leaves a bit whose byte is then valid the same in both states: it is written, or its byte was
valid before. -/
theorem gprWritten_getLsbD_eq {p : GprWritePolicy} {valid : BitVec 8} {a b : Word64} {w k : Nat} (hw : 8 ∣ w) (v : BitVec w)
    (h : ∀ k, valid.getLsbD (k / 8) = true → a.getLsbD k = b.getLsbD k)
    (hk : (gprMarked p valid w).getLsbD (k / 8) = true) : (gprWritten p a v).getLsbD k = (gprWritten p b v).getLsbD k := by
  unfold gprMarked at hk
  unfold gprWritten
  by_cases hwhole : wholeWrite p w = true
  · rw [if_pos hwhole, if_pos hwhole]
  · rw [if_neg hwhole, markValid_getLsbD, Bool.or_eq_true] at hk
    rw [if_neg hwhole, if_neg hwhole]
    by_cases h64 : k < 64
    · rw [insertLow_getLsbD a v h64, insertLow_getLsbD b v h64]
      split
      · rfl
      · rcases hk with hk | hk
        · exact h k hk
        · simp only [Bool.and_eq_true, decide_eq_true_eq] at hk
          omega
    · rw [BitVec.getLsbD_of_ge _ _ (by omega), BitVec.getLsbD_of_ge _ _ (by omega)]

/-- The bytes after a `VWR` of elements that fit: the image in the view, the old bytes past it (R173). -/
theorem putBytes_image_getElem! (v : SimdReg) {vw : View} {ty : ElemType} {es : List Int} (he : elementsFit vw ty es = true)
    (k : Nat) : (putBytes v 0 (elemsImage ty es))[k]! = if k < vw.bytes then (elemsImage ty es)[k]! else v[k]! := by
  have hlen := (elementsFit_iff.1 he).1
  have himg : (elemsImage ty es).length = vw.bytes := by rw [elemsImage_length, hlen, elemCount_mul_width]
  have hb : vw.bytes ≤ 64 := by cases vw <;> decide
  by_cases hk : k < 64
  · have hget : (putBytes v 0 (elemsImage ty es))[k]! = (putBytes v 0 (elemsImage ty es)).toList[k]! := by simp [hk]
    rw [hget, putBytes_image v hlen]
    split
    case isTrue hlt => simp [List.getElem!_eq_getElem?_getD, List.getElem?_append, himg, hlt]
    case isFalse hge =>
      have hadd : vw.bytes + (k - vw.bytes) = k := by omega
      simp [List.getElem!_eq_getElem?_getD, List.getElem?_append, himg, hge, hadd, hk]
  · rw [if_neg (by omega)]
    simp [hk]

/-! ### Register writes of two states that differ in unwritten bytes -/

namespace State.sameWritten

variable {s t : State}

theorem writeGpr {w : Nat} (h : s.sameWritten t) (hp : s.poison = true) (hw : 8 ∣ w) (r : RegIndex) (v : BitVec w) :
    (s.writeGpr r v).sameWritten (t.writeGpr r v) := by
  have hpt : t.poison = true := h.poison_eq ▸ hp
  obtain ⟨hsegs, hfatal, hcfg, hin, hresp, hgv, hrv, hfv, hsv, hg, hr, hf, hs⟩ := h
  refine ⟨hsegs, hfatal, hcfg, hin, hresp, by simp [hp, hpt, hcfg, hgv], hrv, hfv, hsv, fun j k hk => ?_, hr, hf, hs⟩
  by_cases hj : r = j
  · subst hj
    simp only [State.writeGpr_gprValid, hp, if_true, Vector.getElem_set_self] at hk
    simp only [State.writeGpr_gpr, Vector.getElem_set_self, ← hcfg]
    exact gprWritten_getLsbD_eq hw v (hg r) hk
  · rw [(writeGpr_other s v hj).2] at hk
    rw [(writeGpr_other s v hj).1, (writeGpr_other t v hj).1]
    exact hg j k hk

theorem writeRip (h : s.sameWritten t) (v : Word64) : (s.writeRip v).sameWritten (t.writeRip v) := by
  have hpt := h.poison_eq
  obtain ⟨hsegs, hfatal, hcfg, hin, hresp, hgv, hrv, hfv, hsv, hg, -, hf, hs⟩ := h
  exact ⟨hsegs, hfatal, hcfg, hin, hresp, hgv, by simp [hpt, hrv], hfv, hsv, hg, fun _ _ => rfl, hf, hs⟩

theorem writeRflags (h : s.sameWritten t) (v : Word64) : (s.writeRflags v).sameWritten (t.writeRflags v) := by
  have hpt := h.poison_eq
  obtain ⟨hsegs, hfatal, hcfg, hin, hresp, hgv, hrv, hfv, hsv, hg, hr, -, hs⟩ := h
  exact ⟨hsegs, hfatal, hcfg, hin, hresp, hgv, hrv, by simp [hpt, hfv], hsv, hg, hr, fun _ _ => rfl, hs⟩

theorem withRflags (h : s.sameWritten t) (v : Word64) :
    ({ s with rflags := v } : State).sameWritten { t with rflags := v } := by
  obtain ⟨hsegs, hfatal, hcfg, hin, hresp, hgv, hrv, hfv, hsv, hg, hr, -, hs⟩ := h
  exact ⟨hsegs, hfatal, hcfg, hin, hresp, hgv, hrv, hfv, hsv, hg, hr, fun _ _ => rfl, hs⟩

theorem writeSimd {vw : View} {ty : ElemType} {es : List Int} (h : s.sameWritten t) (hp : s.poison = true) (r : RegIndex)
    (he : elementsFit vw ty es = true) : (s.writeSimd r vw ty es).sameWritten (t.writeSimd r vw ty es) := by
  have hpt : t.poison = true := h.poison_eq ▸ hp
  obtain ⟨hsegs, hfatal, hcfg, hin, hresp, hgv, hrv, hfv, hsv, hg, hr, hf, hs⟩ := h
  refine ⟨hsegs, hfatal, hcfg, hin, hresp, hgv, hrv, hfv, by simp [hp, hpt, hsv], hg, hr, hf, fun j k hk => ?_⟩
  by_cases hj : r = j
  · subst hj
    simp only [State.writeSimd_simdValid, hp, if_true, Vector.getElem_set_self, markValid_getLsbD, Bool.or_eq_true,
      Bool.and_eq_true, decide_eq_true_eq] at hk
    simp only [State.writeSimd_simd, Vector.getElem_set_self, putBytes_image_getElem! _ he]
    split
    case isTrue => rfl
    case isFalse hge => exact hs r k (hk.resolve_right fun hm => hge hm.2)
  · rw [(writeSimd_other s vw ty es hj).2] at hk
    rw [(writeSimd_other s vw ty es hj).1, (writeSimd_other t vw ty es hj).1]
    exact hs j k hk

theorem rip_eq (h : s.sameWritten t) (hv : allValid s.ripValid 8 = true) : s.rip = t.rip := by
  obtain ⟨-, -, -, -, -, -, -, -, -, -, hr, -⟩ := h
  exact eq_of_allValid hr hv

theorem rflags_eq (h : s.sameWritten t) (hv : allValid s.rflagsValid 8 = true) : s.rflags = t.rflags := by
  obtain ⟨-, -, -, -, -, -, -, -, -, -, -, hf, -⟩ := h
  exact eq_of_allValid hf hv

theorem readGpr_eq {w : Nat} (h : s.sameWritten t) (hw : 8 ∣ w) {r : RegIndex} (hv : allValid s.gprValid[r.val] (w / 8) = true) :
    (s.readGpr r).setWidth w = (t.readGpr r).setWidth w := by
  obtain ⟨-, -, -, -, -, -, -, -, -, hg, -⟩ := h
  exact setWidth_eq_of_allValid hw (hg r) hv

theorem viewElems_eq {vw : View} (h : s.sameWritten t) (ty : ElemType) {r : RegIndex}
    (hv : allValid s.simdValid[r.val] vw.bytes = true) : viewElems (s.readSimd r) vw ty = viewElems (t.readSimd r) vw ty := by
  obtain ⟨-, -, -, -, -, -, -, -, -, -, -, -, hs⟩ := h
  exact viewElems_eq_of_allValid ty (hs r) hv

end State.sameWritten

/-! ### Two runs of the same operation -/

/-- Both runs answer, with next states that differ at most in unwritten bytes. -/
inductive Agree : Out → Out → Prop where
  | next {s t : State} (h : s.sameWritten t) : Agree (.next s) (.next t)

section

variable {s t : State}

theorem Agree.fail (h : s.sameWritten t) (f : Failure) : Agree (s.fail f) (t.fail f) := by
  cases f with
  | status st p0 p1 => exact .next (h.respond _)
  | fatal sub => exact .next ((h.withFatal _).respond _)

theorem Agree.succeed (h : s.sameWritten t) (res : Result) : Agree (s.succeed res) (t.succeed res) := .next (h.respond _)

theorem Agree.prologue {run run' : Out} (h : s.sameWritten t) (hrun : Agree run run') :
    Agree (s.prologue run) (t.prologue run') := by
  cases hf : s.fatal with
  | clear => rwa [State.prologue_clear hf, State.prologue_clear (h.fatal_eq ▸ hf)]
  | set sub =>
    rw [State.prologue_set hf, State.prologue_set (h.fatal_eq ▸ hf)]
    exact .next (h.respond _)

/-- A checked read goes on in both states only when the bytes it reads are valid (R215). -/
theorem Agree.readChecked {w : CmdWord} {valid valid' : Bool} {run run' : Out} (h : s.sameWritten t) (hp : s.poison = true)
    (hv : valid = valid') (hrun : valid = true → Agree run run') :
    Agree (s.readChecked w valid run) (t.readChecked w valid' run') := by
  have hpt : t.poison = true := h.poison_eq ▸ hp
  subst hv
  cases valid with
  | true =>
    rw [State.readChecked_go (.inr rfl), State.readChecked_go (.inr rfl)]
    exact hrun rfl
  | false =>
    simp only [State.readChecked, hp, hpt, Bool.not_false, Bool.and_self, if_true]
    exact .fail h _

theorem Agree.illegalCommand (h : s.sameWritten t) (w : CmdWord) : Agree (illegalCommand w s) (illegalCommand w t) :=
  .prologue h (.fail h _)

/-- The checks of an access read no register. -/
theorem accessSegment_eq_of_sameWritten (h : s.sameWritten t) (addr : Word64) (n : Nat) :
    accessSegment s addr n = accessSegment t addr n := by
  simp only [accessSegment, sizePayload, h.cfg_eq, h.segs_eq, h.responses_eq]

theorem Agree.load (h : s.sameWritten t) (addr : Word64) (n : Nat) (answer : List Byte → Result) :
    Agree (load addr n answer s) (load addr n answer t) := by
  have hread : memRead s addr n = memRead t addr n := by rw [memRead, accessSegment_eq_of_sameWritten h, memRead]
  rw [Machine.load, Machine.load, hread]
  cases memRead t addr n with
  | error f => exact .fail h f
  | ok bs => exact .succeed h (answer bs)

theorem Agree.store (h : s.sameWritten t) (addr : Word64) (bs : List Byte) : Agree (store addr bs s) (store addr bs t) := by
  rw [Machine.store, Machine.store, memWrite, memWrite, accessSegment_eq_of_sameWritten h]
  cases accessSegment t addr bs.length with
  | error f => exact .fail h f
  | ok S => exact .succeed (h.segs_eq ▸ h.withSegs _) .none

theorem Agree.commitAlloc (h : s.sameWritten t) (g : Nat) (segs : Memory) (address : Nat) :
    Agree (commitAlloc s g segs address) (commitAlloc t g segs address) := by
  have hcap : overCapacity s g = overCapacity t g := by rw [overCapacity, h.cfg_eq, h.segs_eq, overCapacity]
  rw [commitAlloc_eq, commitAlloc_eq, hcap]
  split
  · exact .fail h _
  · exact .succeed (h.withSegs segs) _

theorem Agree.allocate (h : s.sameWritten t) (hint size : Word64) : Agree (allocate hint size s) (allocate hint size t) := by
  simp only [Machine.allocate, h.cfg_eq, h.segs_eq]
  split
  · exact .fail h _
  · split
    · exact .fail h _
    · split
      · exact .fail h _
      · exact .commitAlloc h _ _ _
      · exact .commitAlloc h _ _ _
      · exact .commitAlloc h _ _ _

theorem Agree.gprRead {w : Nat} (h : s.sameWritten t) (hp : s.poison = true) (hw : 8 ∣ w) (cmd : CmdWord) (r : RegIndex) :
    Agree (gprRead w cmd r s) (gprRead w cmd r t) := by
  refine .prologue h (.readChecked h hp ?_ fun hv => ?_)
  · rw [h.gprValid_eq]
  · rw [h.readGpr_eq hw hv]
    exact .succeed h _

theorem Agree.ripRead (h : s.sameWritten t) (hp : s.poison = true) (cmd : CmdWord) :
    Agree (ripChecked cmd s (s.succeed (.word 64 s.rip))) (ripChecked cmd t (t.succeed (.word 64 t.rip))) := by
  refine .prologue h (.readChecked h hp ?_ fun hv => ?_)
  · rw [h.ripValid_eq]
  · rw [h.rip_eq hv]
    exact .succeed h _

/-- What a command does after it read valid flags may depend on them. -/
theorem Agree.rflagsChecked {run run' : Out} (h : s.sameWritten t) (hp : s.poison = true) (cmd : CmdWord)
    (hrun : s.rflags = t.rflags → Agree run run') : Agree (rflagsChecked cmd s run) (rflagsChecked cmd t run') := by
  refine .prologue h (.readChecked h hp ?_ fun hv => hrun (h.rflags_eq hv))
  rw [h.rflagsValid_eq]

theorem Agree.vread {vw : View} {ty : ElemType} (h : s.sameWritten t) (hp : s.poison = true) (cmd : CmdWord) (r : RegIndex) :
    Agree (vread vw ty cmd r s) (vread vw ty cmd r t) := by
  refine .prologue h (.readChecked h hp ?_ fun hv => ?_)
  · rw [h.simdValid_eq]
  · rw [h.viewElems_eq ty hv]
    exact .succeed h _

theorem Agree.vwrite {vw : View} {ty : ElemType} (h : s.sameWritten t) (hp : s.poison = true) (cmd : CmdWord) (r : RegIndex)
    (es : List Int) : Agree (vwrite vw ty cmd r es s) (vwrite vw ty cmd r es t) := by
  cases he : elementsFit vw ty es with
  | true =>
    rw [Machine.vwrite, Machine.vwrite, if_pos he, if_pos he]
    exact .prologue h (.succeed (h.writeSimd hp r he) _)
  | false =>
    rw [vwrite_misfit he, vwrite_misfit he]
    exact .illegalCommand h cmd

/-! ### Two runs of the same step -/

/-- Every command answers the same in both states. -/
theorem exec_agree (h : s.sameWritten t) (hp : s.poison = true) (i : Instr) : Agree (exec i s) (exec i t) := by
  cases exec_meaning i with
  | alloc hint size _ he => rw [he, he]; exact .prologue h (.allocate h hint size)
  | load addr n answer he => rw [he, he]; exact .prologue h (.load h addr n answer)
  | store addr bs _ he => rw [he, he]; exact .prologue h (.store h addr bs)
  | identity answer he => rw [he, he, h.cfg_eq]; exact .prologue h (.succeed h _)
  | gprRead w hw r he => rw [he, he]; exact .gprRead h hp hw _ r
  | gprWrite w hw r value _ he => rw [he, he]; exact .prologue h (.succeed (h.writeGpr hp hw r _) _)
  | ripRead he => rw [he, he]; exact .ripRead h hp _
  | ripWrite value _ he => rw [he, he]; exact .prologue h (.succeed (h.writeRip value) _)
  | rflagsRead answer he =>
    rw [he, he]
    exact .rflagsChecked h hp _ fun hf => hf ▸ .succeed h _
  | rflagsWrite value _ he => rw [he, he]; exact .prologue h (.succeed (h.writeRflags value) _)
  | rflagsUpdate f _ he =>
    rw [he, he]
    exact .rflagsChecked h hp _ fun hf => hf ▸ .succeed (h.withRflags _) _
  | vread vw ty r he => rw [he, he]; exact .vread h hp _ r
  | vwrite vw ty r es _ he => rw [he, he]; exact .vwrite h hp _ r es

theorem performRequest_agree (h : s.sameWritten t) (hp : s.poison = true) (q : Request) :
    Agree (performRequest q s) (performRequest q t) := by
  unfold performRequest
  split
  · exact .illegalCommand h _
  · exact exec_agree h hp _

/-- A reset reads nothing of the block. -/
theorem performReset_eq_of_sameWritten (h : s.sameWritten t) (cfg : Config) : performReset cfg s = performReset cfg t := by
  rw [performReset, h.inputs_eq, h.responses_eq, performReset]

end

/-- Settles O51: both states have the same act next; a request agrees by `performRequest_agree`, and a reset constructs the same
block. -/
theorem unwrittenBytesNeverShow : Obligations.UnwrittenBytesNeverShow := by
  unfold Obligations.UnwrittenBytesNeverShow
  intro s t s' t' hpoison h hs ht
  have hp : s.poison = true := by rw [State.poison, hpoison]; rfl
  cases hin : s.inputs with
  | nil => rw [step_idle hin] at hs; cases hs
  | cons act rest =>
    have hin' : t.inputs = act :: rest := h.inputs_eq ▸ hin
    have hnext := h.withInputs rest
    cases act with
    | command q =>
      rw [step_command hin] at hs
      rw [step_command hin'] at ht
      have hagree := performRequest_agree hnext hp q
      rw [hs, ht] at hagree
      cases hagree with
      | next h' => exact h'
    | reset cfg =>
      rw [step_reset hin, performReset_eq_of_sameWritten hnext] at hs
      rw [step_reset hin'] at ht
      cases hs.symm.trans ht
      exact .refl _

end Sys2Proof.Machine
end

section
/-! Proofs of the statements of 20_memory.md about stores: the bytes they leave as they were, reading back what they wrote, and the
containment failure that is never raised (R57, R58, R60, R66, R115, R116). -/

namespace Sys2Proof.Machine

/-! ### What a load and a store answer -/

/-- A load whose access passes the checks answers the bytes of the segment the access uses (R56). -/
theorem load_of_access {s : State} {addr : Word64} {n : Nat} {S : Segment} (answer : List Byte → Result) (hc : s.fatal = .clear)
    (h : accessSegment s addr n = .ok S) :
    s.prologue (load addr n answer s) = .next (s.respond (Response.okWith (answer (S.slice addr.toNat n)))) := by
  rw [State.prologue_clear hc, load, memRead_ok.2 ⟨S, h, rfl⟩]
  rfl

@[simp] theorem Response.failure_st (st : Status) (p0 p1 : Word64) : (Response.failure st p0 p1).st = st := rfl

@[simp] theorem Response.fatal_st (sub : FatalSub) : (Response.fatal sub).st = .fatal := rfl

/-- Every failure of an access answers a status other than `OK` and leaves the table as it was (R51, R88). -/
theorem accessError_response {s t : State} {addr : Word64} {n : Nat} {f : Failure} (hf : accessSegment s addr n = .error f)
    (h : s.fail f = .next t) : t.segs = s.segs ∧ ∃ r : Response, r.st ≠ .ok ∧ t.responses = s.responses ++ [r] := by
  rcases accessSegment_error hf with ⟨-, rfl⟩ | ⟨-, -, rfl⟩ | ⟨-, -, -, rfl⟩ | ⟨-, -, -, -, -, rfl⟩ <;>
    rw [← Host.Outcome.next.inj h] <;> exact ⟨rfl, _, by simp, rfl⟩

/-- All `WRB` and `WRBS` can answer: a status other than `OK`, with the table as it was; or `OK`, with the write in the segment the
access uses (R57, R216). -/
theorem store_cases {s t : State} {addr : Word64} {bs : List Byte} (h : s.prologue (store addr bs s) = .next t) :
    (t.segs = s.segs ∧ ∃ r : Response, r.st ≠ .ok ∧ t.responses = s.responses ++ [r]) ∨
    (s.fatal = .clear ∧ ∃ S, accessSegment s addr bs.length = .ok S ∧
      t = { s with segs := writeSegments addr.toNat bs s.segs }.respond (Response.okWith .none)) := by
  rcases State.prologue_cases h with ⟨sub, -, rfl⟩ | ⟨hc, hrun⟩
  · exact .inl ⟨rfl, _, by simp, rfl⟩
  · unfold store at hrun
    split at hrun
    next f hf => exact .inl (accessError_response (memWrite_error.1 hf) hrun)
    next u hu =>
      obtain ⟨S, hacc, rfl⟩ := memWrite_ok.1 hu
      exact .inr ⟨hc, S, hacc, succeed_next hrun⟩

/-! ### The bytes a store leaves as they were -/

/-- A write keeps the byte of every address outside its range, in the written segment and in every other (R57). -/
theorem byteAt_writeSegments_outside {m : Memory} (hm : Memory.wf m = true) {a k : Nat} {bs : List Byte}
    (hk : ¬ (a ≤ k ∧ k < a + bs.length)) : Memory.byteAt (writeSegments a bs m) k = Memory.byteAt m k := by
  rcases lookup_writeSegments m a bs k with hsame | ⟨S, -, hbefore, hafter⟩
  · rw [Memory.byteAt, hsame, Memory.byteAt]
  · obtain ⟨-, -, -, -, hsorted, -⟩ := Segment.wf_iff.1 ((Memory.wf_iff.1 hm).2 S (lookup_mem hbefore))
    rw [Memory.byteAt, Memory.byteAt, hbefore, hafter, Option.map_some, Option.map_some, Segment.byte_write hsorted, if_neg hk]

/-- A store, whatever it answers, keeps the byte of every address outside its range. -/
theorem store_byteAt_outside {s t : State} {addr : Word64} {bs : List Byte} (hm : Memory.wf s.segs = true)
    (h : s.prologue (store addr bs s) = .next t) {k : Nat} (hk : ¬ (addr.toNat ≤ k ∧ k < addr.toNat + bs.length)) :
    Memory.byteAt t.segs k = Memory.byteAt s.segs k := by
  rcases store_cases h with ⟨hsegs, -⟩ | ⟨-, S, -, rfl⟩
  · rw [hsegs]
  · exact byteAt_writeSegments_outside hm hk

/-- Settles O21: both commands are stores, `WRB` of one byte. -/
theorem storesTouchOnlyTheirBytes : Obligations.StoresTouchOnlyTheirBytes := by
  unfold Obligations.StoresTouchOnlyTheirBytes
  intro s t a v d hm
  refine ⟨fun h k hk => ?_, fun h k hk => store_byteAt_outside (addr := a) (bs := d) hm h hk⟩
  exact store_byteAt_outside (addr := a) (bs := [v.setWidth 8]) hm h (by simp; omega)

/-! ### Reading back a store -/

/-- An access above another in the same segment uses that segment, also after a write at the lower address: a segment before it
starts below the lower address and does not contain it, so it ends there or before (R55). -/
theorem lookup_writeSegments_above {m : Memory} (hm : Memory.wf m = true) {a b : Nat} {S : Segment} (hl : lookup m a = some S)
    (hab : a ≤ b) (hb : b < S.stop) (bs : List Byte) : lookup (writeSegments a bs m) b = some (S.write a bs) := by
  obtain ⟨hS, pre, post, rfl, hpre⟩ := lookup_eq_some.1 hl
  obtain ⟨hstart, -⟩ := Segment.contains_iff.1 hS
  rw [writeSegments_eq rfl hpre hS]
  refine lookup_eq_some.2 ⟨Segment.contains_iff.2 ⟨hstart.trans hab, hb⟩, pre, post, rfl, fun T hT => ?_⟩
  have hTS : T.start < S.start := (List.pairwise_append.1 (Memory.wf_iff.1 hm).1).2.2 T hT S List.mem_cons_self
  have hTa := hpre T hT
  rw [← Bool.not_eq_true, Segment.contains_iff] at hTa ⊢
  omega

/-- Inside the range of a write, the bytes of the segment are those of the sequence (R60). -/
theorem Segment.slice_write {S : Segment} (hS : S.wf = true) (a : Nat) {d : List Byte} {k n : Nat} (hn : k + n ≤ d.length) :
    (S.write a d).slice (a + k) n = (d.drop k).take n := by
  obtain ⟨-, -, -, -, hsorted, -⟩ := Segment.wf_iff.1 hS
  refine List.ext_getElem (by simp; omega) fun j hj _ => ?_
  have hjn : j < n := by simpa using hj
  have hoff : a + k + j - a = k + j := by omega
  rw [← getElem!_pos _ j hj, Segment.slice_get _ _ hjn, Segment.byte_write hsorted, if_pos (by omega), hoff,
    getElem!_pos d (k + j) (by omega), List.getElem_take, List.getElem_drop]

/-- After a store that answered `OK`, a load of a part of its range answers that part of the sequence (R60, R66). A part that is not
empty starts inside the segment, so the lookup at its address gives the segment written. -/
theorem load_of_store {s t : State} {a b : Word64} {d : List Byte} {k n : Nat} (answer : List Byte → Result)
    (hm : Memory.wf s.segs = true) (h : s.prologue (store a d s) = .next t)
    (hok : t.responses = s.responses ++ [Response.okWith .none]) (hb : b.toNat = a.toNat + k) (halign : s.aligned b)
    (hin : s.inside b) (hpos : 0 < n) (hn : k + n ≤ d.length) :
    t.prologue (load b n answer t) = .next (t.respond (Response.okWith (answer ((d.drop k).take n)))) := by
  rcases store_cases h with ⟨-, r, hr, hresp⟩ | ⟨hc, S, hacc, ht⟩
  · have hreq : r = Response.okWith .none := by simpa [hresp] using hok
    exact absurd (congrArg Response.st hreq) hr
  · obtain ⟨-, -, hl, hend⟩ := accessSegment_ok.1 hacc
    have hSwf := (Memory.wf_iff.1 hm).2 S (lookup_mem hl)
    have hlookup := lookup_writeSegments_above hm hl (b := b.toNat) (by omega) (by omega) d
    have hstop : b.toNat + n ≤ (S.write a.toNat d).stop := by
      show b.toNat + n ≤ S.stop
      omega
    have hclear : t.fatal = .clear := ht ▸ hc
    have haccess : accessSegment t b n = .ok (S.write a.toNat d) := by
      rw [ht]
      exact accessSegment_ok.2 ⟨halign, Config.inWindow_iff.2 hin, hlookup, hstop⟩
    rw [load_of_access answer hclear haccess, hb, Segment.slice_write hSwf _ hn]

/-- Settles O22: `RDBS` loads `n` bytes and `RDB` one, which is the head of the part it loads. -/
theorem readAfterWriteReturnsTheSlice : Obligations.ReadAfterWriteReturnsTheSlice := by
  unfold Obligations.ReadAfterWriteReturnsTheSlice
  intro s t a b n d k hm h hok hb halign hin
  refine ⟨fun hpos hn => load_of_store .bytes hm h hok hb halign hin hpos hn, fun hk => ?_⟩
  have hbyte : d.getD k 0 = ((d.drop k).take 1).headD 0 := by
    rw [List.drop_eq_getElem_cons hk, List.getD_eq_getElem d 0 hk, List.take_succ_cons, List.headD_cons]
  rw [hbyte]
  exact load_of_store (fun bs => .word 8 (bs.headD 0)) hm h hok hb halign hin Nat.one_pos hk

/-! ### The containment failure -/

/-- Settles O23, by what a command can answer. -/
theorem containmentIsNeverRaised : Obligations.ContainmentIsNeverRaised := by
  unfold Obligations.ContainmentIsNeverRaised
  intro i s t hc hexec
  exact (exec_answers hexec).fatal_ne_containment (hc ▸ nofun)

end Sys2Proof.Machine
end

section
/-! Proofs of the statements of 30_encoding.md: the illegal words, the byte images of elements, and the encoding examples (R86, R87,
R90, R95). -/

namespace Sys2Proof

/-! ### The fields of a word as bit ranges (R81 to R84) -/

theorem extractLsb'_opc (w : CmdWord) : (w.extractLsb' 24 8).toNat = opcField w := by
  have hw := w.isLt
  simp only [BitVec.extractLsb'_toNat, Nat.shiftRight_eq_div_pow, opcField]
  omega

/-- A bit range is zero when the number it reads is. -/
theorem extractLsb'_eq_zero_iff (w : CmdWord) (k n : Nat) : w.extractLsb' k n = 0 ↔ w.toNat / 2 ^ k % 2 ^ n = 0 := by
  rw [← BitVec.toNat_inj, BitVec.extractLsb'_toNat, Nat.shiftRight_eq_div_pow]
  simp

theorem extractLsb'_low (w : CmdWord) : w.extractLsb' 0 24 = 0 ↔ lowField w = 0 := by
  rw [extractLsb'_eq_zero_iff, lowField]
  omega

theorem extractLsb'_reservedG (w : CmdWord) : w.extractLsb' 4 20 = 0 ↔ reservedG w = 0 := by
  rw [extractLsb'_eq_zero_iff, reservedG, lowField]
  omega

theorem extractLsb'_reservedV (w : CmdWord) : w.extractLsb' 10 14 = 0 ↔ reservedV w = 0 := by
  rw [extractLsb'_eq_zero_iff, reservedV, lowField]
  omega

theorem extractLsb'_view (w : CmdWord) : (w.extractLsb' 4 2).toNat = viewField w := by
  simp only [BitVec.extractLsb'_toNat, Nat.shiftRight_eq_div_pow, viewField, lowField]
  omega

theorem extractLsb'_elemType (w : CmdWord) : (w.extractLsb' 6 4).toNat = elemTypeField w := by
  simp only [BitVec.extractLsb'_toNat, Nat.shiftRight_eq_div_pow, elemTypeField, lowField]
  omega

theorem viewField_lt (w : CmdWord) : viewField w < 4 := Nat.mod_lt _ (by decide)

/-! ### What each format rejects (R87) -/

theorem viewOfCode_eq_none_iff : {n : Nat} → (viewOfCode n = none ↔ 3 ≤ n)
  | 0 | 1 | 2 => by decide
  | _ + 3 => iff_of_true rfl (Nat.le_add_left _ _)

theorem elemTypeOfCode_eq_none_iff : {n : Nat} → (elemTypeOfCode n = none ↔ 10 ≤ n)
  | 0 | 1 | 2 | 3 | 4 | 5 | 6 | 7 | 8 | 9 => by decide
  | _ + 10 => iff_of_true rfl (Nat.le_add_left _ _)

theorem decodeN_ok {w : CmdWord} (h : lowField w = 0) (i : Instr) : decodeN w i = .ok i := if_pos h

theorem decodeN_reservedBit {w : CmdWord} (h : lowField w ≠ 0) (i : Instr) : decodeN w i = .error .reservedBit := if_neg h

theorem decodeG_ok {w : CmdWord} (h : reservedG w = 0) (f : RegIndex → Instr) : decodeG w f = .ok (f (regField w)) := if_pos h

theorem decodeG_reservedBit {w : CmdWord} (h : reservedG w ≠ 0) (f : RegIndex → Instr) : decodeG w f = .error .reservedBit :=
  if_neg h

section FormatV

variable {w : CmdWord} (f : View → ElemType → RegIndex → Instr)

theorem decodeV_reservedBit (h : reservedV w ≠ 0) : decodeV w f = .error .reservedBit := if_neg h

theorem decodeV_reservedView (h : reservedV w = 0) (hv : viewField w = 3) : decodeV w f = .error .reservedView := by
  rw [decodeV, if_pos h, hv]
  rfl

/-- Past the reserved bits and the view code, the type code decides (R87). -/
theorem decodeV_of_view (h : reservedV w = 0) (hv : viewField w ≠ 3) :
    (10 ≤ elemTypeField w → decodeV w f = .error .reservedElemType) ∧
    (elemTypeField w < 10 → ∃ vw t, decodeV w f = .ok (f vw t (regField w))) := by
  have hlt := viewField_lt w
  obtain ⟨vw, hvw⟩ := Option.ne_none_iff_exists'.1 (mt viewOfCode_eq_none_iff.1 (by omega : ¬ 3 ≤ viewField w))
  refine ⟨fun ht => ?_, fun ht => ?_⟩
  · simp only [decodeV, if_pos h, hvw, elemTypeOfCode_eq_none_iff.2 ht]
  · obtain ⟨t, ht⟩ := Option.ne_none_iff_exists'.1 (mt elemTypeOfCode_eq_none_iff.1 (by omega : ¬ 10 ≤ elemTypeField w))
    exact ⟨vw, t, by simp only [decodeV, if_pos h, hvw, ht]⟩

/-- A format V word that breaks a clause of R87 is rejected, by the first clause it breaks. -/
theorem decodeV_error (h : reservedV w ≠ 0 ∨ viewField w = 3 ∨ 10 ≤ elemTypeField w) : ∃ e, decodeV w f = .error e := by
  by_cases hbits : reservedV w = 0
  case neg => exact ⟨_, decodeV_reservedBit f hbits⟩
  by_cases hview : viewField w = 3
  case pos => exact ⟨_, decodeV_reservedView f hbits hview⟩
  have htype : 10 ≤ elemTypeField w := by omega
  exact ⟨_, (decodeV_of_view f hbits hview).1 htype⟩

end FormatV

/-! ### The opcode map by format (R86) -/

/-- The opcodes of format N. -/
def opcodesN : List Nat := [0x01, 0x02, 0x03, 0x04, 0x05, 0x06, 0x07, 0x08, 0x18, 0x19, 0x1A, 0x1B, 0x1C, 0x1D, 0x1E]

/-- The opcodes of format G. -/
def opcodesG : List Nat := [0x10, 0x11, 0x12, 0x13, 0x14, 0x15, 0x16, 0x17]

/-- The opcodes of format V. -/
def opcodesV : List Nat := [0x20, 0x21]

theorem decode_formatN {q : Request} (h : opcField q.cmd ∈ opcodesN) : ∃ i, decode q = decodeN q.cmd i := by
  simp only [opcodesN, List.mem_cons, List.not_mem_nil, or_false] at h
  rcases h with h | h | h | h | h | h | h | h | h | h | h | h | h | h | h
  · exact ⟨_, decode_alloc h⟩
  · exact ⟨_, decode_rdb h⟩
  · exact ⟨_, decode_rdbs h⟩
  · exact ⟨_, decode_wrb h⟩
  · exact ⟨_, decode_wrbs h⟩
  · exact ⟨_, decode_dname h⟩
  · exact ⟨_, decode_dstart h⟩
  · exact ⟨_, decode_dend h⟩
  · exact ⟨_, decode_riprd h⟩
  · exact ⟨_, decode_ripwr h⟩
  · exact ⟨_, decode_flrd h⟩
  · exact ⟨_, decode_flwr h⟩
  · exact ⟨_, decode_flset h⟩
  · exact ⟨_, decode_flclr h⟩
  · exact ⟨_, decode_fltst h⟩

theorem decode_formatG {q : Request} (h : opcField q.cmd ∈ opcodesG) : ∃ f, decode q = decodeG q.cmd f := by
  simp only [opcodesG, List.mem_cons, List.not_mem_nil, or_false] at h
  rcases h with h | h | h | h | h | h | h | h
  · exact ⟨_, decode_grd8 h⟩
  · exact ⟨_, decode_grd16 h⟩
  · exact ⟨_, decode_grd32 h⟩
  · exact ⟨_, decode_grd64 h⟩
  · exact ⟨_, decode_gwr8 h⟩
  · exact ⟨_, decode_gwr16 h⟩
  · exact ⟨_, decode_gwr32 h⟩
  · exact ⟨_, decode_gwr64 h⟩

theorem decode_formatV {q : Request} (h : opcField q.cmd ∈ opcodesV) : ∃ f, decode q = decodeV q.cmd f := by
  simp only [opcodesV, List.mem_cons, List.not_mem_nil, or_false] at h
  rcases h with h | h
  · exact ⟨_, decode_vrd h⟩
  · exact ⟨_, decode_vwr h⟩

/-- The three lists are the whole map: every other opcode is reserved. -/
theorem decode_unmapped {q : Request} (hN : opcField q.cmd ∉ opcodesN) (hG : opcField q.cmd ∉ opcodesG)
    (hV : opcField q.cmd ∉ opcodesV) : decode q = .error .reservedOpcode := by
  unfold decode
  split
  case h_26 => rfl
  all_goals simp_all [opcodesN, opcodesG, opcodesV]

/-! ### The illegal words (R87) -/

/-- R87 (a) to (d), on the fields of the word. -/
def IllegalWord (w : CmdWord) : Prop :=
  (opcField w ∉ opcodesN ∧ opcField w ∉ opcodesG ∧ opcField w ∉ opcodesV) ∨
  (opcField w ∈ opcodesN ∧ lowField w ≠ 0) ∨
  (opcField w ∈ opcodesG ∧ reservedG w ≠ 0) ∨
  (opcField w ∈ opcodesV ∧ reservedV w ≠ 0) ∨
  (opcField w ∈ opcodesV ∧ viewField w = 3) ∨
  (opcField w ∈ opcodesV ∧ 10 ≤ elemTypeField w)

theorem IllegalWord.decode_error {q : Request} (h : IllegalWord q.cmd) : ∃ e, decode q = .error e := by
  rcases h with ⟨hN, hG, hV⟩ | ⟨hN, hbits⟩ | ⟨hG, hbits⟩ | ⟨hV, hbits⟩ | ⟨hV, hview⟩ | ⟨hV, htype⟩
  · exact ⟨_, decode_unmapped hN hG hV⟩
  · obtain ⟨i, hdec⟩ := decode_formatN hN
    exact ⟨_, hdec.trans (decodeN_reservedBit hbits i)⟩
  · obtain ⟨f, hdec⟩ := decode_formatG hG
    exact ⟨_, hdec.trans (decodeG_reservedBit hbits f)⟩
  all_goals
    obtain ⟨f, hdec⟩ := decode_formatV hV
    rw [hdec]
  · exact decodeV_error f (.inl hbits)
  · exact decodeV_error f (.inr (.inl hview))
  · exact decodeV_error f (.inr (.inr htype))

theorem decode_ok_of_legal {q : Request} (h : ¬ IllegalWord q.cmd) : ∃ i, decode q = .ok i := by
  simp only [IllegalWord, not_or, not_and, not_not, not_le] at h
  obtain ⟨hmap, hbitsN, hbitsG, hbitsV, hview, htype⟩ := h
  by_cases hN : opcField q.cmd ∈ opcodesN
  case pos =>
    obtain ⟨i, hdec⟩ := decode_formatN hN
    exact ⟨_, hdec.trans (decodeN_ok (hbitsN hN) i)⟩
  by_cases hG : opcField q.cmd ∈ opcodesG
  case pos =>
    obtain ⟨f, hdec⟩ := decode_formatG hG
    exact ⟨_, hdec.trans (decodeG_ok (hbitsG hG) f)⟩
  have hV := hmap hN hG
  obtain ⟨f, hdec⟩ := decode_formatV hV
  obtain ⟨vw, t, hok⟩ := (decodeV_of_view f (hbitsV hV) (hview hV)).2 (htype hV)
  exact ⟨_, hdec.trans hok⟩

end Sys2Proof

namespace Sys2Proof.Machine

/-- With `FATAL` clear, a request the decoder rejects answers `ILLEGAL_COMMAND` and nothing else (R87). -/
theorem step_decode_error {s : State} {q : Request} {rest : List Input} {e : DecodeError} (hin : s.inputs = .command q :: rest)
    (hc : s.fatal = .clear) (hdec : decode q = .error e) :
    step s = .next ({ s with inputs := rest }.respond ⟨.illegalCommand, cmdPayload q.cmd, 0, .none⟩) := by
  simp only [step_command hin, performRequest, hdec]
  exact illegalCommand_clear (s := { s with inputs := rest }) hc q.cmd

/-- Settles O3: its bit ranges are the fields of `IllegalWord`. -/
theorem illegalWordsExactly : Obligations.IllegalWordsExactly := by
  unfold Obligations.IllegalWordsExactly
  intro s q rest hin hc
  simp only [ne_eq, extractLsb'_opc, extractLsb'_low, extractLsb'_reservedG, extractLsb'_reservedV, extractLsb'_view,
    extractLsb'_elemType]
  refine ⟨fun hill => ?_, fun hleg => decode_ok_of_legal hleg⟩
  obtain ⟨e, hdec⟩ := IllegalWord.decode_error hill
  exact step_decode_error hin hc hdec

end Sys2Proof.Machine

namespace Sys2Proof

/-! ### Byte images (R90) -/

theorem elemsOfImage_succ (t : ElemType) (n : Nat) (bs : List Byte) :
    elemsOfImage t (n + 1) bs = elemDecode t (bs.take t.width) :: elemsOfImage t n (bs.drop t.width) := by
  simp [elemsOfImage, List.range_succ_eq_map, List.drop_drop, Nat.succ_mul, Nat.add_comm]

/-- The bytes of `n` elements decode to elements of the domain, and their image is the bytes. -/
theorem elemsOfImage_spec {t : ElemType} {n : Nat} {bs : List Byte} (h : bs.length = n * t.width) :
    (∀ e ∈ elemsOfImage t n bs, t.inDomain e = true) ∧ elemsImage t (elemsOfImage t n bs) = bs := by
  induction n generalizing bs with
  | zero =>
    have hnil : bs = [] := by simpa using h
    subst hnil
    exact ⟨nofun, rfl⟩
  | succ n ih =>
    rw [Nat.succ_mul] at h
    have hhead : (bs.take t.width).length = t.width := by rw [List.length_take]; omega
    have htail : (bs.drop t.width).length = n * t.width := by rw [List.length_drop]; omega
    obtain ⟨hdom, himage⟩ := ih htail
    rw [elemsOfImage_succ]
    refine ⟨List.forall_mem_cons.2 ⟨elemDecode_inDomain hhead, hdom⟩, ?_⟩
    rw [elemsImage_cons, elemEncode_elemDecode hhead, himage, List.take_append_drop]

/-- Settles O50: `VB` bytes are the bytes of `n` elements. -/
theorem byteImagesAlwaysFit : Obligations.ByteImagesAlwaysFit := by
  unfold Obligations.ByteImagesAlwaysFit
  intro vw ty bs h
  obtain ⟨hdom, himage⟩ := elemsOfImage_spec (h.trans (elemCount_mul_width vw ty).symm)
  exact ⟨elementsFit_iff.2 ⟨elemsOfImage_length _ _ _, hdom⟩, himage⟩

end Sys2Proof

namespace Sys2Proof.Machine

/-! ### The encoding examples (R95) -/

theorem assemble_alloc_example : Asm.assemble "alloc 0, 1024" = .request ⟨0x01000000, 0, 1024, [], []⟩ := by decide

theorem assemble_grd_examples :
    Asm.assemble "grd.32 r0" = .request ⟨0x12000000, 0, 0, [], []⟩ ∧
    Asm.assemble "rd eax" = .request ⟨0x12000000, 0, 0, [], []⟩ := by decide

theorem assemble_gwr_examples :
    Asm.assemble "gwr.64 r0, 0x1234567890abcdef" = .request ⟨0x17000000, 0x1234567890abcdef, 0, [], []⟩ ∧
    Asm.assemble "wr rax, 0x1234567890abcdef" = .request ⟨0x17000000, 0x1234567890abcdef, 0, [], []⟩ ∧
    Asm.assemble "gwr.8 r15, 7" = .request ⟨0x1400000F, 7, 0, [], []⟩ ∧
    Asm.assemble "wr r15b, 7" = .request ⟨0x1400000F, 7, 0, [], []⟩ := by decide

theorem assemble_vrd_examples :
    Asm.assemble "vrd.xmm.i8x16 v0" = .request ⟨0x20000000, 0, 0, [], []⟩ ∧
    Asm.assemble "vrd.ymm.u16x16 v5" = .request ⟨0x200000D5, 0, 0, [], []⟩ := by decide

theorem assemble_vwr_example :
    Asm.assemble "vwr.zmm.f64x8 v3, [0x1, 0x2, 0x3, 0x4, 0x5, 0x6, 0x7, 0x8]" =
      .request ⟨0x21000263, 0, 0, [], [1, 2, 3, 4, 5, 6, 7, 8]⟩ := by decide

/-- Settles O4: each line is assembled; each legal word is the word of its fields in its format, and each illegal one breaks its
clause of R87. -/
theorem encodingExamplesDecode : Obligations.EncodingExamplesDecode := by
  unfold Obligations.EncodingExamplesDecode
  obtain ⟨hgrd, hrd⟩ := assemble_grd_examples
  obtain ⟨hgwr, hwr, hgwr8, hwr8⟩ := assemble_gwr_examples
  obtain ⟨hvrd, hvrdYmm⟩ := assemble_vrd_examples
  refine ⟨assemble_alloc_example, hgrd, hrd, hgwr, hwr, hgwr8, hwr8, hvrd, hvrdYmm, assemble_vwr_example,
    ?alloc, ?grd32, ?gwr64, ?gwr8, ?vrdXmm, ?vrdYmm, fun es => ?vwr, ?opcode, ?bit, ?view, ?elemType⟩
  case alloc => exact (decode_alloc rfl).trans (decodeN_wordN 0x01 _)
  case grd32 => exact (decode_grd32 rfl).trans (decodeG_wordG 0x12 0 _)
  case gwr64 => exact (decode_gwr64 rfl).trans (decodeG_wordG 0x17 0 _)
  case gwr8 => exact (decode_gwr8 rfl).trans (decodeG_wordG 0x14 15 _)
  case vrdXmm => exact (decode_vrd rfl).trans (decodeV_wordV 0x20 .i8 .xmm 0 _)
  case vrdYmm => exact (decode_vrd rfl).trans (decodeV_wordV 0x20 .u16 .ymm 5 _)
  case vwr =>
    have hopc : opcField 0x21000263 = 0x21 := rfl
    exact (decode_vwr hopc).trans (decodeV_wordV 0x21 .f64 .zmm 3 _)
  case opcode => exact decode_unmapped (by decide) (by decide) (by decide)
  case bit => exact (decode_grd32 rfl).trans (decodeG_reservedBit (by decide) _)
  case view => exact (decode_vrd rfl).trans (decodeV_reservedView _ rfl rfl)
  case elemType => exact (decode_vrd rfl).trans ((decodeV_of_view _ rfl (by decide)).1 (by decide))

end Sys2Proof.Machine
end

section
/-! Proofs of the statements of 40_dram.md about byte access and device identity: what `RDB`, `RDBS`, `WRB`, `WRBS`, `DNAME`,
`DSTART` and `DEND` answer (R51 to R58, R113 to R119). The checks are the same for the four accesses; `access_rejects` says once
what each failed check answers. -/

namespace Sys2Proof.Machine

/-! ### The command words (R82, R86) -/

/-- A word of format N decodes by its row of the opcode map, whatever the operands (R89). -/
theorem decode_of_row {q : Request} {i : Instr} (opc : Nat) (hrow : opcField q.cmd = opc → decode q = decodeN q.cmd i)
    (hopc : opc < 256 := by decide) (hq : q.cmd = wordN opc := by rfl) : decode q = .ok i := by
  have hfield : opcField q.cmd = opc := hq ▸ opcField_wordN hopc
  rw [hrow hfield, hq, decodeN_wordN]

/-! ### Addresses in the words of the statements -/

theorem Segment.contains_eq_false_iff {S : Segment} {a : Nat} : S.contains a = false ↔ ¬ S.covers a := by
  rw [← Bool.not_eq_true, Segment.contains_iff, Segment.covers]

theorem State.inWindow_eq_false {s : State} {a : Word64} (h : ¬ s.inside a) : s.cfg.inWindow a.toNat = false := by
  rw [← Bool.not_eq_true, Config.inWindow_iff]
  exact h

theorem State.unmapped.lookup_eq {s : State} {a : Nat} (h : s.unmapped a) : lookup s.segs a = none :=
  lookup_eq_none.2 fun S hS => Segment.contains_eq_false_iff.2 (h S hS)

theorem State.mapsAt.lookup_eq {s : State} {pre post : Memory} {S : Segment} {a : Nat} (h : s.mapsAt pre S post a) :
    lookup s.segs a = some S := by
  obtain ⟨hsegs, hpre, hS⟩ := h
  exact lookup_eq_some.2 ⟨Segment.contains_iff.2 hS, pre, post, hsegs, fun T hT => Segment.contains_eq_false_iff.2 (hpre T hT)⟩

/-- A write at a mapped address replaces the segment the address maps to, in its place (R57). -/
theorem State.mapsAt.writeSegments_eq {s : State} {pre post : Memory} {S : Segment} {a : Nat} (h : s.mapsAt pre S post a)
    (bs : List Byte) : writeSegments a bs s.segs = pre ++ S.write a bs :: post := by
  obtain ⟨hsegs, hpre, hS⟩ := h
  exact Machine.writeSegments_eq hsegs (fun T hT => Segment.contains_eq_false_iff.2 (hpre T hT)) (Segment.contains_iff.2 hS)

theorem State.mapsAt.wf {s : State} {pre post : Memory} {S : Segment} {a : Nat} (h : s.mapsAt pre S post a)
    (hm : Memory.wf s.segs = true) : S.wf = true :=
  (Memory.wf_iff.1 hm).2 S (lookup_mem h.lookup_eq)

theorem sizePayload_eq (s : State) {n : Nat} (h : n < 2 ^ 64) : sizePayload s n = BitVec.ofNat 64 n := if_pos h

/-! ### What an access answers -/

theorem load_of_error {s : State} {addr : Word64} {n : Nat} {f : Failure} (answer : List Byte → Result) (hc : s.fatal = .clear)
    (h : accessSegment s addr n = .error f) : s.prologue (load addr n answer s) = s.fail f := by
  rw [State.prologue_clear hc, load, memRead_error.2 h]

theorem store_of_error {s : State} {addr : Word64} {bs : List Byte} {f : Failure} (hc : s.fatal = .clear)
    (h : accessSegment s addr bs.length = .error f) : s.prologue (store addr bs s) = s.fail f := by
  rw [State.prologue_clear hc, store, memWrite_error.2 h]

/-- A store whose access passes the checks answers `OK` and writes the table (R57). -/
theorem store_of_access {s : State} {addr : Word64} {bs : List Byte} {S : Segment} (hc : s.fatal = .clear)
    (h : accessSegment s addr bs.length = .ok S) :
    s.prologue (store addr bs s) =
      .next ({ s with segs := writeSegments addr.toNat bs s.segs }.respond (Response.okWith .none)) := by
  rw [State.prologue_clear hc, store, memWrite_ok.2 ⟨S, h, rfl⟩]
  rfl

/-- The checks of R51 in their order, for a command that fails as its access does: what each of the first three answers. -/
theorem access_rejects {s : State} {a : Word64} {n : Nat} {run : Out}
    (hrun : ∀ f, accessSegment s a n = .error f → run = s.fail f) :
    (¬ s.aligned a → run = .next (s.respond ⟨.unaligned, a, 0, .none⟩)) ∧
    (s.aligned a → ¬ s.inside a → run = .next (s.respond ⟨.outOfBounds, a, sizePayload s n, .none⟩)) ∧
    (s.aligned a → s.inside a → s.unmapped a.toNat → run = .next (s.respond ⟨.addressNotMapped, 0, 0, .none⟩)) :=
  ⟨fun hal => hrun _ (accessSegment_unaligned hal),
    fun hal hin => hrun _ (accessSegment_outside hal (State.inWindow_eq_false hin)),
    fun hal hin hmap => hrun _ (accessSegment_unmapped hal (Config.inWindow_iff.2 hin) hmap.lookup_eq)⟩

section Mapped
variable {s : State} {a : Word64} {n : Nat} {pre post : Memory} {S : Segment}

/-- The last check of R51, for a mapped address: past the end of its segment the access fails with `FATAL(SPAN)`. -/
theorem accessSegment_of_past_end (hal : s.aligned a) (hin : s.inside a) (hmap : s.mapsAt pre S post a.toNat)
    (h : S.start + S.len < a.toNat + n) : accessSegment s a n = .error (.fatal .span) :=
  accessSegment_span hal (Config.inWindow_iff.2 hin) hmap.lookup_eq h

/-- Up to the end of its segment an access to a mapped address passes the checks. -/
theorem accessSegment_of_within (hal : s.aligned a) (hin : s.inside a) (hmap : s.mapsAt pre S post a.toNat)
    (h : a.toNat + n ≤ S.start + S.len) : accessSegment s a n = .ok S :=
  accessSegment_ok.2 ⟨hal, Config.inWindow_iff.2 hin, hmap.lookup_eq, h⟩

/-- A store within the segment of its address replaces that segment by the written one (R57). -/
theorem store_within {d : List Byte} (hc : s.fatal = .clear) (hal : s.aligned a) (hin : s.inside a)
    (hmap : s.mapsAt pre S post a.toNat) (h : a.toNat + d.length ≤ S.start + S.len) :
    s.prologue (store a d s) =
      .next ({ s with segs := pre ++ S.write a.toNat d :: post }.respond (Response.okWith .none)) := by
  rw [store_of_access hc (accessSegment_of_within hal hin hmap h), hmap.writeSegments_eq]

end Mapped

/-! ### The four access commands -/

/-- A write of one byte replaces that byte of the data (R57). -/
theorem Segment.data_write_byte {S : Segment} (hS : S.wf = true) {a : Nat} (ha : S.covers a) (b : Byte) :
    (S.write a [b]).data = S.data.set (a - S.start) b := by
  obtain ⟨hstart, hend⟩ := ha
  have hin : a - S.start < S.data.length := by rw [Segment.data_length]; omega
  rw [Segment.data_write hS (d := [b]) hstart hend, List.set_eq_take_append_cons_drop, if_pos hin]
  simp

/-- Settles O17: a load of one byte. A mapped address is below the end of its segment, so one byte never passes it. -/
theorem readByteOutcome : Obligations.ReadByteOutcome := by
  unfold Obligations.ReadByteOutcome
  intro s a hc
  have hexec : exec (.rdb a) s = s.prologue (load a 1 (fun bs => .word 8 (bs.headD 0)) s) := rfl
  rw [hexec]
  obtain ⟨halign, hbounds, hunmapped⟩ := access_rejects fun f hf => load_of_error (fun bs => .word 8 (bs.headD 0)) hc hf
  rw [sizePayload_eq s (n := 1) (by decide)] at hbounds
  refine ⟨fun b d e => decode_of_row 0x02 decode_rdb, halign, hbounds, hunmapped, fun hal hin pre S post hmap => ?_⟩
  have ⟨_, _, hstart, hend⟩ := hmap
  rw [load_of_access _ hc (accessSegment_of_within hal hin hmap hend), Segment.data_getD S hstart hend]
  rfl

/-- Settles O18: a load of `n` bytes. -/
theorem readRangeOutcome : Obligations.ReadRangeOutcome := by
  unfold Obligations.ReadRangeOutcome
  intro s a n hc
  have hexec : exec (.rdbs a n) s = s.prologue (load a n.toNat .bytes s) := rfl
  rw [hexec]
  obtain ⟨halign, hbounds, hunmapped⟩ := access_rejects fun f hf => load_of_error .bytes hc hf
  rw [sizePayload_eq s n.isLt, BitVec.ofNat_toNat, BitVec.setWidth_eq] at hbounds
  refine ⟨fun d e => decode_of_row 0x03 decode_rdbs, halign, hbounds, hunmapped, fun hal hin pre S post hmap => ?_⟩
  refine ⟨fun hspan => load_of_error .bytes hc (accessSegment_of_past_end hal hin hmap hspan), fun hfit => ?_⟩
  have ⟨_, _, hstart, _⟩ := hmap
  rw [load_of_access .bytes hc (accessSegment_of_within hal hin hmap hfit), Segment.data_slice S hstart hfit]
  rfl

/-- Settles O19: a store of one byte, which never passes the end of the segment of its address. -/
theorem writeByteOutcome : Obligations.WriteByteOutcome := by
  unfold Obligations.WriteByteOutcome
  intro s a v hc hm
  have hexec : exec (.wrb a v) s = s.prologue (store a [v.setWidth 8] s) := rfl
  rw [hexec]
  obtain ⟨halign, hbounds, hunmapped⟩ := access_rejects fun f hf => store_of_error (bs := [v.setWidth 8]) hc hf
  rw [List.length_singleton, sizePayload_eq s (by decide)] at hbounds
  refine ⟨fun d e => decode_of_row 0x04 decode_wrb, halign, hbounds, hunmapped, fun hal hin pre S post hmap => ?_⟩
  have ⟨_, _, hstart, hend⟩ := hmap
  refine ⟨S.write a.toNat [v.setWidth 8], Segment.write_wf (hmap.wf hm) hstart hend, rfl, rfl, ?_,
    store_within hc hal hin hmap hend⟩
  rw [Segment.data_write_byte (hmap.wf hm) ⟨hstart, hend⟩, BitVec.setWidth_eq_extractLsb' (by decide)]

/-- Settles O20: a store of the payload. -/
theorem writeRangeOutcome : Obligations.WriteRangeOutcome := by
  unfold Obligations.WriteRangeOutcome
  intro s a d hc hm
  have hexec : exec (.wrbs a d) s = s.prologue (store a d s) := rfl
  rw [hexec]
  obtain ⟨halign, hbounds, hunmapped⟩ := access_rejects fun f hf => store_of_error (bs := d) hc hf
  refine ⟨fun b e => decode_of_row 0x05 decode_wrbs, halign, fun hal hin => ⟨_, fun hlen => ?_, hbounds hal hin⟩,
    hunmapped, fun hal hin pre S post hmap => ?_⟩
  · rw [sizePayload_eq s hlen, BitVec.toNat_ofNat, Nat.mod_eq_of_lt hlen]
  · refine ⟨fun hspan => store_of_error hc (accessSegment_of_past_end hal hin hmap hspan), fun hfit => ?_⟩
    have ⟨_, _, hstart, _⟩ := hmap
    exact ⟨S.write a.toNat d, Segment.write_wf (hmap.wf hm) hstart hfit, rfl, rfl,
      Segment.data_write (hmap.wf hm) hstart hfit, store_within hc hal hin hmap hfit⟩

/-! ### Device identity -/

/-- Settles O25: each command answers a construction value; a legal configuration's window ends below `2^64`, so the word of
`DEND` is its end (R6, R119). -/
theorem deviceIdentityIsTheConfiguration : Obligations.DeviceIdentityIsTheConfiguration := by
  unfold Obligations.DeviceIdentityIsTheConfiguration
  intro s hc
  have hdend : exec .dend s = .next (s.respond ⟨.ok, 0, 0, .word 64 (BitVec.ofNat 64 s.cfg.windowEnd)⟩) :=
    State.prologue_clear hc _
  refine ⟨fun a b d e => ⟨decode_of_row 0x06 decode_dname, decode_of_row 0x07 decode_dstart, decode_of_row 0x08 decode_dend⟩,
    State.prologue_clear hc _, State.prologue_clear hc _, fun hlegal => ⟨_, ?_, hdend⟩, _, hdend⟩
  obtain ⟨-, hend⟩ := Config.legal_iff.1 hlegal
  exact (BitVec.toNat_ofNat _ _).trans (Nat.mod_eq_of_lt hend)

end Sys2Proof.Machine
end

section
/-! Proofs of the statements of 40_dram.md about `ALLOC` (R110, R111, R120 to R124). `exec_alloc_of_allocates` turns each of the
three changes of `Allocates` into what the command answers, and `exec_alloc_cases` says that it answers nothing else but failures. -/

namespace Sys2Proof.Machine

/-! ### The cases of step 5 in the words of the statements -/

/-- A request that passes the size checks before the scan (R111). -/
structure AllocFits (s : State) (hint size : Word64) : Prop where
  size_le : size.toNat ≤ s.cfg.dramSize
  len_lt : allocSize hint size < 2 ^ 64
  end_le : allocAddr hint + allocSize hint size ≤ 2 ^ 64

theorem passes_iff {adjacent : Bool} {addr len : Nat} {S : Segment} :
    passes adjacent addr len S ↔ ¬ S.covers addr ∧ S.start + S.len ≠ addr ∧
      ¬ (addr < S.start ∧ (S.start < addr + len ∨ (adjacent = true ∧ addr + len = S.start))) := by
  rw [passes, Segment.contains_eq_false_iff, ← reachesInto_iff, Bool.not_eq_true]
  rfl

/-- A segment that starts below the address and neither contains it nor ends at it matches no case. -/
theorem passes_of_start_le {adjacent : Bool} {addr len : Nat} {S : Segment} (hS : ¬ S.covers addr)
    (hstop : S.start + S.len ≠ addr) (hstart : S.start ≤ addr) : passes adjacent addr len S :=
  passes_iff.2 ⟨hS, hstop, fun h => by omega⟩

/-- A segment no case matches shares no address with the new range. -/
theorem passes_disjoint {adjacent : Bool} {addr len : Nat} {S T : Segment} (h : passes adjacent addr len S)
    (hstart : T.start = addr) (hlen : T.len = len) (a : Nat) : ¬ (S.covers a ∧ T.covers a) := by
  rintro ⟨⟨hS, hS'⟩, hT, hT'⟩
  have hapart := passes_apart h
  simp only [Segment.stop] at hapart
  omega

/-! ### What `ALLOC` does in each case -/

section Outcomes
variable {s : State} {hint size : Word64}

theorem allocate_outOfBounds (h : s.cfg.dramSize < size.toNat) :
    allocate hint size s = s.fail (.status .outOfBounds hint size) := if_pos h

theorem allocate_overflow (hsize : size.toNat ≤ s.cfg.dramSize)
    (h : 2 ^ 64 ≤ allocSize hint size ∨ 2 ^ 64 < allocAddr hint + allocSize hint size) :
    allocate hint size s = s.fail (.fatal .overflow) :=
  (if_neg (Nat.not_lt.2 hsize)).trans (if_pos h)

/-- Past the size checks, `ALLOC` does what the scan decides (R111 step 5). -/
theorem allocate_of_fits (h : AllocFits s hint size) :
    allocate hint size s =
      match allocScan s.cfg.backwardMergeAdjacent (allocAddr hint) (allocSize hint size) [] s.segs with
      | .mapped S => s.fail (.status .addressAlreadyMapped (BitVec.ofNat 64 S.start) 0)
      | .extend pre S post => commitAlloc s (allocSize hint size) (pre ++ S.extend (allocSize hint size) :: post) S.start
      | .backward pre S post =>
        commitAlloc s (max (allocSize hint size) (S.stop - allocAddr hint) - S.len)
          (insertSegment (S.growBackward (allocAddr hint) (max (allocSize hint size) (S.stop - allocAddr hint))) (pre ++ post))
          (allocAddr hint)
      | .fresh =>
        commitAlloc s (allocSize hint size) (insertSegment (Segment.zeros (allocAddr hint) (allocSize hint size)) s.segs)
          (allocAddr hint) := by
  obtain ⟨hsize, hlen, hend⟩ := h
  exact (if_neg (Nat.not_lt.2 hsize)).trans (if_neg (not_or.2 ⟨Nat.not_le.2 hlen, Nat.not_lt.2 hend⟩))

/-- Where the first segment a case matches contains the address, `ALLOC` fails with that segment's start (R111 step 5). -/
theorem allocate_of_mapped (h : AllocFits s hint size) {pre post : Memory} {S : Segment} (hm : s.segs = pre ++ S :: post)
    (hpre : ∀ T ∈ pre, passes s.cfg.backwardMergeAdjacent (allocAddr hint) (allocSize hint size) T)
    (hS : S.covers (allocAddr hint)) :
    allocate hint size s = s.fail (.status .addressAlreadyMapped (BitVec.ofNat 64 S.start) 0) := by
  rw [allocate_of_fits h, hm, allocScan_append hpre, allocScan, if_pos (Segment.contains_iff.2 hS)]

/-- The converse of `allocate_cases` for a success: each change of `Allocates` is the one the scan decides. -/
theorem allocate_of_allocates (h : AllocFits s hint size) {g : Nat} {m : Memory} {a : Nat}
    (hA : Allocates s.cfg.backwardMergeAdjacent (allocAddr hint) (allocSize hint size) s.segs g m a) :
    allocate hint size s = commitAlloc s g m a := by
  rw [allocate_of_fits h]
  cases hA with
  | extend hm hpre hS hstop =>
    rw [hm, allocScan_append hpre, allocScan, if_neg (ne_true_of_eq_false hS), if_pos hstop]
    rfl
  | backward hm hpre hS hstop hreach =>
    rw [hm, allocScan_append hpre, allocScan, if_neg (ne_true_of_eq_false hS), if_neg hstop, if_pos hreach]
    rfl
  | fresh hall =>
    have hscan := allocScan_append hall [] []
    rw [List.append_nil] at hscan
    rw [hscan, allocScan]

/-- Past the size checks, a change of the table that backs `g` more bytes fails with `FATAL(CAPACITY)` past `BACKING_LIMIT`, and
is done otherwise (R110). -/
theorem exec_alloc_of_allocates (hc : s.fatal = .clear) (h : AllocFits s hint size) {g : Nat} {m : Memory} {a : Nat}
    (hA : Allocates s.cfg.backwardMergeAdjacent (allocAddr hint) (allocSize hint size) s.segs g m a) :
    ((∃ limit, s.cfg.backingLimit = some limit ∧ limit < (s.segs.map Segment.len).sum + g) →
      exec (.alloc hint size) s = .next ({ s with fatal := .set .capacity }.respond ⟨.fatal, 4, 0, .none⟩)) ∧
    (¬ (∃ limit, s.cfg.backingLimit = some limit ∧ limit < (s.segs.map Segment.len).sum + g) →
      exec (.alloc hint size) s = .next ({ s with segs := m }.respond ⟨.ok, 0, 0, .word 64 (BitVec.ofNat 64 a)⟩)) := by
  have hexec : exec (.alloc hint size) s = commitAlloc s g m a :=
    (State.prologue_clear hc _).trans (allocate_of_allocates h hA)
  rw [hexec, commitAlloc_eq]
  exact ⟨fun hover => if_pos (overCapacity_iff.2 hover), fun hroom => if_neg (mt overCapacity_iff.1 hroom)⟩

/-- Past the size checks, each change leaves the table in canonical form (R28). -/
theorem AllocFits.table_wf (h : AllocFits s hint size) (hm : Memory.wf s.segs = true) {g : Nat} {m : Memory} {a : Nat}
    (hA : Allocates s.cfg.backwardMergeAdjacent (allocAddr hint) (allocSize hint size) s.segs g m a) :
    ascending m ∧ ∀ T ∈ m, T.wf = true :=
  Memory.wf_iff.1 (hA.wf hm (rounddown_block_mod _) (allocLength_mod _) (blockSize_le_allocLength _) h.end_le)

/-- All `ALLOC` can answer: a status other than `OK`, with the table as it was; or `OK`, with one of the three changes. -/
theorem exec_alloc_cases {t : State} (h : exec (.alloc hint size) s = .next t) :
    (t.segs = s.segs ∧ ∃ r : Response, r.st ≠ .ok ∧ t.responses = s.responses ++ [r]) ∨
    (AllocFits s hint size ∧ ∃ g m a,
      Allocates s.cfg.backwardMergeAdjacent (allocAddr hint) (allocSize hint size) s.segs g m a ∧
      t = { s with segs := m }.respond (Response.okWith (.word 64 (BitVec.ofNat 64 a)))) := by
  rcases State.prologue_cases h with ⟨sub, -, rfl⟩ | ⟨-, hrun⟩
  · exact .inl ⟨rfl, _, by simp, rfl⟩
  rcases allocate_cases hrun with ⟨f, hf, hcase⟩ | ⟨g, m, a, hA, -, hsize, hlen, hend, rfl⟩
  · rcases hcase with ⟨-, rfl⟩ | ⟨-, -, rfl⟩ | ⟨S, -, -, rfl⟩ | ⟨-, -, -, -, -, rfl⟩ <;>
      rw [← Host.Outcome.next.inj hf] <;> exact .inl ⟨rfl, _, by simp, rfl⟩
  · exact .inr ⟨⟨hsize, hlen, hend⟩, g, m, a, hA, rfl⟩

end Outcomes

/-! ### The statements -/

/-- Settles O26: the size checks in their order, then the scan, which stops at the containing segment: a segment before it starts
below the address and neither contains it nor ends at it. -/
theorem allocRejections : Obligations.AllocRejections := by
  unfold Obligations.AllocRejections
  intro s hint size hc addr raw len
  have hexec : exec (.alloc hint size) s = allocate hint size s := State.prologue_clear hc _
  rw [hexec]
  refine ⟨fun hsize => allocate_outOfBounds hsize, fun hsize hover => allocate_overflow hsize hover,
    fun hsize hlen hend pre S post hmap hasc hstop => ?_⟩
  obtain ⟨hm, hpre, hS⟩ := hmap
  refine allocate_of_mapped ⟨hsize, hlen, hend⟩ hm (fun T hT => passes_of_start_le (hpre T hT) (hstop T hT) ?_) hS
  have hTS : T.start < S.start := (List.pairwise_append.1 (hm ▸ hasc)).2.2 T hT S List.mem_cons_self
  exact (hTS.trans_le hS.1).le

/-- Settles O27: the scan matches no segment, and what matches no case is apart from the new range. -/
theorem allocFreshSegment : Obligations.AllocFreshSegment := by
  unfold Obligations.AllocFreshSegment
  intro s hint size hc addr raw len noCase hsize hlen hend hm hall
  have hfits : AllocFits s hint size := ⟨hsize, hlen, hend⟩
  have hpass : ∀ S ∈ s.segs, passes s.cfg.backwardMergeAdjacent addr len S := fun S hS => passes_iff.2 (hall S hS)
  have hA := Allocates.fresh hpass
  obtain ⟨hcapacity, hdone⟩ := exec_alloc_of_allocates hc hfits hA
  obtain ⟨hasc, hwf⟩ := hfits.table_wf hm hA
  refine ⟨hcapacity, fun hroom => ⟨Segment.zeros addr len, _, rfl, rfl, Segment.zeros_data addr len, ?_,
    insertSegment_perm _ _, hasc, fun S hS a => passes_disjoint (hpass S hS) rfl rfl a, hdone hroom⟩⟩
  exact hwf _ (mem_insertSegment.2 (.inl rfl))

/-- Settles O28: the segment that ends at the address is the first the scan matches. -/
theorem allocExtendsAtTheEnd : Obligations.AllocExtendsAtTheEnd := by
  unfold Obligations.AllocExtendsAtTheEnd
  intro s hint size hc addr raw len noCase hsize hlen hend hm pre S post hsegs hpre hstop
  have hfits : AllocFits s hint size := ⟨hsize, hlen, hend⟩
  have hS : ¬ S.covers addr := fun h => h.2.ne hstop.symm
  have hA := Allocates.extend hsegs (fun T hT => passes_iff.2 (hpre T hT)) (Segment.contains_eq_false_iff.2 hS) hstop
  obtain ⟨hcapacity, hdone⟩ := exec_alloc_of_allocates hc hfits hA
  obtain ⟨-, hwf⟩ := hfits.table_wf hm hA
  have hSwf : S.wf = true := (Memory.wf_iff.1 hm).2 S (hsegs ▸ List.mem_append_cons_self)
  exact ⟨hcapacity, fun hroom =>
    ⟨S.extend len, rfl, Segment.extend_data hSwf len, hwf _ List.mem_append_cons_self, hdone hroom⟩⟩

/-- Settles O29: the segment the new range reaches into is the first the scan matches; it starts above the address, so it neither
contains it nor ends at it. -/
theorem allocGrowsBackward : Obligations.AllocGrowsBackward := by
  unfold Obligations.AllocGrowsBackward
  intro s hint size hc addr raw len noCase hsize hlen hend hm pre S post hsegs hpre hbelow hreach newLen
  have hfits : AllocFits s hint size := ⟨hsize, hlen, hend⟩
  have hS : ¬ S.covers addr := fun h => by have := h.1; omega
  have hstop : S.stop ≠ addr := fun h => by rw [Segment.stop] at h; omega
  have hA := Allocates.backward hsegs (fun T hT => passes_iff.2 (hpre T hT)) (Segment.contains_eq_false_iff.2 hS) hstop
    (reachesInto_iff.2 ⟨hbelow, hreach⟩)
  obtain ⟨hcapacity, hdone⟩ := exec_alloc_of_allocates hc hfits hA
  obtain ⟨hasc, hwf⟩ := hfits.table_wf hm hA
  have hSwf : S.wf = true := (Memory.wf_iff.1 hm).2 S (hsegs ▸ List.mem_append_cons_self)
  refine ⟨hcapacity, fun hroom => ⟨S.growBackward addr newLen, _, rfl, ?_,
    Segment.growBackward_data hSwf hbelow (Nat.le_max_right _ _), insertSegment_perm _ _, hasc, hdone hroom⟩⟩
  exact hwf _ (mem_insertSegment.2 (.inl rfl))

/-! ### The stored bytes (R124) -/

/-- A segment's addresses and the bytes at them are in another segment. -/
def Segment.keptIn (S T : Segment) : Prop :=
  ∀ a, S.covers a → T.covers a ∧ T.data.getD (a - T.start) 0 = S.data.getD (a - S.start) 0

theorem Segment.keptIn_refl (S : Segment) : S.keptIn S := fun _ h => ⟨h, rfl⟩

/-- Cells hold absolute addresses, so a segment that takes over the cells of one within it keeps its bytes. -/
theorem Segment.keptIn_of_cells {S T : Segment} (hcells : T.cells = S.cells) (hstart : T.start ≤ S.start)
    (hend : S.start + S.len ≤ T.start + T.len) : S.keptIn T := by
  rintro a ⟨hl, hr⟩
  have hTl : T.start ≤ a := hstart.trans hl
  have hTr : a < T.start + T.len := hr.trans_le hend
  rw [Segment.data_getD T hTl hTr, Segment.data_getD S hl hr, Segment.byte, hcells, Segment.byte]
  exact ⟨⟨hTl, hTr⟩, rfl⟩

/-- Replacing one segment by one that keeps it, wherever it is put, keeps every segment. -/
theorem exists_keptIn_of_perm {pre post m : Memory} {S T : Segment} (hp : m.Perm (T :: (pre ++ post))) (hST : S.keptIn T) :
    ∀ U ∈ pre ++ S :: post, ∃ V ∈ m, U.keptIn V := fun U hU => by
  rcases List.mem_cons.1 (List.perm_middle.mem_iff.1 hU) with rfl | hU
  · exact ⟨T, hp.mem_iff.2 List.mem_cons_self, hST⟩
  · exact ⟨U, hp.mem_iff.2 (List.mem_cons_of_mem _ hU), U.keptIn_refl⟩

/-- Each of the three changes of `ALLOC` keeps every segment's bytes. -/
theorem Allocates.keeps {adjacent : Bool} {addr len : Nat} {m : Memory} {g : Nat} {m' : Memory} {a : Nat}
    (h : Allocates adjacent addr len m g m' a) : ∀ S ∈ m, ∃ T ∈ m', S.keptIn T := by
  cases h with
  | @extend pre S post hm =>
    rw [hm]
    exact exists_keptIn_of_perm List.perm_middle
      (Segment.keptIn_of_cells rfl (Nat.le_refl _) (by simp only [Segment.extend]; omega))
  | @backward pre S post hm _ _ _ hreach =>
    have hbelow := (reachesInto_iff.1 hreach).1
    rw [hm]
    refine exists_keptIn_of_perm (insertSegment_perm _ _) (Segment.keptIn_of_cells rfl hbelow.le ?_)
    simp only [Segment.growBackward, Segment.stop]
    omega
  | fresh => exact fun S hS => ⟨S, mem_insertSegment.2 (.inr hS), S.keptIn_refl⟩

/-- Settles O16: the table stays, or changes by one of the three changes. -/
theorem allocKeepsStoredBytes : Obligations.AllocKeepsStoredBytes := by
  unfold Obligations.AllocKeepsStoredBytes
  intro hint size s t _ hexec
  show ∀ S ∈ s.segs, ∃ T ∈ t.segs, S.keptIn T
  rcases exec_alloc_cases hexec with ⟨hsegs, -⟩ | ⟨-, g, m, a, hA, rfl⟩
  · exact hsegs ▸ fun S hS => ⟨S, hS, S.keptIn_refl⟩
  · exact hA.keeps

/-! ### The answer (R120, R121) -/

/-- The address `ALLOC` answers is a multiple of the block size not above the rounded hint: the rounded hint itself, or the start
of the segment that ended there. -/
theorem Allocates.answer_block {adjacent : Bool} {addr len : Nat} {m : Memory} {g : Nat} {m' : Memory} {a : Nat}
    (h : Allocates adjacent addr len m g m' a) (hm : Memory.wf m = true) (haddr : addr % blockSize = 0) :
    a % blockSize = 0 ∧ a ≤ addr := by
  cases h with
  | @extend pre S post hsegs _ _ hstop =>
    obtain ⟨hstart, -⟩ := Segment.wf_iff.1 ((Memory.wf_iff.1 hm).2 S (hsegs ▸ List.mem_append_cons_self))
    exact ⟨hstart, hstop ▸ Nat.le_add_right _ _⟩
  | backward | fresh => exact ⟨haddr, Nat.le_refl _⟩

/-- After each of the three changes, the segment changed or inserted contains the rounded hint. -/
theorem Allocates.maps_addr {adjacent : Bool} {addr len : Nat} {m : Memory} {g : Nat} {m' : Memory} {a : Nat}
    (h : Allocates adjacent addr len m g m' a) (hlen : 0 < len) : ∃ T ∈ m', T.covers addr := by
  cases h with
  | @extend pre S post _ _ _ hstop =>
    refine ⟨S.extend len, List.mem_append_cons_self, ?_⟩
    simp only [Segment.covers, Segment.extend, Segment.stop] at hstop ⊢
    omega
  | @backward pre S post =>
    refine ⟨_, mem_insertSegment.2 (.inl rfl), ?_⟩
    simp only [Segment.covers, Segment.growBackward]
    omega
  | fresh =>
    refine ⟨_, mem_insertSegment.2 (.inl rfl), ?_⟩
    simp only [Segment.covers, Segment.zeros]
    omega

/-- Settles O30: an `OK` answer is one of the three changes, and its word is the address they answer, which is not above a 64-bit
hint. -/
theorem allocReturnsAMappedBlock : Obligations.AllocReturnsAMappedBlock := by
  unfold Obligations.AllocReturnsAMappedBlock
  intro s t hint size res hm hexec hresp
  replace hresp : t.responses = s.responses ++ [Response.okWith res] := hresp
  rcases exec_alloc_cases hexec with ⟨-, r, hr, hfail⟩ | ⟨-, g, m, a, hA, rfl⟩
  · have hreq : r = Response.okWith res := by simpa [hfail] using hresp
    exact absurd (congrArg Response.st hreq) hr
  · have hres : res = .word 64 (BitVec.ofNat 64 a) := by
      have hans : Response.okWith (.word 64 (BitVec.ofNat 64 a)) = Response.okWith res := by
        simpa using List.append_cancel_left hresp
      exact (congrArg Response.res hans).symm
    obtain ⟨hblock, hle⟩ := hA.answer_block hm (rounddown_block_mod _)
    have hhint : a ≤ hint.toNat := hle.trans (Nat.sub_le _ _)
    have hword : (BitVec.ofNat 64 a).toNat = a := by
      rw [BitVec.toNat_ofNat, Nat.mod_eq_of_lt (hhint.trans_lt hint.isLt)]
    refine ⟨⟨_, hres, by rw [hword]; exact hblock, by rw [hword]; exact hhint⟩, hA.maps_addr ?_⟩
    exact Nat.lt_of_lt_of_le (by decide) (blockSize_le_allocLength _)

end Sys2Proof.Machine
end

section
/-! Proofs of the statements of 41_gpr.md: what the commands of the general registers, `RIP` and `RFLAGS` answer and change
(R140 to R156). The statements speak of `REG_RESET` and of single validity bits; the second part puts `State.poison` and
`allValid`, which the model computes, in those words. -/

namespace Sys2Proof.Machine

/-! ### The command words (R83, R86) -/

/-- A word of format G decodes by its row of the opcode map, whatever the operands (R89). -/
theorem decode_of_register_row {q : Request} {r : RegIndex} {f : RegIndex → Instr} (opc : Nat)
    (hrow : opcField q.cmd = opc → decode q = decodeG q.cmd f) (hopc : opc < 256 := by decide)
    (hq : q.cmd = wordG opc r := by rfl) : decode q = .ok (f r) := by
  have hfield : opcField q.cmd = opc := hq ▸ opcField_wordG hopc r
  rw [hrow hfield, hq, decodeG_wordG]

theorem cmdPayload_wordG {opc : Nat} (hopc : opc < 256) (r : RegIndex) :
    cmdPayload (wordG opc r) = BitVec.ofNat 64 (opc * 2 ^ 24 + r.val) := by
  have hr := r.isLt
  refine BitVec.eq_of_toNat_eq ?_
  simp only [cmdPayload, wordG, BitVec.toNat_setWidth, BitVec.toNat_ofNat]
  omega

/-! ### `REG_RESET` and the validity bits (R8, R34, R215) -/

theorem State.poison_iff {s : State} : s.poison = true ↔ s.cfg.regReset = RegReset.poison := beq_iff_eq

theorem State.poison_eq_false {s : State} (h : s.cfg.regReset = RegReset.zero) : s.poison = false := by
  rw [State.poison, h]
  rfl

theorem allValid_eq_false {w : Nat} {bits : BitVec w} {n k : Nat} (hn : n ≤ w) (hk : k < n) (h : bits.getLsbD k = false) :
    allValid bits n = false := by
  rw [← Bool.not_eq_true, allValid_iff]
  intro hall
  simp [hall k (by omega) hk] at h

/-- The validity bits of a register that a command reads whole. -/
theorem allValid_whole_iff {bits : BitVec 8} : allValid bits 8 = true ↔ bits = 0xFF := by
  have hmask : validMask 8 8 = BitVec.allOnes 8 := rfl
  rw [allValid, beq_iff_eq, hmask, BitVec.and_allOnes]
  rfl

theorem allValid_whole_eq_false {bits : BitVec 8} (h : bits ≠ 0xFF) : allValid bits 8 = false := by
  rwa [← Bool.not_eq_true, allValid_whole_iff]

/-- The validity bits of a register set whole: all eight under `POISON`, unused under `ZERO`. -/
theorem State.markValid_whole (s : State) (bits : BitVec 8) :
    (if s.poison then markValid bits 8 else bits) = if s.cfg.regReset = RegReset.poison then 0xFF else bits := by
  have hmask : validMask 8 8 = BitVec.allOnes 8 := rfl
  have hmark : markValid bits 8 = 0xFF := by
    rw [markValid, hmask, BitVec.or_allOnes]
    rfl
  simp only [State.poison_iff, hmark]

section Checked
variable {s : State} (hc : s.fatal = .clear)
include hc

/-- The failing case of every command that reads a register (R215): `UNWRITTEN` with the command word, and nothing changes. -/
theorem checked_unwritten {w : CmdWord} {valid : Bool} {run : Out} (hp : s.cfg.regReset = RegReset.poison)
    (hv : valid = false) :
    s.prologue (s.readChecked w valid run) = .next (s.respond ⟨.unwritten, cmdPayload w, 0, .none⟩) := by
  rw [State.prologue_clear hc, State.readChecked, State.poison_iff.2 hp, hv]
  rfl

theorem ripChecked_go {w : CmdWord} {run : Out} (h : s.cfg.regReset = RegReset.zero ∨ s.ripValid = 0xFF) :
    ripChecked w s run = run :=
  ripChecked_clear hc (h.imp State.poison_eq_false allValid_whole_iff.2)

theorem rflagsChecked_go {w : CmdWord} {run : Out} (h : s.cfg.regReset = RegReset.zero ∨ s.rflagsValid = 0xFF) :
    rflagsChecked w s run = run :=
  rflagsChecked_clear hc (h.imp State.poison_eq_false allValid_whole_iff.2)

theorem rflagsChecked_unwritten {w : CmdWord} {run : Out} (hp : s.cfg.regReset = RegReset.poison) (hv : s.rflagsValid ≠ 0xFF) :
    rflagsChecked w s run = .next (s.respond ⟨.unwritten, cmdPayload w, 0, .none⟩) :=
  checked_unwritten hc hp (allValid_whole_eq_false hv)

end Checked

/-! ### Reading a general register (R141 to R144) -/

/-- The two outcomes of `GRDw`, whose command has opcode `opc`. -/
theorem generalRead_outcomes {g : RegIndex → Instr} {w : Nat} {s : State} {i : RegIndex} (opc : Nat) (hc : s.fatal = .clear)
    (hrow : ∀ q, opcField q.cmd = opc → decode q = decodeG q.cmd g) (hexec : exec (g i) s = gprRead w (wordG opc i) i s)
    (hopc : opc < 256 := by decide) (hw : w ≤ 64 := by decide) :
    (∀ a b d e, decode ⟨wordG opc i, a, b, d, e⟩ = .ok (g i)) ∧
    ((s.cfg.regReset = RegReset.zero ∨ ∀ k, k < w / 8 → s.gprValid[i.val].getLsbD k = true) →
      exec (g i) s = .next (s.respond ⟨.ok, 0, 0, .word w (s.gpr[i.val].extractLsb' 0 w)⟩)) ∧
    (s.cfg.regReset = RegReset.poison → (∃ k, k < w / 8 ∧ s.gprValid[i.val].getLsbD k = false) →
      exec (g i) s = .next (s.respond ⟨.unwritten, BitVec.ofNat 64 (opc * 2 ^ 24 + i.val), 0, .none⟩)) := by
  rw [hexec]
  refine ⟨fun a b d e => decode_of_register_row opc (hrow _) hopc, fun h => ?ok, fun hp ⟨k, hk, hbit⟩ => ?unwritten⟩
  case ok =>
    rw [gprRead_clear hc (h.imp State.poison_eq_false fun hv => allValid_iff.2 fun k _ => hv k), State.succeed_eq,
      BitVec.setWidth_eq_extractLsb' hw]
    rfl
  case unwritten =>
    rw [← cmdPayload_wordG hopc]
    exact checked_unwritten hc hp (allValid_eq_false (by omega) hk hbit)

/-- Settles O34: `generalRead_outcomes` at each of the four widths. -/
theorem generalRegisterReads : Obligations.GeneralRegisterReads := by
  unfold Obligations.GeneralRegisterReads
  intro row hrow s i hc
  simp only [List.mem_cons, List.not_mem_nil, or_false] at hrow
  rcases hrow with rfl | rfl | rfl | rfl
  · exact generalRead_outcomes 0x10 hc (fun _ => decode_grd8) rfl
  · exact generalRead_outcomes 0x11 hc (fun _ => decode_grd16) rfl
  · exact generalRead_outcomes 0x12 hc (fun _ => decode_grd32) rfl
  · exact generalRead_outcomes 0x13 hc (fun _ => decode_grd64) rfl

/-! ### Writing a general register (R140, R145 to R148) -/

/-- `x[i]` set to `v`, the bytes of `valid` marked under `POISON`: the next state as the statement about `GWRw` writes it.
`gprWrite_whole` and `gprWrite_narrow` tie it to the model. -/
def State.storeGpr (s : State) (i : RegIndex) (v : Word64) (valid : BitVec 8) : State :=
  { s with
    gpr := s.gpr.set i.val v
    gprValid := if s.cfg.regReset = RegReset.poison then s.gprValid.set i.val (s.gprValid[i.val] ||| valid) else s.gprValid }

theorem insertLow_eq_append {w : Nat} (old : Word64) (v : BitVec w) (hw : w ≤ 64) :
    insertLow old v = (old.extractLsb' w (64 - w) ++ v).cast (Nat.sub_add_cancel hw) := by
  refine BitVec.eq_of_getLsbD_eq fun k hk => ?_
  rw [insertLow_getLsbD old v hk, BitVec.getLsbD_cast, BitVec.getLsbD_append, BitVec.getLsbD_extractLsb']
  by_cases h : k < w
  · rw [if_pos h, if_pos h]
  · have hin : k - w < 64 - w := by omega
    rw [if_neg h, if_neg h, decide_eq_true hin, Bool.true_and, Nat.add_sub_cancel' (by omega)]

section Write
variable {w : Nat} {i : RegIndex} {a : Word64} {s : State} {p : GprWritePolicy} (hc : s.fatal = .clear)
  (hp : s.cfg.gprWritePolicy = p)
include hc hp

theorem gprWrite_eq_storeGpr : gprWrite w i a s =
    .next ((s.storeGpr i (gprWritten p s.gpr[i.val] (a.setWidth w)) (validMask 8 (if wholeWrite p w then 8 else w / 8))).respond
      ⟨.ok, 0, 0, .none⟩) := by
  subst hp
  rw [gprWrite_clear hc, State.succeed_eq, State.writeGpr]
  simp only [State.poison_iff]
  rfl

/-- A write that sets the register whole fills it with zeros above the `w` bits written. -/
theorem gprWrite_whole (hwhole : wholeWrite p w = true := by rfl) (hw : w ≤ 64 := by decide) : gprWrite w i a s =
    .next ((s.storeGpr i ((0#(64 - w) ++ a.extractLsb' 0 w).cast (Nat.sub_add_cancel hw)) 0xFF).respond
      ⟨.ok, 0, 0, .none⟩) := by
  rw [gprWrite_eq_storeGpr hc hp, gprWritten, if_pos hwhole, if_pos hwhole, BitVec.setWidth_eq_append hw,
    BitVec.setWidth_eq_extractLsb' hw]
  rfl

/-- A narrow write keeps the bits of the register above the `w` bits written. -/
theorem gprWrite_narrow (hnarrow : wholeWrite p w = false := by rfl) (hw : w ≤ 64 := by decide) : gprWrite w i a s =
    .next ((s.storeGpr i ((s.gpr[i.val].extractLsb' w (64 - w) ++ a.extractLsb' 0 w).cast (Nat.sub_add_cancel hw))
      (validMask 8 (w / 8))).respond ⟨.ok, 0, 0, .none⟩) := by
  have hnot : ¬ wholeWrite p w = true := by simp [hnarrow]
  rw [gprWrite_eq_storeGpr hc hp, gprWritten, if_neg hnot, if_neg hnot, insertLow_eq_append _ _ hw,
    BitVec.setWidth_eq_extractLsb' hw]

end Write

theorem wholeWrite_64 (p : GprWritePolicy) : wholeWrite p 64 = true := by cases p <;> rfl

/-- Settles O35: under each policy a width is written whole or narrow, as R140 lists them, and 64 bits always whole. -/
theorem generalRegisterWrites : Obligations.GeneralRegisterWrites := by
  unfold Obligations.GeneralRegisterWrites
  intro s i a hc x stored
  refine ⟨fun b d e => ?words, fun hp => ?zeroExtend, fun hp => ?merge, fun hp => ?x86, ?whole⟩
  case words =>
    exact ⟨decode_of_register_row 0x14 decode_gwr8, decode_of_register_row 0x15 decode_gwr16,
      decode_of_register_row 0x16 decode_gwr32, decode_of_register_row 0x17 decode_gwr64⟩
  case zeroExtend => exact ⟨gprWrite_whole hc hp, gprWrite_whole hc hp, gprWrite_whole hc hp⟩
  case merge => exact ⟨gprWrite_narrow hc hp, gprWrite_narrow hc hp, gprWrite_narrow hc hp⟩
  case x86 => exact ⟨gprWrite_narrow hc hp, gprWrite_narrow hc hp, gprWrite_whole hc hp⟩
  case whole =>
    have hexec := gprWrite_eq_storeGpr (w := 64) (i := i) (a := a) hc rfl
    rwa [gprWritten, if_pos (wholeWrite_64 _), if_pos (wholeWrite_64 _), BitVec.setWidth_eq, BitVec.setWidth_eq] at hexec

/-! ### Reading back a write (R156) -/

/-- After a `w`-bit write the low bytes of the register are valid. -/
theorem allValid_writeGpr {w r : Nat} (s : State) (i : RegIndex) (v : BitVec w) (hr : r ≤ w) (hw : w ≤ 64) :
    s.poison = false ∨ allValid (s.writeGpr i v).gprValid[i.val] (r / 8) = true := by
  cases hp : s.poison with
  | false => exact .inl rfl
  | true =>
    have hbytes : r / 8 ≤ if wholeWrite s.cfg.gprWritePolicy w then 8 else w / 8 := by split <;> omega
    right
    simpa [hp, gprMarked] using allValid_markValid _ hbytes

/-- A read of the width just written, or of a narrower one, answers the low bits of the value written. -/
theorem gprRead_after_gprWrite {w r : Nat} {cmd : CmdWord} {i : RegIndex} {v : Word64} {s t : State} (hc : s.fatal = .clear)
    (h : gprWrite w i v s = .next t) (hr : r ≤ w := by decide) (hw : w ≤ 64 := by decide) :
    gprRead r cmd i t = .next (t.respond ⟨.ok, 0, 0, .word r (v.extractLsb' 0 r)⟩) := by
  rw [gprWrite_clear hc] at h
  have hvalid := allValid_writeGpr s i (v.setWidth w) hr hw
  have hvalue : ((s.writeGpr i (v.setWidth w)).readGpr i).setWidth r = v.extractLsb' 0 r := by
    rw [State.readGpr_writeGpr_self, ← BitVec.setWidth_setWidth_of_le _ hr, gprWritten_setWidth _ _ _ hw,
      BitVec.setWidth_setWidth_of_le _ hr, BitVec.setWidth_eq_extractLsb' (hr.trans hw)]
  obtain rfl := succeed_next h
  rw [← hvalue]
  exact gprRead_clear hc hvalid

/-- Settles O36: each read is of the width written or, after `GWR64`, of a narrower one. -/
theorem generalRegisterRoundTrip : Obligations.GeneralRegisterRoundTrip := by
  unfold Obligations.GeneralRegisterRoundTrip
  intro s t i v hc answers
  refine ⟨fun h => ?_, fun h => ?_, fun h => ?_, fun h => ⟨?_, ?_, ?_, ?_⟩⟩
  all_goals exact gprRead_after_gprWrite hc h

/-! ### `RFLAGS` (R151 to R155) -/

/-- The comparison of R155 asks for every bit of the mask. -/
theorem and_eq_mask_iff {flags mask : Word64} :
    flags &&& mask = mask ↔ ∀ k, mask.getLsbD k = true → flags.getLsbD k = true := by
  constructor
  · intro h k hk
    rw [← h, BitVec.getLsbD_and, Bool.and_eq_true] at hk
    exact hk.1
  · intro h
    refine BitVec.eq_of_getLsbD_eq fun k _ => ?_
    rw [BitVec.getLsbD_and, Bool.and_eq_right_iff_imp]
    exact h k

theorem flagsTest_eq_one {flags mask : Word64} (h : ∀ k, mask.getLsbD k = true → flags.getLsbD k = true) :
    flagsTest flags mask = 1 := if_pos (and_eq_mask_iff.2 h)

theorem flagsTest_eq_zero {flags mask : Word64} (h : ∃ k, mask.getLsbD k = true ∧ flags.getLsbD k = false) :
    flagsTest flags mask = 0 := by
  obtain ⟨k, hmask, hflag⟩ := h
  refine if_neg fun heq => ?_
  simp [and_eq_mask_iff.1 heq k hmask] at hflag

/-- Settles O38: the reads go through `rflagsChecked`, `FLTST` answers `flagsTest`, and `FLWR` is `writeRflags`. -/
theorem rflagsReadWriteTest : Obligations.RflagsReadWriteTest := by
  unfold Obligations.RflagsReadWriteTest
  intro s a hc
  have hflrd : exec .flrd s = rflagsChecked (wordN 0x1A) s (s.succeed (.word 64 s.rflags)) := rfl
  have hfltst : exec (.fltst a) s = rflagsChecked (wordN 0x1E) s (s.succeed (.word 1 (flagsTest s.rflags a))) := rfl
  refine ⟨fun b d e => ?words, fun hv => ?valid, fun hp hv => ?unwritten, ?write⟩
  case words =>
    exact ⟨decode_of_row 0x1A decode_flrd, decode_of_row 0x1B decode_flwr, decode_of_row 0x1E decode_fltst⟩
  case valid =>
    rw [hflrd, hfltst, rflagsChecked_go hc hv, rflagsChecked_go hc hv]
    refine ⟨rfl, fun hall => ?_, fun hsome => ?_⟩
    · rw [flagsTest_eq_one hall]
      rfl
    · rw [flagsTest_eq_zero hsome]
      rfl
  case unwritten =>
    rw [hflrd, hfltst]
    exact ⟨rflagsChecked_unwritten hc hp hv, rflagsChecked_unwritten hc hp hv⟩
  case write =>
    rw [← State.markValid_whole]
    exact State.prologue_clear hc _

theorem flagsSet_getLsbD (flags mask : Word64) (k : Nat) :
    (flagsSet flags mask).getLsbD k = (flags.getLsbD k || mask.getLsbD k) := BitVec.getLsbD_or

theorem flagsClear_getLsbD (flags mask : Word64) {k : Nat} (hk : k < 64) :
    (flagsClear flags mask).getLsbD k = (flags.getLsbD k && !mask.getLsbD k) := by
  rw [flagsClear, BitVec.getLsbD_and, BitVec.getLsbD_not, decide_eq_true hk, Bool.true_and]

/-- Settles O39: the new flags are `flagsSet` and `flagsClear` of the old, bit by bit. -/
theorem rflagsSetAndClear : Obligations.RflagsSetAndClear := by
  unfold Obligations.RflagsSetAndClear
  intro s a hc
  refine ⟨fun b d e => ?words, fun hv => ?valid, fun hp hv => ?unwritten⟩
  case words => exact ⟨decode_of_row 0x1C decode_flset, decode_of_row 0x1D decode_flclr⟩
  case valid =>
    exact ⟨⟨flagsSet s.rflags a, fun k _ => flagsSet_getLsbD _ _ k, rflagsChecked_go hc hv⟩,
      ⟨flagsClear s.rflags a, fun _ hk => flagsClear_getLsbD _ _ hk, rflagsChecked_go hc hv⟩⟩
  case unwritten => exact ⟨rflagsChecked_unwritten hc hp hv, rflagsChecked_unwritten hc hp hv⟩

/-! ### `RIP` (R149, R150) -/

/-- Settles O37: `RIPRD` goes through `ripChecked`, and `RIPWR` is `writeRip`. -/
theorem ripCommands : Obligations.RipCommands := by
  unfold Obligations.RipCommands
  intro s a hc
  refine ⟨fun b d e => ⟨decode_of_row 0x18 decode_riprd, decode_of_row 0x19 decode_ripwr⟩, fun hv => ripChecked_go hc hv,
    fun hp hv => checked_unwritten hc hp (allValid_whole_eq_false hv), ?write⟩
  case write =>
    rw [← State.markValid_whole]
    exact State.prologue_clear hc _

end Sys2Proof.Machine
end

section
/-! Proofs of the statements of 42_simd.md: what `VRD` and `VWR` of every view and element type answer and change (R170 to R198).
The thirty rows of each command are one operation at a view and a type; the statements differ in how they write an element, and
`slotElem` and `elemsImage_getElem!` say for every type what they write out per width. -/

namespace Sys2Proof

/-! ### Elements as words (R14, R170, R172) -/

theorem leDecode_singleton (b : Byte) : leDecode [b] = b.toNat := by simp [leDecode]

/-- A lower byte in front of a little-endian sequence is appended at the low end of the word. -/
theorem leDecode_cons_eq_append {m : Nat} {x : BitVec m} {bs : List Byte} (b : Byte) (h : leDecode bs = x.toNat) :
    leDecode (b :: bs) = (x ++ b).toNat := by
  rw [leDecode, h, BitVec.toNat_append, ← Nat.shiftLeft_add_eq_or_of_lt b.isLt, Nat.shiftLeft_eq]
  omega

theorem leDecode_two (b₀ b₁ : Byte) : leDecode [b₀, b₁] = (b₁ ++ b₀).toNat :=
  leDecode_cons_eq_append b₀ (leDecode_singleton b₁)

theorem leDecode_four (b₀ b₁ b₂ b₃ : Byte) : leDecode [b₀, b₁, b₂, b₃] = (b₃ ++ b₂ ++ b₁ ++ b₀).toNat :=
  leDecode_cons_eq_append b₀ (leDecode_cons_eq_append b₁ (leDecode_two b₂ b₃))

theorem leDecode_eight (b₀ b₁ b₂ b₃ b₄ b₅ b₆ b₇ : Byte) :
    leDecode [b₀, b₁, b₂, b₃, b₄, b₅, b₆, b₇] = (b₇ ++ b₆ ++ b₅ ++ b₄ ++ b₃ ++ b₂ ++ b₁ ++ b₀).toNat :=
  leDecode_cons_eq_append b₀ <| leDecode_cons_eq_append b₁ <| leDecode_cons_eq_append b₂ <| leDecode_cons_eq_append b₃ <|
    leDecode_four b₄ b₅ b₆ b₇

/-- The model's `signed_M` is the two's-complement value of an `M`-bit word. -/
theorem signedOf_toNat {m : Nat} (hm : 0 < m) (x : BitVec m) : signedOf m x.toNat = x.toInt := by
  have hpow : 2 ^ m = 2 * 2 ^ (m - 1) := by rw [← Nat.pow_succ', Nat.succ_eq_add_one, Nat.sub_add_cancel hm]
  have hhalf : 2 * x.toNat < 2 ^ m ↔ x.toNat < 2 ^ (m - 1) := by omega
  simp only [signedOf, BitVec.toInt, hhalf]
  split <;> simp

theorem elemDecode_signed {t : ElemType} {bs : List Byte} {x : BitVec (8 * t.width)} (ht : t.signed = true)
    (hx : leDecode bs = x.toNat) : elemDecode t bs = x.toInt := by
  have := t.width_pos
  rw [elemDecode, if_pos ht, hx, signedOf_toNat (by omega)]

theorem elemDecode_unsigned {t : ElemType} {bs : List Byte} {m : Nat} {x : BitVec m} (ht : t.signed = false)
    (hx : leDecode bs = x.toNat) : elemDecode t bs = x.toNat := by
  rw [elemDecode, ht, hx]
  rfl

theorem inDomain_signed {t : ElemType} (ht : t.signed = true) (e : Int) :
    t.inDomain e = true ↔ -2 ^ (8 * t.width - 1) ≤ e ∧ e < 2 ^ (8 * t.width - 1) := by
  rw [ElemType.inDomain_iff, if_pos ht]

theorem inDomain_unsigned {t : ElemType} (ht : t.signed = false) (e : Int) :
    t.inDomain e = true ↔ 0 ≤ e ∧ e < 2 ^ (8 * t.width) := by
  rw [ElemType.inDomain_iff, if_neg (by simp [ht])]

/-- The raw bits of an element of the domain are the word that wraps its value. -/
theorem elemBits_eq_ofInt {t : ElemType} {e : Int} (h : t.inDomain e = true) :
    elemBits t e = (BitVec.ofInt (8 * t.width) e).toNat := by
  rw [BitVec.toNat_ofInt, elemBits]
  cases ht : t.signed with
  | true => simp
  | false =>
    obtain ⟨hlo, hhi⟩ := (inDomain_unsigned ht e).1 h
    have hmod : e % ((2 ^ (8 * t.width) : Nat) : Int) = e := Int.emod_eq_of_lt hlo (by simpa using hhi)
    rw [hmod]
    rfl

theorem leEncode_getElem! {n j : Nat} (v : Nat) (h : j < n) : (leEncode n v)[j]! = BitVec.ofNat 8 (v >>> (8 * j)) := by
  induction n generalizing v j with
  | zero => omega
  | succ n ih =>
    cases j with
    | zero => exact BitVec.eq_of_toNat_eq (by simp [leEncode])
    | succ j =>
      have hshift : (v / 256) >>> (8 * j) = v >>> (8 * (j + 1)) := by
        rw [Nat.mul_succ, Nat.add_comm, Nat.shiftRight_add, Nat.shiftRight_eq_div_pow v 8]
      simpa [leEncode, hshift] using ih (v / 256) (Nat.lt_of_succ_lt_succ h)

/-- Byte `k` of an image is byte `k mod w` of element `k div w`. -/
theorem elemsImage_getElem! {t : ElemType} {es : List Int} {k : Nat} (hdom : ∀ e ∈ es, t.inDomain e = true)
    (hk : k < es.length * t.width) :
    (elemsImage t es)[k]! = (BitVec.ofInt (8 * t.width) es[k / t.width]!).extractLsb' (8 * (k % t.width)) 8 := by
  have hidx : k / t.width < es.length := Nat.div_lt_of_lt_mul (by rwa [Nat.mul_comm])
  have hoff : k % t.width < t.width := Nat.mod_lt _ t.width_pos
  have hslot := congrArg (fun bs : List Byte => bs[k % t.width]!) (elemsImage_slot t es [] hidx)
  have hsplit : k / t.width * t.width + k % t.width = k := Nat.div_add_mod' k t.width
  have helem : es[k / t.width]! = es[k / t.width] := getElem!_pos es _ hidx
  calc (elemsImage t es)[k]!
      = (elemEncode t es[k / t.width])[k % t.width]! := by
        simpa [List.getElem!_eq_getElem?_getD, List.getElem?_take, hoff, hsplit] using hslot
    _ = BitVec.ofNat 8 (elemBits t es[k / t.width] >>> (8 * (k % t.width))) := leEncode_getElem! _ hoff
    _ = _ := by rw [elemBits_eq_ofInt (hdom _ (List.getElem_mem hidx)), helem]; rfl

theorem View.bytes_le (vw : View) : vw.bytes ≤ 64 := by cases vw <;> decide

theorem elemCount_mono {narrow wide : View} (t : ElemType) (h : narrow.bytes ≤ wide.bytes) :
    elemCount narrow t ≤ elemCount wide t := Nat.div_le_div_right h

end Sys2Proof

namespace Sys2Proof.Machine

/-! ### The command words (R84, R86) -/

/-- A word of format V decodes by its row of the opcode map, whatever the operands (R89). -/
theorem decode_of_view_row {q : Request} {t : ElemType} {vw : View} {v : RegIndex} {f : View → ElemType → RegIndex → Instr}
    (opc : Nat) (hrow : opcField q.cmd = opc → decode q = decodeV q.cmd f) (hopc : opc < 256 := by decide)
    (hq : q.cmd = wordV opc t vw v := by rfl) : decode q = .ok (f vw t v) := by
  have hfield : opcField q.cmd = opc := hq ▸ opcField_wordV hopc t vw v
  rw [hrow hfield, hq, decodeV_wordV]

theorem cmdPayload_wordV {opc : Nat} (hopc : opc < 256) (t : ElemType) (vw : View) (v : RegIndex) :
    cmdPayload (wordV opc t vw v) = BitVec.ofNat 64 (opc * 2 ^ 24 + t.code * 64 + vw.code * 16 + v.val) := by
  have hv := v.isLt
  have hvw := vw.code_lt
  have ht := t.code_lt
  refine BitVec.eq_of_toNat_eq ?_
  simp only [cmdPayload, wordV, BitVec.toNat_setWidth, BitVec.toNat_ofNat]
  omega

theorem exec_vrdInstr (vw : View) (t : ElemType) (v : RegIndex) (s : State) :
    exec (vrdInstr v vw t) s = vread vw t (wordV 0x20 t vw v) v s := by
  cases vw <;> cases t <;> rfl

theorem exec_vwrInstr (vw : View) (t : ElemType) (v : RegIndex) (es : List Int) (s : State) :
    exec (vwrInstr v es vw t) s = vwrite vw t (wordV 0x21 t vw v) v es s := by
  cases vw <;> cases t <;> rfl

/-- The `VRD` row of a view and a type as the statements list it: the command, `VB`, and the word of register 0. -/
def vrdRow (t : ElemType) (vw : View) : (RegIndex → Instr) × Nat × Nat :=
  (fun v => vrdInstr v vw t, vw.bytes, 0x20 * 2 ^ 24 + t.code * 64 + vw.code * 16)

/-- The `VWR` row of a view and a type as the statements list it. -/
def vwrRow (t : ElemType) (vw : View) : (RegIndex → List Int → Instr) × Nat × Nat :=
  (fun v es => vwrInstr v es vw t, vw.bytes, 0x21 * 2 ^ 24 + t.code * 64 + vw.code * 16)

/-- What holds of the row of every view holds of the three rows a statement lists. -/
theorem forall_rows {α : Type} {P : α → Prop} (row : View → α) (h : ∀ vw, P (row vw)) :
    ∀ r ∈ [row .xmm, row .ymm, row .zmm], P r := by
  simp [h]

/-! ### Reading a view (R173 to R183) -/

/-- Element `k` of a register: the `w` bytes from byte `k * w` on, whatever the view. `viewElems_eq_map` ties it to the model. -/
def slotElem (V : SimdReg) (t : ElemType) (k : Nat) : Int :=
  elemDecode t ((List.range t.width).map fun j => V[k * t.width + j]!)

theorem viewBytes_slot (V : SimdReg) {vw : View} {a n : Nat} (h : a + n ≤ vw.bytes) :
    ((viewBytes V vw).drop a).take n = (List.range n).map fun j => V[a + j]! := by
  have hb := vw.bytes_le
  refine List.ext_getElem (by simp [viewBytes]; omega) fun j h1 h2 => ?_
  have hj : j < n := by simpa using h2
  have h64 : a + j < 64 := by omega
  simp [viewBytes, h64]

theorem viewElems_eq_map (V : SimdReg) (vw : View) (t : ElemType) :
    viewElems V vw t = (List.range (elemCount vw t)).map (slotElem V t) := by
  refine List.map_congr_left fun k hk => ?_
  have hend : k * t.width + t.width ≤ vw.bytes := by
    rw [← elemCount_mul_width vw t, ← Nat.succ_mul]
    exact Nat.mul_le_mul_right _ (List.mem_range.1 hk)
  rw [viewBytes_slot V hend, slotElem]

theorem vread_ok {vw : View} {t : ElemType} {cmd : CmdWord} {v : RegIndex} {s : State} (hc : s.fatal = .clear)
    (h : s.cfg.regReset = RegReset.zero ∨ ∀ k, k < vw.bytes → s.simdValid[v.val].getLsbD k = true) :
    vread vw t cmd v s = .next (s.respond ⟨.ok, 0, 0, .elems t (viewElems (s.readSimd v) vw t)⟩) :=
  vread_clear hc (h.imp State.poison_eq_false fun hv => allValid_iff.2 fun k _ => hv k)

/-- The outcomes of `VRD`, for any spelling `e` of the elements of the register. -/
theorem vrd_outcomes {s : State} (hc : s.fatal = .clear) (v : RegIndex) (vw : View) {t : ElemType} {e : Nat → Int}
    (he : ∀ k, slotElem s.simd[v.val] t k = e k) :
    (∀ a b d es, decode ⟨BitVec.ofNat 32 ((vrdRow t vw).2.2 + v.val), a, b, d, es⟩ = .ok ((vrdRow t vw).1 v)) ∧
    ((s.cfg.regReset = RegReset.zero ∨ ∀ k, k < vw.bytes → s.simdValid[v.val].getLsbD k = true) →
      exec ((vrdRow t vw).1 v) s = .next (s.respond ⟨.ok, 0, 0, .elems t ((List.range (elemCount vw t)).map e)⟩)) ∧
    (s.cfg.regReset = RegReset.poison → (∃ k, k < vw.bytes ∧ s.simdValid[v.val].getLsbD k = false) →
      exec ((vrdRow t vw).1 v) s =
        .next (s.respond ⟨.unwritten, BitVec.ofNat 64 ((vrdRow t vw).2.2 + v.val), 0, .none⟩)) := by
  have hexec : exec ((vrdRow t vw).1 v) s = _ := exec_vrdInstr vw t v s
  rw [hexec]
  refine ⟨fun a b d es => decode_of_view_row 0x20 decode_vrd, fun h => ?ok, fun hp ⟨k, hk, hbit⟩ => ?unwritten⟩
  case ok =>
    obtain rfl : slotElem s.simd[v.val] t = e := funext he
    rw [← viewElems_eq_map]
    exact vread_ok hc h
  case unwritten =>
    have hb := vw.bytes_le
    have hword := cmdPayload_wordV (opc := 0x20) (by decide) t vw v
    exact hword ▸ checked_unwritten hc hp (allValid_eq_false hb hk hbit)

/-- Settles O40: an element is one byte. -/
theorem simdByteReads : Obligations.SimdByteReads := by
  unfold Obligations.SimdByteReads
  intro s v hc b reads
  have hslot (k : Nat) : leDecode [b (k * 1)] = (b k).toNat := by rw [leDecode_singleton, Nat.mul_one]
  exact ⟨forall_rows (vrdRow .i8) fun vw => vrd_outcomes hc v vw fun k => elemDecode_signed rfl (hslot k),
    forall_rows (vrdRow .u8) fun vw => vrd_outcomes hc v vw fun k => elemDecode_unsigned rfl (hslot k)⟩

/-- Settles O41: the bytes of an element are a 16-bit word, the low byte first. -/
theorem simdHalfwordReads : Obligations.SimdHalfwordReads := by
  unfold Obligations.SimdHalfwordReads
  intro s v hc b reads
  have hslot (k : Nat) := leDecode_two (b (k * 2)) (b (k * 2 + 1))
  exact ⟨forall_rows (vrdRow .i16) fun vw => vrd_outcomes hc v vw fun k => elemDecode_signed rfl (hslot k),
    forall_rows (vrdRow .u16) fun vw => vrd_outcomes hc v vw fun k => elemDecode_unsigned rfl (hslot k)⟩

/-- Settles O42: the bytes of an element are a 32-bit word, and an `f32` is its pattern. -/
theorem simdWordReads : Obligations.SimdWordReads := by
  unfold Obligations.SimdWordReads
  intro s v hc b reads
  have hslot (k : Nat) := leDecode_four (b (k * 4)) (b (k * 4 + 1)) (b (k * 4 + 2)) (b (k * 4 + 3))
  exact ⟨forall_rows (vrdRow .i32) fun vw => vrd_outcomes hc v vw fun k => elemDecode_signed rfl (hslot k),
    forall_rows (vrdRow .u32) fun vw => vrd_outcomes hc v vw fun k => elemDecode_unsigned rfl (hslot k),
    forall_rows (vrdRow .f32) fun vw => vrd_outcomes hc v vw fun k => elemDecode_unsigned rfl (hslot k)⟩

/-- Settles O43: the bytes of an element are a 64-bit word, and an `f64` is its pattern. -/
theorem simdDoublewordReads : Obligations.SimdDoublewordReads := by
  unfold Obligations.SimdDoublewordReads
  intro s v hc b reads
  have hslot (k : Nat) := leDecode_eight (b (k * 8)) (b (k * 8 + 1)) (b (k * 8 + 2)) (b (k * 8 + 3)) (b (k * 8 + 4))
    (b (k * 8 + 5)) (b (k * 8 + 6)) (b (k * 8 + 7))
  exact ⟨forall_rows (vrdRow .i64) fun vw => vrd_outcomes hc v vw fun k => elemDecode_signed rfl (hslot k),
    forall_rows (vrdRow .u64) fun vw => vrd_outcomes hc v vw fun k => elemDecode_unsigned rfl (hslot k),
    forall_rows (vrdRow .f64) fun vw => vrd_outcomes hc v vw fun k => elemDecode_unsigned rfl (hslot k)⟩

/-! ### Writing a view (R173, R184 to R193) -/

/-- The outcomes of `VWR`, for any spelling of the domain of the type. -/
theorem vwr_outcomes {s : State} (hc : s.fatal = .clear) (v : RegIndex) (es : List Int) (vw : View) {t : ElemType} {lo hi : Int}
    (hdom : ∀ e, t.inDomain e = true ↔ lo ≤ e ∧ e < hi) :
    (∀ a b d, decode ⟨BitVec.ofNat 32 ((vwrRow t vw).2.2 + v.val), a, b, d, es⟩ = .ok ((vwrRow t vw).1 v es)) ∧
    ((es.length = elemCount vw t ∧ ∀ e ∈ es, lo ≤ e ∧ e < hi) →
      ∃ R : SimdReg,
        (∀ k, k < vw.bytes → R[k]! = (BitVec.ofInt (8 * t.width) es[k / t.width]!).extractLsb' (8 * (k % t.width)) 8) ∧
        (∀ k, vw.bytes ≤ k → k < 64 → R[k]! = s.simd[v.val][k]!) ∧
        exec ((vwrRow t vw).1 v es) s =
          .next ({ s with
              simd := s.simd.set v.val R
              simdValid :=
                if s.cfg.regReset = RegReset.poison then
                  s.simdValid.set v.val (s.simdValid[v.val] ||| BitVec.ofNat 64 (2 ^ vw.bytes - 1))
                else s.simdValid
            }.respond ⟨.ok, 0, 0, .none⟩)) ∧
    (¬ (es.length = elemCount vw t ∧ ∀ e ∈ es, lo ≤ e ∧ e < hi) →
      exec ((vwrRow t vw).1 v es) s =
        .next (s.respond ⟨.illegalCommand, BitVec.ofNat 64 ((vwrRow t vw).2.2 + v.val), 0, .none⟩)) := by
  have hexec : exec ((vwrRow t vw).1 v es) s = _ := exec_vwrInstr vw t v es s
  have hfit : elementsFit vw t es = true ↔ es.length = elemCount vw t ∧ ∀ e ∈ es, lo ≤ e ∧ e < hi := by
    simp only [elementsFit_iff, hdom]
  rw [hexec, ← hfit]
  refine ⟨fun a b d => decode_of_view_row 0x21 decode_vwr, fun he => ?fits, fun he => ?misfit⟩
  case fits =>
    obtain ⟨hlen, hin⟩ := elementsFit_iff.1 he
    refine ⟨putBytes (s.readSimd v) 0 (elemsImage t es), fun k hk => ?_, fun k hk _ => ?_, ?_⟩
    · rw [putBytes_image_getElem! _ he, if_pos hk]
      exact elemsImage_getElem! hin (by rwa [hlen, elemCount_mul_width])
    · rw [putBytes_image_getElem! _ he, if_neg (by omega)]
      rfl
    · rw [vwrite_clear hc he, State.succeed_eq, State.writeSimd]
      simp only [State.poison_iff]
      rfl
  case misfit =>
    have hword := cmdPayload_wordV (opc := 0x21) (by decide) t vw v
    rw [vwrite_misfit (by simpa using he), illegalCommand_clear hc, hword]
    rfl

/-- Settles O44: `vwr_outcomes` at the two 1-byte types. -/
theorem simdByteWrites : Obligations.SimdByteWrites := by
  unfold Obligations.SimdByteWrites
  intro s v es hc writes
  exact ⟨forall_rows (vwrRow .i8) fun vw => vwr_outcomes hc v es vw (inDomain_signed rfl),
    forall_rows (vwrRow .u8) fun vw => vwr_outcomes hc v es vw (inDomain_unsigned rfl)⟩

/-- Settles O45: `vwr_outcomes` at the two 2-byte types. -/
theorem simdHalfwordWrites : Obligations.SimdHalfwordWrites := by
  unfold Obligations.SimdHalfwordWrites
  intro s v es hc writes
  exact ⟨forall_rows (vwrRow .i16) fun vw => vwr_outcomes hc v es vw (inDomain_signed rfl),
    forall_rows (vwrRow .u16) fun vw => vwr_outcomes hc v es vw (inDomain_unsigned rfl)⟩

/-- Settles O46: `vwr_outcomes` at the three 4-byte types; the domain of `f32` is its patterns. -/
theorem simdWordWrites : Obligations.SimdWordWrites := by
  unfold Obligations.SimdWordWrites
  intro s v es hc writes
  exact ⟨forall_rows (vwrRow .i32) fun vw => vwr_outcomes hc v es vw (inDomain_signed rfl),
    forall_rows (vwrRow .u32) fun vw => vwr_outcomes hc v es vw (inDomain_unsigned rfl),
    forall_rows (vwrRow .f32) fun vw => vwr_outcomes hc v es vw (inDomain_unsigned rfl)⟩

/-- Settles O47: `vwr_outcomes` at the three 8-byte types; the domain of `f64` is its patterns. -/
theorem simdDoublewordWrites : Obligations.SimdDoublewordWrites := by
  unfold Obligations.SimdDoublewordWrites
  intro s v es hc writes
  exact ⟨forall_rows (vwrRow .i64) fun vw => vwr_outcomes hc v es vw (inDomain_signed rfl),
    forall_rows (vwrRow .u64) fun vw => vwr_outcomes hc v es vw (inDomain_unsigned rfl),
    forall_rows (vwrRow .f64) fun vw => vwr_outcomes hc v es vw (inDomain_unsigned rfl)⟩

/-! ### Views that nest, and reading back a write (R194, R198) -/

/-- A narrower view has the leading elements of a wider one (R194 a). -/
theorem viewElems_narrower (V : SimdReg) {narrow wide : View} (t : ElemType) (h : narrow.bytes ≤ wide.bytes) :
    viewElems V narrow t = (viewElems V wide t).take (elemCount narrow t) := by
  rw [viewElems_eq_map, viewElems_eq_map, ← List.map_take, List.take_range, Nat.min_eq_left (elemCount_mono t h)]

/-- A `VWR` keeps the bytes past its view, whether its elements fit or not (R194 b). -/
theorem vwrite_keeps_past_view {vw : View} {ty : ElemType} {cmd : CmdWord} {v : RegIndex} {es : List Int} {s t : State}
    (hc : s.fatal = .clear) (h : vwrite vw ty cmd v es s = .next t) {k : Nat} (hk : vw.bytes ≤ k) :
    t.simd[v.val][k]! = s.simd[v.val][k]! := by
  cases he : elementsFit vw ty es with
  | false =>
    rw [vwrite_misfit he, illegalCommand_clear hc] at h
    obtain rfl := Host.Outcome.next.inj h
    rfl
  | true =>
    rw [vwrite_clear hc he] at h
    obtain rfl := succeed_next h
    have hbyte := putBytes_image_getElem! s.simd[v.val] he k
    rw [if_neg (by omega)] at hbyte
    simpa [State.readSimd] using hbyte

/-- After a `VWR` of elements that fit, a `VRD` of any type through the same or a narrower view finds its bytes valid and
answers the elements of the bytes stored. -/
theorem vread_after_vwrite {vw vr : View} {ty ty' : ElemType} {cmd cmd' : CmdWord} {v : RegIndex} {es : List Int} {s t : State}
    (hc : s.fatal = .clear) (he : elementsFit vw ty es = true) (h : vwrite vw ty cmd v es s = .next t) (hle : vr.bytes ≤ vw.bytes) :
    vread vr ty' cmd' v t =
      .next (t.respond ⟨.ok, 0, 0, .elems ty' (viewElems (putBytes (s.readSimd v) 0 (elemsImage ty es)) vr ty')⟩) := by
  rw [vwrite_clear hc he] at h
  obtain rfl := succeed_next h
  have hvalid : s.poison = false ∨ allValid (s.writeSimd v vw ty es).simdValid[v.val] vr.bytes = true := by
    cases hp : s.poison with
    | false => exact .inl rfl
    | true => exact .inr (by simpa [hp] using allValid_markValid s.simdValid[v.val] hle)
  rw [← State.readSimd_writeSimd_self s v vw]
  exact vread_clear hc hvalid

/-- The same type reads back the leading elements written (R194 c, d). -/
theorem vread_same_type_after_vwrite {vw vr : View} {ty : ElemType} {cmd cmd' : CmdWord} {v : RegIndex} {es : List Int}
    {s t : State} (hc : s.fatal = .clear) (he : elementsFit vw ty es = true) (h : vwrite vw ty cmd v es s = .next t)
    (hle : vr.bytes ≤ vw.bytes) :
    vread vr ty cmd' v t = .next (t.respond ⟨.ok, 0, 0, .elems ty (es.take (elemCount vr ty))⟩) := by
  rw [vread_after_vwrite hc he h hle, viewElems_putBytes _ he hle]

/-- Settles O48: the bytes of a narrower view are leading bytes of a wider one, so they are valid when the wider one's are. -/
theorem viewsNestAndRoundTrip : Obligations.ViewsNestAndRoundTrip := by
  unfold Obligations.ViewsNestAndRoundTrip
  intro s t v ty narrow wide es hc hle
  simp only [exec_vrdInstr, exec_vwrInstr]
  refine ⟨fun hv => ?nest, fun h k hk _ => vwrite_keeps_past_view hc h hk, fun he h => ⟨?narrower, ?same⟩⟩
  case nest =>
    refine ⟨viewElems (s.readSimd v) wide ty, vread_ok hc hv, ?_⟩
    rw [← viewElems_narrower _ ty hle]
    exact vread_ok hc (hv.imp_right fun hall k hk => hall k (by omega))
  case narrower => exact vread_same_type_after_vwrite hc he h hle
  case same =>
    have hread := vread_same_type_after_vwrite (cmd' := wordV 0x20 ty wide v) hc he h le_rfl
    rwa [List.take_of_length_le (elementsFit_iff.1 he).1.le] at hread

/-- The image of what a view holds, read as any type, is the bytes of the view. -/
theorem elemsImage_viewElems (V : SimdReg) (vw : View) (ty : ElemType) : elemsImage ty (viewElems V vw ty) = viewBytes V vw := by
  have hb := vw.bytes_le
  have hlen : (viewBytes V vw).length = elemCount vw ty * ty.width := by
    rw [elemCount_mul_width]
    simpa [viewBytes] using hb
  exact (elemsOfImage_spec hlen).2

theorem viewBytes_putBytes (V : SimdReg) {vw : View} {ty : ElemType} {es : List Int} (h : es.length = elemCount vw ty) :
    viewBytes (putBytes V 0 (elemsImage ty es)) vw = elemsImage ty es := by
  have himg : (elemsImage ty es).length = vw.bytes := by rw [elemsImage_length, h, elemCount_mul_width]
  rw [viewBytes, putBytes_image V h, List.take_left' himg]

/-- Settles O49: both types read the same bytes of the view, and those are the image of the elements written. -/
theorem reinterpretationKeepsTheBytes : Obligations.ReinterpretationKeepsTheBytes := by
  unfold Obligations.ReinterpretationKeepsTheBytes
  intro s t v vw ty ty' es hc he h
  rw [exec_vwrInstr] at h
  rw [exec_vrdInstr]
  refine ⟨_, vread_after_vwrite hc he h le_rfl, ?_⟩
  rw [elemsImage_viewElems, viewBytes_putBytes _ (elementsFit_iff.1 he).1]

end Sys2Proof.Machine
end

section
/-! Proofs of the statements of 60_exceptions.md: what a step runs, what raising a failure changes, and the commands that can raise
each status (R211, R212, R216, R217). -/

namespace Sys2Proof

/-! ### The rows of R212 -/

/-- The commands that access memory: `RDB`, `RDBS`, `WRB` and `WRBS` (R51). -/
def Instr.AccessesMemory (i : Instr) : Prop :=
  (∃ a, i = .rdb a) ∨ (∃ a b, i = .rdbs a b) ∨ (∃ a b, i = .wrb a b) ∨ ∃ a d, i = .wrbs a d

/-- The commands that access a byte range, which can pass the end of a segment (R57). -/
def Instr.AccessesRange (i : Instr) : Prop := (∃ a b, i = .rdbs a b) ∨ ∃ a d, i = .wrbs a d

/-- `ALLOC` with any operands. -/
def Instr.IsAlloc (i : Instr) : Prop := ∃ a b, i = .alloc a b

namespace Machine

/-- The table of R212: the responses a command may give from a state with `FATAL` clear. `exec_mayAnswer` ties it to `exec`. -/
inductive MayAnswer (i : Instr) (s : State) : Response → Prop where
  | ok {res : Result} : MayAnswer i s (Response.okWith res)
  | outOfBounds {p0 p1 : Word64} (hi : i.IsAlloc ∨ i.AccessesMemory) : MayAnswer i s (Response.failure .outOfBounds p0 p1)
  | unaligned {p0 p1 : Word64} (hi : i.AccessesMemory) : MayAnswer i s (Response.failure .unaligned p0 p1)
  | addressNotMapped {p0 p1 : Word64} (hi : i.AccessesMemory) : MayAnswer i s (Response.failure .addressNotMapped p0 p1)
  | addressAlreadyMapped {p0 p1 : Word64} (hi : i.IsAlloc) : MayAnswer i s (Response.failure .addressAlreadyMapped p0 p1)
  | illegalCommand {p0 p1 : Word64} (hi : i.simdTarget ≠ none) (hwf : i.wf = false) :
      MayAnswer i s (Response.failure .illegalCommand p0 p1)
  | unwritten {p0 p1 : Word64} (hp : s.cfg.regReset = RegReset.poison) (hi : i.readsRegister = true) :
      MayAnswer i s (Response.failure .unwritten p0 p1)
  | span (hi : i.AccessesRange) : MayAnswer i s (Response.fatal .span)
  | overflow (hi : i.IsAlloc) : MayAnswer i s (Response.fatal .overflow)
  | capacity (hi : i.IsAlloc) : MayAnswer i s (Response.fatal .capacity)

/-- The outcome, where it is a next state, adds one response to those of `s`, and R212 allows it. -/
def MayGive (i : Instr) (s : State) (run : Out) : Prop :=
  ∀ t, run = .next t → ∃ r, t.responses = s.responses ++ [r] ∧ MayAnswer i s r

/-! ### What each shared operation may answer -/

section Operations
variable {i : Instr} {s : State}

theorem MayGive.succeed {u : State} {res : Result} (hu : u.responses = s.responses) : MayGive i s (u.succeed res) := by
  intro t h
  rw [succeed_next h, State.respond_responses, hu]
  exact ⟨_, rfl, .ok⟩

theorem MayGive.status {st : Status} {p0 p1 : Word64} (h : MayAnswer i s (Response.failure st p0 p1)) :
    MayGive i s (s.fail (.status st p0 p1)) := by
  intro t ht
  rw [← Host.Outcome.next.inj ht]
  exact ⟨_, rfl, h⟩

theorem MayGive.fatal {sub : FatalSub} (h : MayAnswer i s (Response.fatal sub)) : MayGive i s (s.fail (.fatal sub)) := by
  intro t ht
  rw [← Host.Outcome.next.inj ht]
  exact ⟨_, rfl, h⟩

theorem MayGive.prologue {run : Out} (hc : s.fatal = .clear) (h : MayGive i s run) : MayGive i s (s.prologue run) := by
  rwa [State.prologue_clear hc]

theorem MayGive.readChecked {w : CmdWord} {valid : Bool} {run : Out} (hi : i.readsRegister = true) (h : MayGive i s run) :
    MayGive i s (s.readChecked w valid run) := by
  rcases State.readChecked_cases (s := s) (w := w) (valid := valid) (run := run) with ⟨hp, -, he⟩ | ⟨-, he⟩ <;> rw [he]
  · exact .status (.unwritten (State.poison_iff.1 hp) hi)
  · exact h

/-- One byte lies in the segment that contains its address, so only a range spans (R57). -/
theorem MayGive.accessError {addr : Word64} {n : Nat} {f : Failure} (hi : i.AccessesMemory) (hrange : n ≠ 1 → i.AccessesRange)
    (hf : accessSegment s addr n = .error f) : MayGive i s (s.fail f) := by
  rcases accessSegment_error hf with ⟨-, rfl⟩ | ⟨-, -, rfl⟩ | ⟨-, -, -, rfl⟩ | ⟨-, -, S, hS, hstop, rfl⟩
  · exact .status (.unaligned hi)
  · exact .status (.outOfBounds (.inr hi))
  · exact .status (.addressNotMapped hi)
  · have hlt : addr.toNat < S.stop := (Segment.contains_iff.1 (lookup_eq_some.1 hS).1).2
    exact .fatal (.span (hrange (by omega)))

theorem MayGive.load {addr : Word64} {n : Nat} {answer : List Byte → Result} (hi : i.AccessesMemory)
    (hrange : n ≠ 1 → i.AccessesRange) : MayGive i s (load addr n answer s) := by
  unfold Machine.load
  split
  next f hf => exact .accessError hi hrange (memRead_error.1 hf)
  next => exact .succeed rfl

theorem MayGive.store {addr : Word64} {bs : List Byte} (hi : i.AccessesMemory) (hrange : bs.length ≠ 1 → i.AccessesRange) :
    MayGive i s (store addr bs s) := by
  unfold Machine.store
  split
  next f hf => exact .accessError hi hrange (memWrite_error.1 hf)
  next u hu =>
    obtain ⟨S, -, rfl⟩ := memWrite_ok.1 hu
    exact .succeed rfl

theorem MayGive.allocate {hint size : Word64} (hi : i.IsAlloc) : MayGive i s (allocate hint size s) := by
  intro t h
  rcases allocate_cases h with ⟨f, hf, hcase⟩ | ⟨g, m, a, -, -, -, -, -, rfl⟩
  · rcases hcase with ⟨-, rfl⟩ | ⟨-, -, rfl⟩ | ⟨S, -, -, rfl⟩ | ⟨-, -, -, -, -, rfl⟩
    · exact MayGive.status (.outOfBounds (.inl hi)) t hf
    · exact MayGive.fatal (.overflow hi) t hf
    · exact MayGive.status (.addressAlreadyMapped hi) t hf
    · exact MayGive.fatal (.capacity hi) t hf
  · exact ⟨_, rfl, .ok⟩

theorem MayGive.vwrite {vw : View} {ty : ElemType} {w : CmdWord} {r : RegIndex} {es : List Int} (hc : s.fatal = .clear)
    (hi : i.simdTarget ≠ none) (hwf : i.wf = elementsFit vw ty es) : MayGive i s (vwrite vw ty w r es s) := by
  cases he : elementsFit vw ty es with
  | false =>
    rw [vwrite_misfit he]
    exact .prologue hc (.status (.illegalCommand hi (hwf.trans he)))
  | true =>
    rw [Machine.vwrite, if_pos he]
    exact .prologue hc (.succeed rfl)

/-- Every command answers as R212 allows. -/
theorem exec_mayGive (hc : s.fatal = .clear) (i : Instr) : MayGive i s (exec i s) := by
  cases i with
  | alloc hint size => exact .prologue hc (.allocate ⟨hint, size, rfl⟩)
  | rdb addr => exact .prologue hc (.load (answer := fun bs => .word 8 (bs.headD 0)) (.inl ⟨addr, rfl⟩) (absurd rfl))
  | rdbs addr size =>
    exact .prologue hc (.load (.inr (.inl ⟨addr, size, rfl⟩)) fun _ => .inl ⟨addr, size, rfl⟩)
  | wrb addr value => exact .prologue hc (.store (.inr (.inr (.inl ⟨addr, value, rfl⟩))) (absurd rfl))
  | wrbs addr data =>
    exact .prologue hc (.store (.inr (.inr (.inr ⟨addr, data, rfl⟩))) fun _ => .inr ⟨addr, data, rfl⟩)
  | dname | dstart | dend | gwr8 | gwr16 | gwr32 | gwr64 | ripwr | flwr => exact .prologue hc (.succeed rfl)
  | grd8 | grd16 | grd32 | grd64 | riprd | flrd | flset | flclr | fltst
  | vrdXmmI8x16 | vrdYmmI8x32 | vrdZmmI8x64 | vrdXmmU8x16 | vrdYmmU8x32 | vrdZmmU8x64
  | vrdXmmI16x8 | vrdYmmI16x16 | vrdZmmI16x32 | vrdXmmU16x8 | vrdYmmU16x16 | vrdZmmU16x32
  | vrdXmmI32x4 | vrdYmmI32x8 | vrdZmmI32x16 | vrdXmmU32x4 | vrdYmmU32x8 | vrdZmmU32x16
  | vrdXmmI64x2 | vrdYmmI64x4 | vrdZmmI64x8 | vrdXmmU64x2 | vrdYmmU64x4 | vrdZmmU64x8
  | vrdXmmF32x4 | vrdYmmF32x8 | vrdZmmF32x16 | vrdXmmF64x2 | vrdYmmF64x4 | vrdZmmF64x8 =>
    exact .prologue hc (.readChecked rfl (.succeed rfl))
  | vwrXmmI8x16 | vwrYmmI8x32 | vwrZmmI8x64 | vwrXmmU8x16 | vwrYmmU8x32 | vwrZmmU8x64
  | vwrXmmI16x8 | vwrYmmI16x16 | vwrZmmI16x32 | vwrXmmU16x8 | vwrYmmU16x16 | vwrZmmU16x32
  | vwrXmmI32x4 | vwrYmmI32x8 | vwrZmmI32x16 | vwrXmmU32x4 | vwrYmmU32x8 | vwrZmmU32x16
  | vwrXmmI64x2 | vwrYmmI64x4 | vwrZmmI64x8 | vwrXmmU64x2 | vwrYmmU64x4 | vwrZmmU64x8
  | vwrXmmF32x4 | vwrYmmF32x8 | vwrZmmF32x16 | vwrXmmF64x2 | vwrYmmF64x4 | vwrZmmF64x8 =>
    exact .vwrite hc (Option.some_ne_none _) rfl

/-- The response a command adds is one R212 allows it. -/
theorem exec_mayAnswer {t : State} {r : Response} (hc : s.fatal = .clear) (h : exec i s = .next t)
    (hr : t.responses = s.responses ++ [r]) : MayAnswer i s r := by
  obtain ⟨r', hr', hmay⟩ := exec_mayGive hc i t h
  have heq : r' = r := by simpa [hr'] using hr
  exact heq ▸ hmay

end Operations

/-! ### What raising a failure changes (R216, R217) -/

/-- All a request can change (R216, R217): nothing but the responses, for a status other than `OK`; `FATAL` too where it is raised;
for a success all but `FATAL` and the responses before. -/
theorem Answers.response_cases {w : CmdWord} {s t : State} (h : Answers w s t) :
    (∃ st p0 p1, st ≠ .ok ∧ t = s.respond (Response.failure st p0 p1)) ∨
    (∃ sub, s.fatal = .clear ∧ t = { s with fatal := .set sub }.respond (Response.fatal sub)) ∨
    (∃ (u : State) (res : Result), t = u.respond (Response.okWith res) ∧ u.fatal = s.fatal ∧ u.responses = s.responses) := by
  cases h with
  | stuck => exact .inl ⟨_, _, _, by decide, rfl⟩
  | status _ hok => exact .inl ⟨_, _, _, hok, rfl⟩
  | fatal hc => exact .inr (.inl ⟨_, hc, rfl⟩)
  | reads | gpr | rip | rflags | rflagsKept | simd | allocated => exact .inr (.inr ⟨_, _, rfl, rfl, rfl⟩)
  | memory _ hw =>
    obtain ⟨S, -, rfl⟩ := memWrite_ok.1 hw
    exact .inr (.inr ⟨_, _, rfl, rfl, rfl⟩)

/-- A command that sets `FATAL` answers its sub-code and changes nothing else (R216). -/
theorem Answers.eq_of_raises_fatal {w : CmdWord} {s t : State} {sub : FatalSub} (h : Answers w s t) (hc : s.fatal = .clear)
    (ht : t.fatal = .set sub) : t = { s with fatal := .set sub }.respond (Response.fatal sub) := by
  rcases h.response_cases with ⟨st, p0, p1, -, rfl⟩ | ⟨sub', -, rfl⟩ | ⟨u, res, rfl, hu, -⟩
  · cases hc.symm.trans ht
  · cases ht
    rfl
  · cases (hc.symm.trans hu.symm).trans ht

/-- A request that answers a recoverable status changes nothing but the responses (R217). -/
theorem Answers.eq_of_recoverable {w : CmdWord} {s t : State} {r : Response} (h : Answers w s t)
    (hr : t.responses = s.responses ++ [r]) (hok : r.st ≠ .ok) (hfatal : r.st ≠ .fatal) : t = s.respond r := by
  rcases h.response_cases with ⟨st, p0, p1, -, rfl⟩ | ⟨sub, -, rfl⟩ | ⟨u, res, rfl, -, hu⟩
  · have heq : Response.failure st p0 p1 = r := by simpa using hr
    rw [heq]
  · have heq : Response.fatal sub = r := by simpa using hr
    exact absurd (heq ▸ rfl) hfatal
  · have heq : Response.okWith res = r := by simpa [hu] using hr
    exact absurd (heq ▸ rfl) hok

/-! ### Requests (R211) -/

theorem performRequest_ok {q : Request} {i : Instr} (h : decode q = .ok i) (s : State) : performRequest q s = exec i s := by
  simp only [performRequest, h]

theorem performRequest_error {q : Request} {e : DecodeError} (h : decode q = .error e) (s : State) :
    performRequest q s = illegalCommand q.cmd s := by
  simp only [performRequest, h]

/-- While `FATAL` is set every command answers it, whatever the command: each meaning starts with the prologue (R211, R216). -/
theorem exec_of_fatal {s : State} {sub : FatalSub} (hs : s.fatal = .set sub) (i : Instr) :
    exec i s = .next (s.respond (Response.fatal sub)) := by
  cases exec_meaning i with
  | alloc _ _ _ h | load _ _ _ h | store _ _ _ h | identity _ h | gprRead _ _ _ h | gprWrite _ _ _ _ _ h | ripRead h
  | ripWrite _ _ h | rflagsRead _ h | rflagsWrite _ _ h | rflagsUpdate _ _ h | vread _ _ _ h =>
    rw [h]
    exact State.prologue_set hs _
  | vwrite _ _ _ _ _ h =>
    rw [h, vwrite]
    split <;> exact State.prologue_set hs _

/-- While `FATAL` is set every request answers it, an illegal word too (R211, R216). -/
theorem performRequest_of_fatal {s : State} {sub : FatalSub} (hs : s.fatal = .set sub) (q : Request) :
    performRequest q s = .next (s.respond (Response.fatal sub)) := by
  cases hdec : decode q with
  | error e =>
    rw [performRequest_error hdec]
    exact State.prologue_set hs _
  | ok i =>
    rw [performRequest_ok hdec]
    exact exec_of_fatal hs i

/-! ### The statements -/

/-- Settles O6. -/
theorem stepRunsTheDecodedCommand : Obligations.StepRunsTheDecodedCommand := by
  unfold Obligations.StepRunsTheDecodedCommand
  intro s q rest i hin hdec
  rw [step_command hin, performRequest_ok hdec]

/-- Settles O7: the prologue answers every request while `FATAL` is set, raising it is one case of `Answers.response_cases`, and a
reset constructs the block anew. -/
theorem fatalIsStickyAndPrecise : Obligations.FatalIsStickyAndPrecise := by
  unfold Obligations.FatalIsStickyAndPrecise
  refine ⟨fun s q rest sub hin hs => ?_, fun i s t sub hc hexec ht => ?_, fun s cfg rest hin hlegal => ?_, rfl⟩
  · rw [step_command hin]
    exact performRequest_of_fatal (s := { s with inputs := rest }) hs q
  · exact (exec_answers hexec).eq_of_raises_fatal hc ht
  · rw [step_reset hin]
    exact ⟨_, performReset_legal hlegal _, rfl⟩

/-- Settles O9. -/
theorem recoverableStatusesChangeNothing : Obligations.RecoverableStatusesChangeNothing := by
  unfold Obligations.RecoverableStatusesChangeNothing
  intro s t q rest r hin hstep hr hok hfatal
  rw [step_command hin] at hstep
  obtain ⟨w, hA⟩ := performRequest_answers hstep
  exact hA.eq_of_recoverable hr hok hfatal

/-- Settles O10: each row of R212 meets the clause of its own status, and its status is not that of another clause. -/
theorem statusesComeOnlyFromTheirCommands : Obligations.StatusesComeOnlyFromTheirCommands := by
  unfold Obligations.StatusesComeOnlyFromTheirCommands
  intro i s t r hc hexec hr
  cases exec_mayAnswer hc hexec hr with
  | ok => exact ⟨nofun, nofun, nofun, nofun, nofun, nofun⟩
  | outOfBounds hi => exact ⟨fun _ => hi, nofun, nofun, nofun, nofun, nofun⟩
  | unaligned hi | addressNotMapped hi => exact ⟨nofun, fun _ => hi, nofun, nofun, nofun, nofun⟩
  | addressAlreadyMapped hi => exact ⟨nofun, nofun, fun _ => hi, nofun, nofun, nofun⟩
  | illegalCommand hi hwf => exact ⟨nofun, nofun, nofun, fun _ => ⟨hi, hwf⟩, nofun, nofun⟩
  | unwritten hp hi => exact ⟨nofun, nofun, nofun, nofun, fun _ => ⟨hp, hi⟩, nofun⟩
  | span hi => exact ⟨nofun, nofun, nofun, nofun, nofun, fun _ => .inl ⟨rfl, hi⟩⟩
  | overflow hi => exact ⟨nofun, nofun, nofun, nofun, nofun, fun _ => .inr ⟨.inl rfl, hi⟩⟩
  | capacity hi => exact ⟨nofun, nofun, nofun, nofun, nofun, fun _ => .inr ⟨.inr rfl, hi⟩⟩

end Machine

end Sys2Proof
end

section
/-! Proofs of the statements of 70_reset_and_hazards.md: what a block answers before its first `ALLOC` (R241). -/

namespace Sys2Proof.Machine

/-- With no segment no address is mapped. -/
theorem State.unmapped_of_segs_eq_nil {s : State} (h : s.segs = []) (a : Nat) : s.unmapped a := by
  intro S hS
  rw [h] at hS
  exact absurd hS List.not_mem_nil

/-- The failure of a memory access at `a` before any `ALLOC`: it changes nothing and answers in the check order of R51, which
stops at the third check (R241). -/
def FailsUnallocated (s : State) (a : Word64) (run : Out) : Prop :=
  ∃ r : Response, run = .next (s.respond r) ∧ r.res = .none ∧
    (¬ s.aligned a → r.st = .unaligned) ∧
    (s.aligned a → ¬ s.inside a → r.st = .outOfBounds) ∧
    (s.aligned a → s.inside a → r.st = .addressNotMapped)

/-- A command that fails as its access does fails by one of the first three checks, since no address is mapped. -/
theorem failsUnallocated_of_access {s : State} {a : Word64} {n : Nat} {run : Out} (hsegs : s.segs = [])
    (hrun : ∀ f, accessSegment s a n = .error f → run = s.fail f) : FailsUnallocated s a run := by
  obtain ⟨hunaligned, houtside, hunmapped⟩ := access_rejects hrun
  by_cases hal : s.aligned a
  · by_cases hin : s.inside a
    · exact ⟨_, hunmapped hal hin (State.unmapped_of_segs_eq_nil hsegs _), rfl, fun h => absurd hal h,
        fun _ h => absurd hin h, fun _ _ => rfl⟩
    · exact ⟨_, houtside hal hin, rfl, fun h => absurd hal h, fun _ _ => rfl, fun _ h => absurd h hin⟩
  · exact ⟨_, hunaligned hal, rfl, fun _ => rfl, fun h => absurd h hal, fun h => absurd h hal⟩

/-- Settles O24: a constructed block has an empty table, under which each of the four accesses fails by
`failsUnallocated_of_access`; the identity commands answer by `deviceIdentityIsTheConfiguration`, whatever the table. -/
theorem emptyTableAccessesFail : Obligations.EmptyTableAccessesFail := by
  unfold Obligations.EmptyTableAccessesFail
  refine ⟨fun cfg => ⟨rfl, rfl⟩, fun s i a hc hsegs => ⟨fun haccess => ?_, fun hidentity => ?_⟩⟩
  · change FailsUnallocated s a (exec i s)
    obtain rfl | ⟨n, rfl⟩ | ⟨v, rfl⟩ | ⟨d, rfl⟩ := haccess
    case inl => exact failsUnallocated_of_access hsegs fun _ => load_of_error _ hc
    case inr.inl => exact failsUnallocated_of_access hsegs fun _ => load_of_error _ hc
    case inr.inr.inl => exact failsUnallocated_of_access hsegs fun _ => store_of_error hc
    case inr.inr.inr => exact failsUnallocated_of_access hsegs fun _ => store_of_error hc
  · obtain ⟨-, hname, hstart, -, _, hend⟩ := deviceIdentityIsTheConfiguration s hc
    obtain rfl | rfl | rfl := hidentity
    · exact ⟨_, hname, rfl⟩
    · exact ⟨_, hstart, rfl⟩
    · exact ⟨_, hend, rfl⟩

end Sys2Proof.Machine
end

section
/-! Proofs of the statements of 30_encoding.md about the encoding itself: decoding an encoded command gives it back, a decoded request
carries its command's word, and assembled lines decode to well-formed commands (R82 to R93). -/

namespace Sys2Proof.Machine

/-! ### Decoding an encoded command (R82 to R86, R93) -/

/-- A word of opcode 0x20 asks for the `VRD` of its type, view and register. -/
theorem decode_vrd_word {q : Request} {t : ElemType} {vw : View} {v : RegIndex} (hq : q.cmd = wordV 0x20 t vw v) :
    decode q = .ok (vrdInstr v vw t) :=
  decode_of_view_row 0x20 decode_vrd (hq := hq)

/-- A word of opcode 0x21 asks for the `VWR` of its type, view and register, with the request's elements. -/
theorem decode_vwr_word {q : Request} {t : ElemType} {vw : View} {v : RegIndex} (hq : q.cmd = wordV 0x21 t vw v) :
    decode q = .ok (vwrInstr v q.e vw t) :=
  decode_of_view_row 0x21 decode_vwr (hq := hq)

/-- Settles O1: the word of each command is that of its format, which its row of the opcode map reads back with the operands `encode`
puts in; for a `VRD` or a `VWR` the type and the view in the word select the command. -/
theorem decodeEncodeRoundTrip : Obligations.DecodeEncodeRoundTrip := by
  unfold Obligations.DecodeEncodeRoundTrip
  intro i
  cases i with
  | alloc => exact decode_of_row 0x01 decode_alloc
  | rdb => exact decode_of_row 0x02 decode_rdb
  | rdbs => exact decode_of_row 0x03 decode_rdbs
  | wrb => exact decode_of_row 0x04 decode_wrb
  | wrbs => exact decode_of_row 0x05 decode_wrbs
  | dname => exact decode_of_row 0x06 decode_dname
  | dstart => exact decode_of_row 0x07 decode_dstart
  | dend => exact decode_of_row 0x08 decode_dend
  | grd8 => exact decode_of_register_row 0x10 decode_grd8
  | grd16 => exact decode_of_register_row 0x11 decode_grd16
  | grd32 => exact decode_of_register_row 0x12 decode_grd32
  | grd64 => exact decode_of_register_row 0x13 decode_grd64
  | gwr8 => exact decode_of_register_row 0x14 decode_gwr8
  | gwr16 => exact decode_of_register_row 0x15 decode_gwr16
  | gwr32 => exact decode_of_register_row 0x16 decode_gwr32
  | gwr64 => exact decode_of_register_row 0x17 decode_gwr64
  | riprd => exact decode_of_row 0x18 decode_riprd
  | ripwr => exact decode_of_row 0x19 decode_ripwr
  | flrd => exact decode_of_row 0x1A decode_flrd
  | flwr => exact decode_of_row 0x1B decode_flwr
  | flset => exact decode_of_row 0x1C decode_flset
  | flclr => exact decode_of_row 0x1D decode_flclr
  | fltst => exact decode_of_row 0x1E decode_fltst
  | vrdXmmI8x16 | vrdYmmI8x32 | vrdZmmI8x64 | vrdXmmU8x16 | vrdYmmU8x32 | vrdZmmU8x64
  | vrdXmmI16x8 | vrdYmmI16x16 | vrdZmmI16x32 | vrdXmmU16x8 | vrdYmmU16x16 | vrdZmmU16x32
  | vrdXmmI32x4 | vrdYmmI32x8 | vrdZmmI32x16 | vrdXmmU32x4 | vrdYmmU32x8 | vrdZmmU32x16
  | vrdXmmI64x2 | vrdYmmI64x4 | vrdZmmI64x8 | vrdXmmU64x2 | vrdYmmU64x4 | vrdZmmU64x8
  | vrdXmmF32x4 | vrdYmmF32x8 | vrdZmmF32x16 | vrdXmmF64x2 | vrdYmmF64x4 | vrdZmmF64x8 =>
    exact (decode_vrd_word rfl).trans rfl
  | vwrXmmI8x16 | vwrYmmI8x32 | vwrZmmI8x64 | vwrXmmU8x16 | vwrYmmU8x32 | vwrZmmU8x64
  | vwrXmmI16x8 | vwrYmmI16x16 | vwrZmmI16x32 | vwrXmmU16x8 | vwrYmmU16x16 | vwrZmmU16x32
  | vwrXmmI32x4 | vwrYmmI32x8 | vwrZmmI32x16 | vwrXmmU32x4 | vwrYmmU32x8 | vwrZmmU32x16
  | vwrXmmI64x2 | vwrYmmI64x4 | vwrZmmI64x8 | vwrXmmU64x2 | vwrYmmU64x4 | vwrZmmU64x8
  | vwrXmmF32x4 | vwrYmmF32x8 | vwrZmmF32x16 | vwrXmmF64x2 | vwrYmmF64x4 | vwrZmmF64x8 =>
    exact (decode_vwr_word rfl).trans rfl

/-! ### The word of a decoded command (R81 to R86) -/

theorem encode_cmd_vrdInstr (v : RegIndex) (vw : View) (t : ElemType) :
    (encode (vrdInstr v vw t)).cmd = wordV 0x20 t vw v := by
  cases vw <;> cases t <;> rfl

theorem encode_cmd_vwrInstr (v : RegIndex) (es : List Int) (vw : View) (t : ElemType) :
    (encode (vwrInstr v es vw t)).cmd = wordV 0x21 t vw v := by
  cases vw <;> cases t <;> rfl

theorem viewOfCode_eq_some {n : Nat} {vw : View} (h : viewOfCode n = some vw) : vw.code = n := by
  unfold viewOfCode at h
  split at h <;> cases h <;> rfl

theorem elemTypeOfCode_eq_some {n : Nat} {t : ElemType} (h : elemTypeOfCode n = some t) : t.code = n := by
  unfold elemTypeOfCode at h
  split at h <;> cases h <;> rfl

section Formats
variable {w : CmdWord} {opc : Nat}

/-- A word format N accepts is the word of its opcode. -/
theorem encode_cmd_of_decodeN {i j : Instr} (hrow : (encode i).cmd = wordN opc) (hopc : opcField w = opc)
    (h : decodeN w i = .ok j) : (encode j).cmd = w := by
  unfold decodeN at h
  split at h
  case isFalse => cases h
  case isTrue hbits =>
    cases h
    rw [hrow, ← hopc, wordN_fields hbits]

/-- A word format G accepts is the word of its opcode and its register. -/
theorem encode_cmd_of_decodeG {f : RegIndex → Instr} {j : Instr} (hrow : ∀ r, (encode (f r)).cmd = wordG opc r)
    (hopc : opcField w = opc) (h : decodeG w f = .ok j) : (encode j).cmd = w := by
  unfold decodeG at h
  split at h
  case isFalse => cases h
  case isTrue hbits =>
    cases h
    rw [hrow, ← hopc, wordG_fields hbits]

/-- A word format V accepts is the word of its opcode, type, view and register: each code has one view or type. -/
theorem encode_cmd_of_decodeV {f : View → ElemType → RegIndex → Instr} {j : Instr}
    (hrow : ∀ vw t v, (encode (f vw t v)).cmd = wordV opc t vw v) (hopc : opcField w = opc) (h : decodeV w f = .ok j) :
    (encode j).cmd = w := by
  unfold decodeV at h
  split at h
  case isFalse => cases h
  case isTrue hbits =>
    split at h
    case h_1 => cases h
    case h_2 vw hview =>
      split at h
      case h_1 => cases h
      case h_2 t htype =>
        cases h
        rw [hrow, ← hopc, wordV_fields hbits (viewOfCode_eq_some hview) (elemTypeOfCode_eq_some htype)]

end Formats

/-- Settles O2: by the row of the opcode map the request's word selects, and then by that row's format. -/
theorem decodedCommandKeepsItsWord : Obligations.DecodedCommandKeepsItsWord := by
  unfold Obligations.DecodedCommandKeepsItsWord
  intro q i h
  unfold decode at h
  split at h
  case h_1 hopc | h_2 hopc | h_3 hopc | h_4 hopc | h_5 hopc | h_6 hopc | h_7 hopc | h_8 hopc
    | h_17 hopc | h_18 hopc | h_19 hopc | h_20 hopc | h_21 hopc | h_22 hopc | h_23 hopc =>
    exact encode_cmd_of_decodeN rfl hopc h
  case h_9 hopc | h_10 hopc | h_11 hopc | h_12 hopc | h_13 hopc | h_14 hopc | h_15 hopc | h_16 hopc =>
    exact encode_cmd_of_decodeG (fun _ => rfl) hopc h
  case h_24 hopc => exact encode_cmd_of_decodeV (fun vw t v => encode_cmd_vrdInstr v vw t) hopc h
  case h_25 hopc => exact encode_cmd_of_decodeV (fun vw t v => encode_cmd_vwrInstr v q.e vw t) hopc h
  case h_26 => cases h

/-! ### Assembled lines (R92, R93) -/

/-- The assembler gives only encodings of well-formed commands. -/
theorem assemble_eq_request {line : String} {q : Request} (h : Asm.assemble line = .request q) :
    ∃ i, q = encode i ∧ i.wf = true := by
  unfold Asm.assemble at h
  split at h
  case h_1 | h_2 => cases h
  case h_3 =>
    split at h
    case h_1 => cases h
    case h_2 i _ =>
      split at h
      case isFalse => cases h
      case isTrue hwf =>
        cases h
        exact ⟨i, rfl, hwf⟩

/-- Settles O5: an assembled request is the encoding of a well-formed command, which decodes to that command. -/
theorem assembledLinesDecodeWellFormed : Obligations.AssembledLinesDecodeWellFormed := by
  unfold Obligations.AssembledLinesDecodeWellFormed
  intro line q h
  obtain ⟨i, rfl, hwf⟩ := assemble_eq_request h
  exact ⟨i, decodeEncodeRoundTrip i, hwf⟩

end Sys2Proof.Machine
end

section
/-! Proof that every request gets exactly one response (30_encoding.md; R13, R88): every shared operation ends in a next state, so
`exec_answers` says what each command answers, and `decodedCommandKeepsItsWord` that it answers for the request's word. -/

namespace Sys2Proof.Machine

/-! ### Every request completes (R13) -/

/-- The outcome is a next state: neither a fault nor a refusal. -/
def Completes (run : Out) : Prop := ∃ t, run = .next t

section Operations
variable {s : State} {run : Out}

theorem completes_succeed (s : State) (res : Result) : Completes (s.succeed res) := ⟨_, rfl⟩

theorem completes_fail (s : State) (f : Failure) : Completes (s.fail f) := by
  cases f <;> exact ⟨_, rfl⟩

/-- While `FATAL` is set the prologue answers it, whatever the command does (R211). -/
theorem Completes.prologue (h : Completes run) : Completes (s.prologue run) := by
  cases hs : s.fatal with
  | clear => rwa [State.prologue_clear hs]
  | set sub => exact ⟨_, State.prologue_set hs run⟩

theorem Completes.readChecked {w : CmdWord} {valid : Bool} (h : Completes run) : Completes (s.readChecked w valid run) := by
  rcases State.readChecked_cases (s := s) (w := w) (valid := valid) (run := run) with ⟨-, -, he⟩ | ⟨-, he⟩ <;> rw [he]
  · exact completes_fail s _
  · exact h

theorem completes_load (addr : Word64) (n : Nat) (answer : List Byte → Result) (s : State) :
    Completes (load addr n answer s) := by
  unfold load
  split
  · exact completes_fail s _
  · exact completes_succeed s _

theorem completes_store (addr : Word64) (bs : List Byte) (s : State) : Completes (store addr bs s) := by
  unfold store
  split
  · exact completes_fail s _
  · exact completes_succeed _ _

theorem completes_commitAlloc (s : State) (g : Nat) (m : Memory) (a : Nat) : Completes (commitAlloc s g m a) := by
  rw [commitAlloc_eq]
  split
  · exact completes_fail s _
  · exact completes_succeed _ _

theorem completes_allocate (hint size : Word64) (s : State) : Completes (allocate hint size s) := by
  unfold allocate
  dsimp only
  split
  · exact completes_fail s _
  split
  · exact completes_fail s _
  split
  case h_1 => exact completes_fail s _
  case h_2 | h_3 | h_4 => exact completes_commitAlloc s _ _ _

theorem completes_illegalCommand (w : CmdWord) (s : State) : Completes (illegalCommand w s) :=
  .prologue (completes_fail s _)

theorem completes_vwrite (vw : View) (ty : ElemType) (w : CmdWord) (r : RegIndex) (es : List Int) (s : State) :
    Completes (vwrite vw ty w r es s) := by
  unfold vwrite
  split
  · exact .prologue (completes_succeed _ _)
  · exact completes_illegalCommand w s

theorem completes_exec (i : Instr) (s : State) : Completes (exec i s) := by
  cases exec_meaning i with
  | alloc _ _ _ he => exact he s ▸ .prologue (completes_allocate _ _ s)
  | load _ _ _ he => exact he s ▸ .prologue (completes_load _ _ _ s)
  | store _ _ _ he => exact he s ▸ .prologue (completes_store _ _ s)
  | identity _ he | gprWrite _ _ _ _ _ he | ripWrite _ _ he | rflagsWrite _ _ he =>
    exact he s ▸ .prologue (completes_succeed _ _)
  | gprRead _ _ _ he | ripRead he | rflagsRead _ he | rflagsUpdate _ _ he | vread _ _ _ he =>
    exact he s ▸ .prologue (.readChecked (completes_succeed _ _))
  | vwrite _ _ _ _ _ he => exact he s ▸ completes_vwrite _ _ _ _ _ s

theorem completes_performRequest (q : Request) (s : State) : Completes (performRequest q s) := by
  cases hdec : decode q with
  | error e => exact performRequest_error hdec s ▸ completes_illegalCommand q.cmd s
  | ok i => exact performRequest_ok hdec s ▸ completes_exec i s

end Operations

/-! ### The response record (R88) -/

/-- A request answers for its own word: an illegal word by itself, and any other through the command it decodes to, which keeps the
word (`decodedCommandKeepsItsWord`). -/
theorem performRequest_answers_cmd {q : Request} {s t : State} (h : performRequest q s = .next t) : Answers q.cmd s t := by
  cases hdec : decode q with
  | error e =>
    rw [performRequest_error hdec] at h
    exact illegalCommand_answers h
  | ok i =>
    rw [performRequest_ok hdec] at h
    exact decodedCommandKeepsItsWord q i hdec ▸ exec_answers h

/-- The fields of a response to the word `w` that its status leaves unused are `NONE` and 0 (R88). -/
def Response.Fits (w : CmdWord) (r : Response) : Prop := (r.st ≠ .ok → r.res = .none) ∧ r.st.payloadFits w r.p0 r.p1

theorem Response.fits_okWith (w : CmdWord) (res : Result) : (Response.okWith res).Fits w := ⟨absurd rfl, rfl, rfl⟩

theorem Response.fits_fatal (w : CmdWord) (sub : FatalSub) : (Response.fatal sub).Fits w := ⟨fun _ => rfl, ⟨sub, rfl⟩, rfl⟩

/-- An answer takes no further request and adds one response, whose fields fit. -/
theorem Answers.one_response {w : CmdWord} {s t : State} (h : Answers w s t) :
    ∃ r : Response, t.inputs = s.inputs ∧ t.responses = s.responses ++ [r] ∧ r.Fits w := by
  cases h with
  | stuck | fatal => exact ⟨_, rfl, rfl, Response.fits_fatal w _⟩
  | status _ _ _ hp => exact ⟨_, rfl, rfl, fun _ => rfl, hp⟩
  | reads | gpr | rip | rflags | rflagsKept | simd | allocated => exact ⟨_, rfl, rfl, Response.fits_okWith w _⟩
  | memory _ hw =>
    obtain ⟨S, -, rfl⟩ := memWrite_ok.1 hw
    exact ⟨_, rfl, rfl, Response.fits_okWith w _⟩

/-- Settles O8: every request completes, and its answer adds one response that fits the request's word. -/
theorem everyRequestGetsOneResponse : Obligations.EveryRequestGetsOneResponse := by
  unfold Obligations.EveryRequestGetsOneResponse
  intro s q rest hin
  obtain ⟨t, ht⟩ := completes_performRequest q { s with inputs := rest }
  obtain ⟨r, hinputs, hresponses, hres, hpayload⟩ := (performRequest_answers_cmd ht).one_response
  exact ⟨t, r, (step_command hin).trans ht, hinputs, hresponses, hres, hpayload⟩

end Sys2Proof.Machine
end
